-- ==== Sys2Proof/Word.lean ====
section
/-! DEFINITION. The word types of the block: bytes, six-bit symbol values, 64-bit operands, and the
two packets that cross the command port (rules R7, R50, R54). -/

namespace Sys2Proof

/-- A byte of a stream (rule R7). -/
abbrev Byte := BitVec 8

/-- A six-bit value, the unit of the text code (rule R6, `SYM_BITS`). -/
abbrev Sextet := BitVec 6

/-- A 64-bit operand or result field (rules R10, R110). -/
abbrev Word := BitVec 64

/-- A command packet `CMD[207:0]` (rule R50). -/
abbrev Packet := BitVec 208

/-- A response packet `RSP[199:0]` (rule R54). -/
abbrev Response := BitVec 200

end Sys2Proof
end

