-- ==== Sys2Proof/Syntax.lean ====
section
/-! DEFINITION. The twenty commands (rule R52), one constructor per row of spec/opcode_table.json, with
the operands rule R62 hands to each; and the pseudo-commands of rule R61. -/

namespace Sys2Proof

/-- A command, as the decoder of rule R62 gives it: only the operand bits the command uses are kept
(rule R51). -/
inductive Instr where
  /-- STATUS, rule R160. -/
  | status
  /-- BEGIN_ENCODE, rule R70. -/
  | beginEncode
  /-- BEGIN_DECODE, rule R90. -/
  | beginDecode
  /-- END_ENCODE, rule R78. -/
  | endEncode
  /-- END_DECODE, rule R101. -/
  | endDecode
  /-- PUT_BYTE, rule R73: `A[7:0]` and `PAD`. -/
  | putByte (value : Byte) (pad : BitVec 2)
  /-- PUT_INT16, rule R74: `A[15:0]` and `PAD`. -/
  | putInt16 (value : BitVec 16) (pad : BitVec 2)
  /-- PUT_INT32, rule R75: `A[31:0]` and `PAD`. -/
  | putInt32 (value : BitVec 32) (pad : BitVec 2)
  /-- PUT_INT64, rule R76: `A` and `PAD`. -/
  | putInt64 (value : BitVec 64) (pad : BitVec 2)
  /-- GET_BYTE, rule R97. -/
  | getByte
  /-- GET_INT16, rule R98. -/
  | getInt16
  /-- GET_INT32, rule R99. -/
  | getInt32
  /-- GET_INT64, rule R100. -/
  | getInt64
  /-- IS_PRIME, rule R111: `A`. -/
  | isPrime (n : Word)
  /-- GCD, rule R113: `A` and `B`, read as signed. -/
  | gcd (a b : Word)
  /-- MOD_INVERSE, rule R114: `A` = a, `B` = n. -/
  | modInverse (a n : Word)
  /-- MOD_EXP, rule R116: `A` = base, `B` = exponent, `C` = modulus. -/
  | modExp (base exponent modulus : Word)
  /-- KEYGEN, rule R130. -/
  | keygen
  /-- ENCRYPT, rule R141: `A` = n, `B` = e. -/
  | encrypt (n e : Word)
  /-- DECRYPT, rule R146: `A` = n, `B` = d. -/
  | decrypt (n d : Word)
  deriving DecidableEq, Repr

/-- The pseudo-commands of rule R61, other spellings of commands. -/
inductive Pseudo where
  /-- `NOP`. -/
  | nop
  /-- `PUT_INT8 v [, pad=k]`. -/
  | putInt8 (value : Byte) (pad : BitVec 2)
  /-- `GET_INT8`. -/
  | getInt8
  /-- `PUT_BYTES b0 b1 ... bk`. -/
  | putBytes (bytes : List Byte)
  /-- `GET_BYTES k`. -/
  | getBytes (count : Nat)
  deriving DecidableEq, Repr

/-- The commands a pseudo-command stands for (rule R61). -/
def Pseudo.expand : Pseudo → List Instr
  | .nop => [.status]
  | .putInt8 v p => [.putByte v p]
  | .getInt8 => [.getByte]
  | .putBytes bs => bs.map fun b => .putByte b 0
  | .getBytes k => List.replicate k .getByte

end Sys2Proof
end

