-- ==== Sys2Proof/Decode.lean ====
section
/-! DEFINITION. Decoding a command packet, total on 208 bits (rules R50, R51, R52, R56, R62), and the
encoder (rules R50, R60). -/

namespace Sys2Proof

/-- Why a packet is no command (rule R56). -/
inductive Illegal where
  /-- `RSV` is not 0. -/
  | reservedBits
  /-- `PAD` is not 0 and the command takes none. -/
  | padNotAllowed
  /-- `OPC` is one of 0x05 to 0x07, 0x14 to 0x17, 0x1B to 0xFF. -/
  | unassignedOpcode
  deriving DecidableEq, Repr

/-- `OPC`, `CMD[7:0]` (rule R50). -/
def packetOpc (w : Packet) : BitVec 8 := w.extractLsb' 0 8

/-- `PAD`, `CMD[9:8]` (rule R50). -/
def packetPad (w : Packet) : BitVec 2 := w.extractLsb' 8 2

/-- `RSV`, `CMD[15:10]` (rule R50). -/
def packetRsv (w : Packet) : BitVec 6 := w.extractLsb' 10 6

/-- `A`, `CMD[79:16]` (rule R50). -/
def packetA (w : Packet) : Word := w.extractLsb' 16 64

/-- `B`, `CMD[143:80]` (rule R50). -/
def packetB (w : Packet) : Word := w.extractLsb' 80 64

/-- `C`, `CMD[207:144]` (rule R50). -/
def packetC (w : Packet) : Word := w.extractLsb' 144 64

/-- The four commands that take `PAD`: `OPC` 0x08 to 0x0B, each with the low bits of `A` it uses
(rules R51, R52). -/
def decodePut (opc : BitVec 8) (pad : BitVec 2) (a : Word) : Option Instr :=
  if opc = 0x08 then some (.putByte (a.extractLsb' 0 8) pad)
  else if opc = 0x09 then some (.putInt16 (a.extractLsb' 0 16) pad)
  else if opc = 0x0A then some (.putInt32 (a.extractLsb' 0 32) pad)
  else if opc = 0x0B then some (.putInt64 a pad)
  else none

/-- The sixteen commands that take no `PAD` (rule R52). -/
def decodePlain (opc : BitVec 8) (a b c : Word) : Option Instr :=
  if opc = 0x00 then some .status
  else if opc = 0x01 then some .beginEncode
  else if opc = 0x02 then some .beginDecode
  else if opc = 0x03 then some .endEncode
  else if opc = 0x04 then some .endDecode
  else if opc = 0x0C then some .getByte
  else if opc = 0x0D then some .getInt16
  else if opc = 0x0E then some .getInt32
  else if opc = 0x0F then some .getInt64
  else if opc = 0x10 then some (.isPrime a)
  else if opc = 0x11 then some (.gcd a b)
  else if opc = 0x12 then some (.modInverse a b)
  else if opc = 0x13 then some (.modExp a b c)
  else if opc = 0x18 then some .keygen
  else if opc = 0x19 then some (.encrypt a b)
  else if opc = 0x1A then some (.decrypt a b)
  else none

/-- Decoding (rule R62): the reserved bits first, then the commands with `PAD`, then `PAD` itself, then the
rest. -/
def decode (w : Packet) : Except Illegal Instr :=
  if packetRsv w ≠ 0 then .error .reservedBits
  else
    match decodePut (packetOpc w) (packetPad w) (packetA w) with
    | some i => .ok i
    | none =>
      if packetPad w ≠ 0 then .error .padNotAllowed
      else
        match decodePlain (packetOpc w) (packetA w) (packetB w) (packetC w) with
        | some i => .ok i
        | none => .error .unassignedOpcode

/-- The packet `{C, B, A, RSV = 0, PAD, OPC}` (rule R50). -/
def packet (opc : BitVec 8) (pad : BitVec 2) (a b c : Word) : Packet :=
  c ++ b ++ a ++ (0 : BitVec 6) ++ pad ++ opc

/-- The packet of a command: operands zero-extended into their fields, absent operands zero (rule R60). -/
def encode : Instr → Packet
  | .status => packet 0x00 0 0 0 0
  | .beginEncode => packet 0x01 0 0 0 0
  | .beginDecode => packet 0x02 0 0 0 0
  | .endEncode => packet 0x03 0 0 0 0
  | .endDecode => packet 0x04 0 0 0 0
  | .putByte v p => packet 0x08 p (v.zeroExtend 64) 0 0
  | .putInt16 v p => packet 0x09 p (v.zeroExtend 64) 0 0
  | .putInt32 v p => packet 0x0A p (v.zeroExtend 64) 0 0
  | .putInt64 v p => packet 0x0B p v 0 0
  | .getByte => packet 0x0C 0 0 0 0
  | .getInt16 => packet 0x0D 0 0 0 0
  | .getInt32 => packet 0x0E 0 0 0 0
  | .getInt64 => packet 0x0F 0 0 0 0
  | .isPrime n => packet 0x10 0 n 0 0
  | .gcd a b => packet 0x11 0 a b 0
  | .modInverse a n => packet 0x12 0 a n 0
  | .modExp base exponent modulus => packet 0x13 0 base exponent modulus
  | .keygen => packet 0x18 0 0 0 0
  | .encrypt n e => packet 0x19 0 n e 0
  | .decrypt n d => packet 0x1A 0 n d 0

/-- A packet given by its low `nbits` bits as spec/opcode_table.json numbers them, every bit above them 0. -/
def tablePacket (nbits w : Nat) : Packet :=
  BitVec.ofNat 208 (w % 2 ^ nbits)

/-- What the decoder reads from a row's word: the command, or nothing where it refuses. -/
def decodeTableWord (nbits w : Nat) : Option Instr :=
  match decode (tablePacket nbits w) with
  | .ok i => some i
  | .error _ => none

end Sys2Proof
end

