-- ==== Sys2Proof/Machine/Alphabet.lean ====
section
/-! DEFINITION. The text alphabet (rules R58, R59, R91). -/

namespace Sys2Proof.Machine

/-- The byte of each six-bit value, the table of rule R58 in index order. The codes are ASCII, which the
spec takes from general knowledge (93_implementation_defined.md, G1). -/
def alphabet : List Byte :=
  [0x41, 0x42, 0x43, 0x44, 0x45, 0x46, 0x47, 0x48, 0x49, 0x4A, 0x4B, 0x4C, 0x4D, 0x4E, 0x4F, 0x50] ++
  [0x51, 0x52, 0x53, 0x54, 0x55, 0x56, 0x57, 0x58, 0x59, 0x5A, 0x61, 0x62, 0x63, 0x64, 0x65, 0x66] ++
  [0x67, 0x68, 0x69, 0x6A, 0x6B, 0x6C, 0x6D, 0x6E, 0x6F, 0x70, 0x71, 0x72, 0x73, 0x74, 0x75, 0x76] ++
  [0x77, 0x78, 0x79, 0x7A, 0x30, 0x31, 0x32, 0x33, 0x34, 0x35, 0x36, 0x37, 0x38, 0x39, 0x2B, 0x2F]

/-- `PADCHAR`, the byte of `=` (rule R59; G2). -/
def padChar : Byte := 0x3D

/-- `ALPHA(v)` (rule R58). The table has 64 entries, so the default is never taken. -/
def alpha (v : Sextet) : Byte :=
  alphabet.getD v.toNat padChar

/-- `VALUE(b)`, the inverse of `ALPHA` on the 64 alphabet bytes and nothing elsewhere (rule R58). -/
def alphaValue (b : Byte) : Option Sextet :=
  (alphabet.findIdx? (· == b)).map (BitVec.ofNat 6)

/-- `SymbolValue(b)` (rule R91): `=` reads as 0, an alphabet byte as its value, any other byte has none
(rule R92). -/
def symbolValue (b : Byte) : Option Sextet :=
  if b = padChar then some 0 else alphaValue b

end Sys2Proof.Machine
end

