-- ==== Sys2Proof/Config.lean ====
section
/-! DEFINITION. The implementation parameters the spec leaves open (rule R6) and the one free value of
the model. -/

namespace Sys2Proof

/-- The open parameters of rule R6 (decisions D8, D12, D22, D25). A machine has one value of them, which
no step changes (rule R192). -/
structure Params where
  /-- `NEWLINE`, the byte the encoder writes after every 64th symbol. -/
  newline : Byte
  /-- `SKIP`, the bytes the decoder passes over. -/
  skip : List Byte
  /-- `KEY_LO`, the least draw of the random port. -/
  keyLo : Nat
  /-- `KEY_HI`, the greatest draw of the random port. -/
  keyHi : Nat
  /-- `STRICT_BLOCK_CHECK`, whether ENCRYPT refuses a block value not below the modulus. -/
  strictBlockCheck : Bool
  deriving DecidableEq, Repr

/-- The default parameters of rule R6. DESIGN CHOICE of the spec (D8, D12, D22, D25), unsafe if a claim
rested on it: see log 1; every statement is about any parameters. -/
def Params.default : Params where
  newline := 0x0A
  skip := [0x0A]
  keyLo := 4096
  keyHi := 65535
  strictBlockCheck := false

/-- The field `R0` of the response to a GET that failed, "unspecified" in rules R97 to R100 (93_implementation_defined.md,
V1): a free value, one for each use, about which nothing can be proved. Log 8; safe. -/
opaque Config.freeResult : Nat → Word

end Sys2Proof
end

