-- ==== Sys2Proof/Machine/State.lean ====
section
/-! DEFINITION. The state of the block as plain data: its registers, its ports, its command port, what the
environment and the host have in store for it (rules R12, R19, R24, R25, R30, R192), and the reasons a
step could stop. -/

namespace Sys2Proof.Machine

/-- `mode` (rule R12); the code 3 never occurs. -/
inductive Mode where
  | idle
  | encoding
  | decoding
  deriving DecidableEq, Repr

/-- An event of a sink (rule R32). -/
inductive SinkEvent where
  | opened
  | byte (v : Byte)
  | closed
  deriving DecidableEq, Repr

/-- What the environment answers to the attaches of one port (rule R31): one answer listed for each of the
next attaches, and the one it gives at every attach after those. A free input, log 4. -/
structure Answers (α : Type) where
  listed : List α
  later : α
  deriving DecidableEq, Repr

/-- A sink port (rules R19, R31, R32): whether it is attached, its event list, and the `open_ok` answers to
come. -/
structure Sink where
  attached : Bool
  events : List SinkEvent
  opens : Answers Bool
  deriving DecidableEq, Repr

/-- A source port (rules R19, R31, R33): whether it is attached, its unread bytes, and the answers to come:
`none` for a refused open, else the bytes of the resource. -/
structure Source where
  attached : Bool
  rest : List Byte
  opens : Answers (Option (List Byte))
  deriving DecidableEq, Repr

/-- The phase of a KEYGEN in progress (rules R11, R22, R130): which of the three searches it is in, with the
primes found so far. -/
inductive KeygenPhase where
  /-- Drawing for `p`. -/
  | seekP
  /-- `p` is found, drawing for `q`. -/
  | seekQ (p : Nat)
  /-- `p` and `q` are found, so `n = p * q` and `f = (p - 1) * (q - 1)` are known; drawing for `e`. -/
  | seekE (p q : Nat)
  deriving DecidableEq, Repr

/-- The state of the block. -/
structure State where
  /-- The parameters of rule R6; no step changes them. -/
  params : Params
  /-- `mode`, rule R12. -/
  mode : Mode
  /-- `bitBuffer`, rules R12 to R14. -/
  bitBuffer : BitVec 24
  /-- `byteCount`, rules R12 to R14. -/
  byteCount : BitVec 2
  /-- `column`, rules R12, R15. -/
  column : BitVec 6
  /-- `TXT_OUT`, rule R30. -/
  txtOut : Sink
  /-- `TXT_IN`, rule R30. -/
  txtIn : Source
  /-- `PT_IN`, rule R30. -/
  ptIn : Source
  /-- `PT_OUT`, rule R30. -/
  ptOut : Sink
  /-- `RND`, rule R43: the draws delivered and not yet taken. A free input, log 6. -/
  rnd : List Nat
  /-- The KEYGEN in progress, if one waits for a draw (rules R11, R44, R135). -/
  keygen : Option KeygenPhase
  /-- The packets the host has issued and the block has not accepted, in order (rules R40, R50). A free
  input, log 2. -/
  cmdIn : List Packet
  /-- The responses given, in order (rule R54). -/
  rspOut : List Response
  /-- When reset comes (rule R190): the units of work before it, then those between it and the next one, and
  so on. A free input, log 3. -/
  resetIn : List Nat
  /-- The model's own: how many free values have been used. Log 8. -/
  freeCount : Nat
  deriving DecidableEq, Repr

/-- Faults. There is none: every packet in every state has a response and a next state (rule R206), and
every failure is a status in the response (rule R165). Nobody raises one, and having none is safe: no
behaviour of the block is left out by it. -/
inductive Fault where
  deriving DecidableEq, Repr

/-- Refusals. -/
inductive Refusal where
  /-- A command that has no meaning in the model yet. Raised by an arm of `exec` alone; safe, since nothing can
  be proved of a command that is refused. No arm raises it. -/
  | notModelled (mnemonic : String)
  deriving DecidableEq, Repr

/-- A sink right after reset: not attached (rule R25), with no history of events (log 5) and an environment
that grants every open (log 4). -/
def Sink.reset : Sink where
  attached := false
  events := []
  opens := { listed := [], later := true }

/-- A source right after reset: not attached (rule R25), nothing to read (rules R34, R190), and an environment
that grants every open, of an empty resource (log 4). -/
def Source.reset : Source where
  attached := false
  rest := []
  opens := { listed := [], later := some [] }

/-- The machine right after reset (rules R25, R190): `mode` is `Idle`, the three other registers are 0, no port
is attached, no command is in progress, there is no pending response. The inputs hold what logs 1 to 6 name. -/
def State.reset : State where
  params := Params.default
  mode := .idle
  bitBuffer := 0
  byteCount := 0
  column := 0
  txtOut := Sink.reset
  txtIn := Source.reset
  ptIn := Source.reset
  ptOut := Sink.reset
  rnd := []
  keygen := none
  cmdIn := []
  rspOut := []
  resetIn := []
  freeCount := 0

end Sys2Proof.Machine
end

