-- ==== Sys2Proof/Machine/Flags.lean ====
section
/-! DEFINITION. The codes of `mode`, the status flag `ACTIVE` with its two refinements (rule R17), and the
status codes of a response (rule R166). -/

namespace Sys2Proof.Machine

/-- The two-bit code of `mode` (rule R12). -/
def modeCode : Mode → BitVec 2
  | .idle => 0
  | .encoding => 1
  | .decoding => 2

/-- `ENC_ACTIVE` (rule R17). -/
def encActive (s : State) : Bool := s.mode = .encoding

/-- `DEC_ACTIVE` (rule R17). -/
def decActive (s : State) : Bool := s.mode = .decoding

/-- `ACTIVE` (rule R17). -/
def active (s : State) : Bool := s.mode ≠ .idle

/-- What a command can answer (rule R166). -/
inductive Status where
  | ok
  | notActive
  | openFail
  | srcExhausted
  | badSymbol
  | noInverse
  | zeroModulus
  | operandRange
  | lengthRange
  | blockRange
  | illegalCmd
  deriving DecidableEq, Repr

/-- The four-bit code of a status (rule R166); 0xA to 0xE are no status. -/
def statusCode : Status → BitVec 4
  | .ok => 0x0
  | .notActive => 0x1
  | .openFail => 0x2
  | .srcExhausted => 0x3
  | .badSymbol => 0x4
  | .noInverse => 0x5
  | .zeroModulus => 0x6
  | .operandRange => 0x7
  | .lengthRange => 0x8
  | .blockRange => 0x9
  | .illegalCmd => 0xF

/-- `R0` of STATUS: bit 2 is `ACTIVE`, bits 1:0 are `mode` (rule R160). -/
def statusWord (s : State) : Word :=
  (BitVec.ofBool (active s) ++ modeCode s.mode).zeroExtend 64

end Sys2Proof.Machine
end

