-- ==== Sys2Proof/Machine/Operands.lean ====
section
/-! DEFINITION. Operand and result forms: bytes and halves of integers (rules R35, R38), the group and its
symbols (rule R36), block values (rules R142, R147), the response packet (rule R54). -/

namespace Sys2Proof.Machine

/-- `v[w-1:0]` of a value of width `w + w`, the half that comes first in time (rule R35). -/
def lowHalf {w : Nat} (v : BitVec (w + w)) : BitVec w := v.extractLsb' 0 w

/-- `v[2w-1:w]` of a value of width `w + w` (rule R35). -/
def highHalf {w : Nat} (v : BitVec (w + w)) : BitVec w := v.extractLsb' w w

/-- Byte `k` of a non-negative integer, `v[8k+7:8k]` (rules R35, R147). -/
def natByte (v k : Nat) : Byte := BitVec.ofNat 8 (v / 256 ^ k)

/-- `bitBuffer * 256 + v` (rule R72). -/
def pushByte (buffer : BitVec 24) (v : Byte) : BitVec 24 := buffer * 256 + v.zeroExtend 24

/-- `(bitBuffer >> (18 - 6*i)) & 0x3F` (rules R36, R72). -/
def groupSextet (group : BitVec 24) (i : Nat) : Sextet := (group >>> (18 - 6 * i)).truncate 6

/-- `g * 64 + v` (rule R94). -/
def pushSextet (group : BitVec 24) (v : Sextet) : BitVec 24 := group * 64 + v.zeroExtend 24

/-- `(bitBuffer >> (8 * (byteCount - 1))) & 0xFF` (rules R14, R95). -/
def servedByte (group : BitVec 24) (count : BitVec 2) : Byte :=
  (group >>> (8 * (count.toNat - 1))).truncate 8

/-- The value of a plaintext block (rule R142). -/
def blockValue (b0 b1 b2 : Byte) : Nat := b0.toNat + 256 * b1.toNat + 65536 * b2.toNat

/-- `N_MAX`, the largest modulus of ENCRYPT and DECRYPT (rules R6, R145). -/
def maxModulus : Nat := 2 ^ 32

/-- The plaintext length the 32-bit header can no longer say (rules R6, R141). -/
def lengthLimit : Nat := 2 ^ 32

/-- What a command answers: its status and its result fields, which are 0 where the command writes none
(rule R54). -/
structure Result where
  status : Status
  r0 : Word := 0
  r1 : Word := 0
  r2 : Word := 0
  deriving DecidableEq, Repr

/-- The response packet `{R2, R1, R0, 0b00, MODE, STATUS}` (rule R54). -/
def responseWord (mode : Mode) (r : Result) : Response :=
  r.r2 ++ r.r1 ++ r.r0 ++ (0 : BitVec 2) ++ modeCode mode ++ statusCode r.status

/-- `STATUS`, `RSP[3:0]` (rule R54). -/
def responseStatus (w : Response) : BitVec 4 := w.extractLsb' 0 4

/-- `MODE`, `RSP[5:4]` (rule R54). -/
def responseMode (w : Response) : BitVec 2 := w.extractLsb' 4 2

/-- `R0`, `RSP[71:8]` (rule R54). -/
def responseR0 (w : Response) : Word := w.extractLsb' 8 64

/-- `R1`, `RSP[135:72]` (rule R54). -/
def responseR1 (w : Response) : Word := w.extractLsb' 72 64

/-- `R2`, `RSP[199:136]` (rule R54). -/
def responseR2 (w : Response) : Word := w.extractLsb' 136 64

end Sys2Proof.Machine
end

