-- ==== Sys2Proof/Machine/Ops.lean ====
section
/-! DEFINITION. The named operations every command is written with: the primitives of rule R8 on the ports,
the response, failing (`raise`), and reset. -/

namespace Sys2Proof.Machine

/-- How a procedure can be cut short: the reset input came (rule R190). -/
inductive Cut where
  | reset
  deriving DecidableEq, Repr

/-- A procedure of the pseudocode: it runs on the state and gives a value, or is cut short by reset, in both
cases with the state it leaves. -/
abbrev Proc (α : Type) := EStateM Cut State α

/-- Reading the state. -/
def getState : Proc State := fun s => .ok s s

/-- Assigning registers. -/
def modifyState (f : State → State) : Proc Unit := fun s => .ok () (f s)

/-- `if condition then m`. -/
def onlyIf (condition : Bool) (m : Proc Unit) : Proc Unit :=
  if condition then m else pure ()

/-- One unit of work: the acceptance of a packet, a port access, a response, a wait. It is cut short when reset is
due (rule R190); else the reset to come is one unit nearer. -/
def unit : Proc Unit := fun s =>
  match s.resetIn with
  | [] => .ok () s
  | 0 :: _ => .error .reset s
  | (k + 1) :: later => .ok () { s with resetIn := k :: later }

/-- The two sinks (rule R30). -/
inductive SinkPort where
  | txtOut
  | ptOut
  deriving DecidableEq, Repr

/-- The two byte sources (rule R30). -/
inductive SourcePort where
  | txtIn
  | ptIn
  deriving DecidableEq, Repr

/-- The state of a sink. -/
def sinkOf (s : State) : SinkPort → Sink
  | .txtOut => s.txtOut
  | .ptOut => s.ptOut

/-- The state with a sink replaced. -/
def withSink (s : State) : SinkPort → Sink → State
  | .txtOut, k => { s with txtOut := k }
  | .ptOut, k => { s with ptOut := k }

/-- The state of a source. -/
def sourceOf (s : State) : SourcePort → Source
  | .txtIn => s.txtIn
  | .ptIn => s.ptIn

/-- The state with a source replaced. -/
def withSource (s : State) : SourcePort → Source → State
  | .txtIn, k => { s with txtIn := k }
  | .ptIn, k => { s with ptIn := k }

/-- The environment's answer to the next attach. -/
def nextAnswer {α : Type} (a : Answers α) : α :=
  match a.listed with
  | [] => a.later
  | x :: _ => x

/-- The answers that remain after the next attach. -/
def restAnswers {α : Type} (a : Answers α) : Answers α :=
  { a with listed := a.listed.tail }

/-- A sink with an event appended (rule R32). -/
def addEvent (k : Sink) (e : SinkEvent) : Sink := { k with events := k.events ++ [e] }

/-- A sink after an attach (rule R31): a granted one appends `open`, a refused one changes nothing but the
answers to come. -/
def sinkAttached (k : Sink) : Sink :=
  let k' := { k with opens := restAnswers k.opens }
  if nextAnswer k.opens then { addEvent k' .opened with attached := true } else k'

/-- A sink after a detach (rule R34). -/
def sinkDetached (k : Sink) : Sink := { addEvent k .closed with attached := false }

/-- A source after an attach (rule R31): a granted one makes the resource's bytes its unread bytes. -/
def sourceAttached (k : Source) : Source :=
  let k' := { k with opens := restAnswers k.opens }
  match nextAnswer k.opens with
  | some bytes => { k' with attached := true, rest := bytes }
  | none => k'

/-- A source after a detach: its unread bytes are discarded (rule R34). -/
def sourceDetached (k : Source) : Source := { k with attached := false, rest := [] }

/-- `Open(P)` of a sink (rule R31). -/
def openSink (p : SinkPort) : Proc Bool := do
  unit
  let s ← getState
  modifyState fun s => withSink s p (sinkAttached (sinkOf s p))
  return nextAnswer (sinkOf s p).opens

/-- `Open(P)` of a source (rule R31). -/
def openSource (p : SourcePort) : Proc Bool := do
  unit
  let s ← getState
  modifyState fun s => withSource s p (sourceAttached (sourceOf s p))
  return (nextAnswer (sourceOf s p).opens).isSome

/-- `Close(P)` of a sink (rule R34). -/
def closeSink (p : SinkPort) : Proc Unit := do
  unit
  modifyState fun s => withSink s p (sinkDetached (sinkOf s p))

/-- `Close(P)` of a source (rule R34). -/
def closeSource (p : SourcePort) : Proc Unit := do
  unit
  modifyState fun s => withSource s p (sourceDetached (sourceOf s p))

/-- `MemWrite(P, 1, v)` (rule R32). -/
def memWrite (p : SinkPort) (v : Byte) : Proc Unit := do
  unit
  modifyState fun s => withSink s p (addEvent (sinkOf s p) (.byte v))

/-- `MemRead(P, 1)` (rule R33): `none` is `EOF`. -/
def memRead (p : SourcePort) : Proc (Option Byte) := do
  unit
  let s ← getState
  modifyState fun s => withSource s p { sourceOf s p with rest := (sourceOf s p).rest.tail }
  return (sourceOf s p).rest.head?

/-- `Draw()` (rules R43, R131): `none` where the random port has no draw yet. -/
def draw : Proc (Option Nat) := do
  unit
  let s ← getState
  modifyState fun s => { s with rnd := s.rnd.tail }
  return s.rnd.head?

/-- An unspecified value (V1 of 93_implementation_defined.md): the next free value. Log 8. -/
def freeWord : Proc Word := do
  let s ← getState
  modifyState fun s => { s with freeCount := s.freeCount + 1 }
  return Config.freeResult s.freeCount

/-- `return OK` with no result field written (rules R8, R54). -/
def okResult : Result := { status := .ok }

/-- `raise <Status>` where the rule writes no result field: they are zero (rules R54, R165). -/
def raiseResult (st : Status) : Result := { status := st }

/-- The state in which a response has been given, and nothing else has changed (rule R54). -/
def answered (s : State) (r : Result) : State :=
  { s with rspOut := s.rspOut ++ [responseWord s.mode r] }

/-- Giving the response of a command, with the `mode` it leaves (rules R54, R165). -/
def respond (r : Result) : Proc Unit := do
  unit
  modifyState fun s => answered s r

/-- A sink after reset: closed if it is attached (rule R190). -/
def sinkReset (k : Sink) : Sink := if k.attached then sinkDetached k else k

/-- A source after reset: closed if it is attached (rule R190). -/
def sourceReset (k : Source) : Source := if k.attached then sourceDetached k else k

/-- Reset (rule R190): the command in progress is abandoned, attached ports are closed, the registers are
cleared; the random port, the host's packets and the responses already given are left alone. -/
def resetBlock (s : State) : State :=
  { s with
    mode := .idle
    bitBuffer := 0
    byteCount := 0
    column := 0
    txtOut := sinkReset s.txtOut
    txtIn := sourceReset s.txtIn
    ptIn := sourceReset s.ptIn
    ptOut := sinkReset s.ptOut
    keygen := none
    resetIn := s.resetIn.tail }

/-- Whether reset comes now (rule R190). -/
def resetDue (s : State) : Bool := s.resetIn.head? = some 0

/-- Running a procedure as a step: to its end, or to the reset that cuts it short. -/
def settle (body : Proc Unit) (s : State) : Host.Outcome State Fault Refusal :=
  match body.run s with
  | .ok _ s' => .next s'
  | .error _ s' => .next (resetBlock s')

/-- What a packet sets going: a unit of work for its acceptance, then the procedure. So reset can come between the
acceptance and the first port access or the response, also in a command that touches no port (rule R190). -/
def accepted (body : Proc Unit) : Proc Unit := do
  unit
  body

/-- Running a command: its body, then its one response (rules R54, R165). -/
def runCommand (body : Proc Result) (s : State) : Host.Outcome State Fault Refusal :=
  settle (accepted (body >>= respond)) s

/-- A packet that is no command (rule R56): answered, without effect. -/
def runIllegal (s : State) : Host.Outcome State Fault Refusal :=
  runCommand (pure (raiseResult .illegalCmd)) s

/-- A step of waiting, for a packet: only the reset to come is nearer. -/
def idleStep (s : State) : Host.Outcome State Fault Refusal :=
  settle unit s

end Sys2Proof.Machine
end

