-- ==== Sys2Proof/Machine/Encoder.lean ====
section
/-! DEFINITION. The encoder: EmitSymbol, PutByte, the integer serialisers, BEGIN_ENCODE, PUT_BYTE,
PUT_INT16, PUT_INT32, PUT_INT64, END_ENCODE (rules R70 to R78). -/

namespace Sys2Proof.Machine

/-- `EmitSymbol(ch)` (rule R71): the line break follows the 64th symbol at once; `=` counts like any symbol
(90_conflicts.md, C1). -/
def emitSymbol (ch : Byte) : Proc Unit := do
  memWrite .txtOut ch
  let s ← getState
  onlyIf (s.column = 63) (memWrite .txtOut s.params.newline)
  modifyState fun s => { s with column := s.column + 1 }

/-- The byte sent for position `i` of a group: `=` whenever `i > 3 - p`, else the alphabet byte of the
position's six bits (rule R72). -/
def groupSymbol (group : BitVec 24) (p : BitVec 2) (i : Nat) : Byte :=
  if i > 3 - p.toNat then padChar else alpha (groupSextet group i)

/-- Sending a full group and clearing it (rule R72). -/
def flushGroup (p : BitVec 2) : Proc Unit := do
  let s ← getState
  emitSymbol (groupSymbol s.bitBuffer p 0)
  emitSymbol (groupSymbol s.bitBuffer p 1)
  emitSymbol (groupSymbol s.bitBuffer p 2)
  emitSymbol (groupSymbol s.bitBuffer p 3)
  modifyState fun s => { s with bitBuffer := 0, byteCount := 0 }

/-- Buffering a raw byte, and sending the group if it is full (rule R72). -/
def bufferByte (v : Byte) (p : BitVec 2) : Proc Unit := do
  modifyState fun s =>
    { s with bitBuffer := pushByte s.bitBuffer v, byteCount := s.byteCount + 1 }
  let s ← getState
  onlyIf (s.byteCount = 3) (flushGroup p)

/-- `PutByte(v, p)` (rules R72, R77): `p` acts only in the call that completes a group. -/
def putByte (v : Byte) (p : BitVec 2) : Proc Unit := do
  let s ← getState
  onlyIf (encActive s) (bufferByte v p)

/-- `PutInt16(v, p)` (rule R74). -/
def putInt16 (v : BitVec 16) (p : BitVec 2) : Proc Unit := do
  putByte (lowHalf (w := 8) v) 0
  putByte (highHalf (w := 8) v) p

/-- `PutInt32(v, p)` (rule R75). -/
def putInt32 (v : BitVec 32) (p : BitVec 2) : Proc Unit := do
  putInt16 (lowHalf (w := 16) v) 0
  putInt16 (highHalf (w := 16) v) p

/-- `PutInt64(v, p)` (rule R76). -/
def putInt64 (v : BitVec 64) (p : BitVec 2) : Proc Unit := do
  putInt32 (lowHalf (w := 32) v) 0
  putInt32 (highHalf (w := 32) v) p

/-- Closing whichever text port the codec has attached, without flush or padding (rules R70, R90). -/
def closeSession : Proc Unit := do
  let s ← getState
  onlyIf (encActive s) (closeSink .txtOut)
  onlyIf (decActive s) (closeSource .txtIn)

/-- `bitBuffer <- 0; byteCount <- 0; column <- 0` (rules R70, R90). -/
def clearCodec : Proc Unit :=
  modifyState fun s => { s with bitBuffer := 0, byteCount := 0, column := 0 }

/-- `BeginEncode()` (rule R70): whether the open succeeded. -/
def beginEncode : Proc Bool := do
  closeSession
  clearCodec
  let granted ← openSink .txtOut
  modifyState fun s => { s with mode := if granted then .encoding else .idle }
  return granted

/-- Padding a partial group to a full one: `xx==` for one data byte, `xxx=` for two (rule R78). -/
def padGroup (count : BitVec 2) : Proc Unit :=
  if count = 1 then do
    putByte 0 0
    putByte 0 2
  else if count = 2 then putByte 0 1
  else pure ()

/-- `EndEncode()` (rule R78). -/
def endEncode : Proc Unit := do
  let s ← getState
  padGroup s.byteCount
  closeSink .txtOut
  modifyState fun s => { s with mode := .idle }

/-- What the four PUT commands share (rules R73 to R76): the check of `mode`, once, then the serialiser. -/
def putCommand (put : Proc Unit) : Proc Result := do
  let s ← getState
  if encActive s then do
    put
    return okResult
  else return raiseResult .notActive

/-- What BEGIN_ENCODE and BEGIN_DECODE answer (rules R70, R90). -/
def beginCommand (begin : Proc Bool) : Proc Result := do
  let granted ← begin
  return if granted then okResult else raiseResult .openFail

/-- BEGIN_ENCODE (rule R70). -/
def execBeginEncode (s : State) : Host.Outcome State Fault Refusal :=
  runCommand (beginCommand beginEncode) s

/-- PUT_BYTE (rule R73). -/
def execPutByte (v : Byte) (p : BitVec 2) (s : State) : Host.Outcome State Fault Refusal :=
  runCommand (putCommand (putByte v p)) s

/-- PUT_INT16 (rule R74). -/
def execPutInt16 (v : BitVec 16) (p : BitVec 2) (s : State) : Host.Outcome State Fault Refusal :=
  runCommand (putCommand (putInt16 v p)) s

/-- PUT_INT32 (rule R75). -/
def execPutInt32 (v : BitVec 32) (p : BitVec 2) (s : State) : Host.Outcome State Fault Refusal :=
  runCommand (putCommand (putInt32 v p)) s

/-- PUT_INT64 (rule R76). -/
def execPutInt64 (v : BitVec 64) (p : BitVec 2) (s : State) : Host.Outcome State Fault Refusal :=
  runCommand (putCommand (putInt64 v p)) s

/-- The body of END_ENCODE (rule R78). -/
def endEncodeCommand : Proc Result := do
  let s ← getState
  if encActive s then do
    endEncode
    return okResult
  else return raiseResult .notActive

/-- END_ENCODE (rule R78). -/
def execEndEncode (s : State) : Host.Outcome State Fault Refusal :=
  runCommand endEncodeCommand s

end Sys2Proof.Machine
end

