-- ==== Sys2Proof/Machine/Decoder.lean ====
section
/-! DEFINITION. The decoder: ReadSymbol, FillGroup, GetByte, the integer readers, BEGIN_DECODE, GET_BYTE,
GET_INT16, GET_INT32, GET_INT64, END_DECODE (rules R90 to R101). A procedure of the spec that returns a pair of a
status and a value gives an `Except Status` here. -/

namespace Sys2Proof.Machine

/-- `BeginDecode()` (rule R90): whether the open succeeded. -/
def beginDecode : Proc Bool := do
  closeSession
  clearCodec
  let granted ← openSource .txtIn
  modifyState fun s => { s with mode := if granted then .decoding else .idle }
  return granted

/-- The loop of `ReadSymbol()` (rule R93); the first argument bounds its turns (log 10). -/
def readSymbolLoop : Nat → Proc (Except Status Sextet)
  | 0 => return .error .srcExhausted
  | turns + 1 => do
    match ← memRead .txtIn with
    | none => return .error .srcExhausted
    | some b => do
      let s ← getState
      if s.params.skip.contains b then readSymbolLoop turns
      else
        match symbolValue b with
        | some v => return .ok v
        | none => return .error .badSymbol

/-- `ReadSymbol()` (rules R92, R93): every turn but the last takes a byte, so one turn more than there are
unread bytes is enough. -/
def readSymbol : Proc (Except Status Sextet) := do
  let s ← getState
  readSymbolLoop (s.txtIn.rest.length + 1)

/-- The loop of `FillGroup()` over the symbols still to read (rule R94). -/
def fillGroupLoop : Nat → BitVec 24 → Proc (Except Status (BitVec 24))
  | 0, g => return .ok g
  | k + 1, g => do
    match ← readSymbol with
    | .error st => return .error st
    | .ok v => fillGroupLoop k (pushSextet g v)

/-- `FillGroup()` (rules R94, R96): on a failure `bitBuffer` and `byteCount` stay as they are. -/
def fillGroup : Proc (Except Status Unit) := do
  match ← fillGroupLoop 4 0 with
  | .error st => return .error st
  | .ok g => do
    modifyState fun s => { s with bitBuffer := g, byteCount := 3 }
    return .ok ()

/-- Serving the next byte of the group (rules R14, R95). -/
def serveByte : Proc (Except Status Byte) := do
  let s ← getState
  modifyState fun s => { s with byteCount := s.byteCount - 1 }
  return .ok (servedByte s.bitBuffer s.byteCount)

/-- `GetByte()` (rule R95). -/
def getByte : Proc (Except Status Byte) := do
  let s ← getState
  if decActive s then
    if s.byteCount = 0 then do
      match ← fillGroup with
      | .error st => return .error st
      | .ok _ => serveByte
    else serveByte
  else return .error .notActive

/-- Reading an integer of twice the width, low half first; the first failing read ends it (rules R98 to
R100). -/
def getHalves {w : Nat} (half : Proc (Except Status (BitVec w))) :
    Proc (Except Status (BitVec (w + w))) := do
  match ← half with
  | .error st => return .error st
  | .ok lo => do
    match ← half with
    | .error st => return .error st
    | .ok hi => return .ok (hi ++ lo)

/-- `GetInt16()` (rule R98). -/
def getInt16 : Proc (Except Status (BitVec 16)) := getHalves getByte

/-- `GetInt32()` (rule R99). -/
def getInt32 : Proc (Except Status (BitVec 32)) := getHalves getInt16

/-- `GetInt64()` (rule R100). -/
def getInt64 : Proc (Except Status (BitVec 64)) := getHalves getInt32

/-- `EndDecode()` (rule R101). -/
def endDecode : Proc Unit := do
  closeSource .txtIn
  modifyState fun s => { s with mode := .idle }

/-- What the four GET commands share (rules R97 to R100): `R0` is the value zero-extended, or, where the read
failed, unspecified: a free value (log 8). -/
def getCommand {w : Nat} (get : Proc (Except Status (BitVec w))) : Proc Result := do
  match ← get with
  | .ok v => return { status := .ok, r0 := v.zeroExtend 64 }
  | .error st => do
    let x ← freeWord
    return { status := st, r0 := x }

/-- BEGIN_DECODE (rule R90). -/
def execBeginDecode (s : State) : Host.Outcome State Fault Refusal :=
  runCommand (beginCommand beginDecode) s

/-- GET_BYTE (rule R97). -/
def execGetByte (s : State) : Host.Outcome State Fault Refusal :=
  runCommand (getCommand getByte) s

/-- GET_INT16 (rule R98). -/
def execGetInt16 (s : State) : Host.Outcome State Fault Refusal :=
  runCommand (getCommand getInt16) s

/-- GET_INT32 (rule R99). -/
def execGetInt32 (s : State) : Host.Outcome State Fault Refusal :=
  runCommand (getCommand getInt32) s

/-- GET_INT64 (rule R100). -/
def execGetInt64 (s : State) : Host.Outcome State Fault Refusal :=
  runCommand (getCommand getInt64) s

/-- The body of END_DECODE (rule R101). -/
def endDecodeCommand : Proc Result := do
  let s ← getState
  if decActive s then do
    endDecode
    return okResult
  else return raiseResult .notActive

/-- END_DECODE (rule R101). -/
def execEndDecode (s : State) : Host.Outcome State Fault Refusal :=
  runCommand endDecodeCommand s

end Sys2Proof.Machine
end

