-- ==== Sys2Proof/Machine/Arithmetic.lean ====
section
/-! DEFINITION. The four number-theory units as pure functions on exact integers (rules R110 to R120).
Each loop of the spec is a recursion whose first argument bounds the number of turns; the bound given by
the function that starts the loop is never what ends it (log 10). -/

namespace Sys2Proof.Machine

/-- The loop of `IsPrime` from the odd divisor `i` on (rule R112). -/
def isPrimeLoop (n : Nat) : Nat → Nat → Bool
  | 0, _ => true
  | turns + 1, i =>
    if i * i ≤ n then
      if n % i = 0 then false else isPrimeLoop n turns (i + 2)
    else true

/-- `IsPrime(n)` (rule R112). -/
def isPrime (n : Nat) : Bool :=
  if n < 2 then false
  else if n = 2 then true
  else if n % 2 = 0 then false
  else isPrimeLoop n n 3

/-- Euclid's loop on non-negative integers (rule R113). -/
def gcdLoop : Nat → Nat → Nat → Nat
  | 0, a, _ => a
  | turns + 1, a, b => if b = 0 then a else gcdLoop turns b (a % b)

/-- `Gcd(a, b)` on the absolute values of two integers (rule R113). -/
def gcd (a b : Int) : Nat :=
  gcdLoop b.natAbs a.natAbs b.natAbs

/-- The loop of the extended Euclidean algorithm on `(t, t', r, r')`; it gives the last `t` and `r`
(rule R115). -/
def modInverseLoop : Nat → Int → Int → Nat → Nat → Int × Nat
  | 0, t, _, r, _ => (t, r)
  | turns + 1, t, t', r, r' =>
    if r' = 0 then (t, r)
    else modInverseLoop turns t' (t - ((r / r' : Nat) : Int) * t') r' (r - r / r' * r')

/-- `ModInverse(a, n)` (rule R115): `none` where the rule answers `NO_INVERSE`. -/
def modInverse (a n : Nat) : Option Nat :=
  let (t, r) := modInverseLoop a 0 1 n a
  if r ≠ 1 then none
  else
    let t := if t < 0 then t + n else t
    let t := if t ≥ n then t - n else t
    some t.toNat

/-- The loop of `ModExp` on `(result, base, exponent)` (rule R117). -/
def modExpLoop (modulus : Nat) : Nat → Nat → Nat → Nat → Nat
  | 0, result, _, _ => result
  | turns + 1, result, base, exponent =>
    if exponent > 0 then
      modExpLoop modulus turns
        (if exponent % 2 = 1 then result * base % modulus else result)
        (base * base % modulus)
        (exponent / 2)
    else result

/-- `ModExp(base, exponent, modulus)` (rule R117): `bitlength(exponent)` turns. -/
def modExp (base exponent modulus : Nat) : Nat :=
  modExpLoop modulus (Nat.log2 exponent + 1) 1 base exponent

end Sys2Proof.Machine
end

