-- ==== Sys2Proof/Machine/Keygen.lean ====
section
/-! DEFINITION. KEYGEN (rules R130 to R135), one draw after another; where the random port has no draw left
it waits in the phase it is in (rules R44, R135). -/

namespace Sys2Proof.Machine

/-- `n = p * q` (rule R130). -/
def keyModulus (p q : Nat) : Nat := p * q

/-- `f = (p - 1) * (q - 1)` (rule R130). -/
def keyTotient (p q : Nat) : Nat := (p - 1) * (q - 1)

/-- What KEYGEN answers once `e` is found (rules R130, R133). `Gcd(e, f) = 1`, so `ModInverse` has a value and
the default is never taken (rule R133). -/
def keyResult (p q e : Nat) : Result where
  status := .ok
  r0 := BitVec.ofNat 64 (keyModulus p q)
  r1 := BitVec.ofNat 64 e
  r2 := BitVec.ofNat 64 ((modInverse e (keyTotient p q)).getD 0)

/-- What a draw does to the search (rules R130, R132, R133): the next phase, or the key. -/
def keygenTurn : KeygenPhase → Nat → KeygenPhase ⊕ Result
  | .seekP, v => if isPrime v then .inl (.seekQ v) else .inl .seekP
  | .seekQ p, v => if isPrime v then .inl (.seekE p v) else .inl (.seekQ p)
  | .seekE p q, v =>
    if gcd v (keyTotient p q) = 1 then .inr (keyResult p q v) else .inl (.seekE p q)

/-- Waiting for a draw, in a phase (rules R44, R135): a unit of waiting, which reset may end. -/
def keygenWait (phase : KeygenPhase) : Proc Unit := do
  unit
  modifyState fun s => { s with keygen := some phase }

/-- The three searches of rule R130, from a phase on; the first argument bounds the draws (log 10). -/
def keygenLoop : Nat → KeygenPhase → Proc Unit
  | 0, phase => keygenWait phase
  | turns + 1, phase => do
    match ← draw with
    | none => keygenWait phase
    | some v =>
      match keygenTurn phase v with
      | .inl phase' => keygenLoop turns phase'
      | .inr r => do
        modifyState fun s => { s with keygen := none }
        respond r

/-- KEYGEN from a phase on, over the draws there are: to its response, or to waiting for more. -/
def keygenRun (phase : KeygenPhase) : Proc Unit := do
  let s ← getState
  keygenLoop s.rnd.length phase

/-- KEYGEN (rule R130). -/
def execKeygen (s : State) : Host.Outcome State Fault Refusal :=
  settle (accepted (keygenRun .seekP)) s

/-- A KEYGEN in progress going on (rules R130, R135). -/
def resumeKeygen (phase : KeygenPhase) (s : State) : Host.Outcome State Fault Refusal :=
  settle (keygenRun phase) s

end Sys2Proof.Machine
end

