-- ==== Sys2Proof/Machine/NumberTheory.lean ====
section
/-! DEFINITION. IS_PRIME, GCD, MOD_INVERSE, MOD_EXP (rules R110 to R119): they touch no register and no
port. -/

namespace Sys2Proof.Machine

/-- A result that is an exact integer, as an unsigned 64-bit field (rule R110). -/
def numberResult (v : Nat) : Result := { status := .ok, r0 := BitVec.ofNat 64 v }

/-- IS_PRIME (rule R111). -/
def execIsPrime (n : Word) (s : State) : Host.Outcome State Fault Refusal :=
  runCommand (pure (numberResult (isPrime n.toNat).toNat)) s

/-- GCD (rule R113): both operands signed. -/
def execGcd (a b : Word) (s : State) : Host.Outcome State Fault Refusal :=
  runCommand (pure (numberResult (gcd a.toInt b.toInt))) s

/-- What MOD_INVERSE answers (rule R114): `ZERO_MODULUS` before `NO_INVERSE` (rule R170). -/
def modInverseResult (a n : Nat) : Result :=
  if n = 0 then raiseResult .zeroModulus
  else if gcd a n ≠ 1 then raiseResult .noInverse
  else
    match modInverse a n with
    | some t => numberResult t
    | none => raiseResult .noInverse

/-- MOD_INVERSE (rule R114). -/
def execModInverse (a n : Word) (s : State) : Host.Outcome State Fault Refusal :=
  runCommand (pure (modInverseResult a.toNat n.toNat)) s

/-- What MOD_EXP answers (rule R116). -/
def modExpResult (base exponent modulus : Nat) : Result :=
  if modulus = 0 then raiseResult .zeroModulus
  else numberResult (modExp base exponent modulus)

/-- MOD_EXP (rule R116). -/
def execModExp (base exponent modulus : Word) (s : State) : Host.Outcome State Fault Refusal :=
  runCommand (pure (modExpResult base.toNat exponent.toNat modulus.toNat)) s

end Sys2Proof.Machine
end

