-- ==== Sys2Proof/Machine/Pipeline.lean ====
section
/-! DEFINITION. The RSA block-cipher pipeline: ENCRYPT and DECRYPT (rules R140 to R151). The byte index `i`, the
length `L` and the counts are exact naturals, local to one command (rules R11, R200). -/

namespace Sys2Proof.Machine

/-- `n = 0 or n > 2^32` (rule R145). -/
def modulusRefused (n : Nat) : Bool := n = 0 ∨ n > maxModulus

/-- `if present then MemRead(PT_IN, 1) else 0` (rule R141). A byte is present only below the length the port had
at its attach, so the read is never `EOF` and its default is never taken. -/
def readPlain (present : Bool) : Proc Byte :=
  if present then do
    let b ← memRead .ptIn
    return b.getD 0
  else return 0

/-- Reading the block at byte index `i` of a plaintext of length `len` (rules R141, R142). -/
def readBlock (len i : Nat) : Proc Nat := do
  let b0 ← readPlain true
  let b1 ← readPlain (i + 1 < len)
  let b2 ← readPlain (i + 2 < len)
  return blockValue b0 b1 b2

/-- `STRICT_BLOCK_CHECK and plain >= n` (rule R143). -/
def blockRefused (s : State) (n plain : Nat) : Bool := s.params.strictBlockCheck && plain ≥ n

/-- The block loop of ENCRYPT from byte index `i` on (rules R141, R143): how it ended, and the number of blocks
written. The first argument bounds the turns (log 10). -/
def encryptLoop (n e len : Nat) : Nat → Nat → Nat → Proc (Status × Nat)
  | 0, _, blocks => return (.ok, blocks)
  | turns + 1, i, blocks =>
    if i < len then do
      let plain ← readBlock len i
      let s ← getState
      if blockRefused s n plain then return (.blockRange, blocks)
      else do
        putInt32 (BitVec.ofNat 32 (modExp plain e n)) 0
        encryptLoop n e len turns (i + 3) (blocks + 1)
    else return (.ok, blocks)

/-- The end of ENCRYPT, also where a block was refused (rules R141, R143). -/
def encryptFinish (st : Status) (blocks len : Nat) : Proc Result := do
  endEncode
  closeSource .ptIn
  return { status := st, r0 := BitVec.ofNat 64 blocks, r1 := BitVec.ofNat 64 len }

/-- ENCRYPT once both ports are open (rule R141, steps 2 to 4). -/
def encryptStream (n e len : Nat) : Proc Result := do
  putInt32 (BitVec.ofNat 32 len) 0
  let ended ← encryptLoop n e len len 0 0
  encryptFinish ended.1 ended.2 len

/-- Giving up on ENCRYPT with `PT_IN` open (rule R141). -/
def encryptGiveUp (st : Status) : Proc Result := do
  closeSource .ptIn
  return raiseResult st

/-- ENCRYPT from `BeginEncode()` on (rule R141). -/
def encryptBegin (n e len : Nat) : Proc Result := do
  let granted ← beginEncode
  if granted then encryptStream n e len else encryptGiveUp .openFail

/-- ENCRYPT once `PT_IN` is open (rule R141, step 1). -/
def encryptOpened (n e : Nat) : Proc Result := do
  let s ← getState
  if s.ptIn.rest.length ≥ lengthLimit then encryptGiveUp .lengthRange
  else encryptBegin n e s.ptIn.rest.length

/-- ENCRYPT with a modulus in range (rules R141, R170). -/
def encryptOpen (n e : Nat) : Proc Result := do
  let granted ← openSource .ptIn
  if granted then encryptOpened n e else return raiseResult .openFail

/-- The body of ENCRYPT (rules R141, R145, R170). -/
def encryptBody (n e : Nat) : Proc Result :=
  if modulusRefused n then return raiseResult .operandRange
  else encryptOpen n e

/-- ENCRYPT (rule R141). -/
def execEncrypt (n e : Word) (s : State) : Host.Outcome State Fault Refusal :=
  runCommand (encryptBody n.toNat e.toNat) s

/-- `if present then MemWrite(PT_OUT, 1, v); count <- count + 1` (rule R146): the new count. -/
def writePlain (present : Bool) (v : Byte) (count : Nat) : Proc Nat :=
  if present then do
    memWrite .ptOut v
    return count + 1
  else return count

/-- Writing the bytes of the block at byte index `i` of a plaintext of length `len` (rules R146, R147): the new
count. -/
def writeBlock (len i plain count : Nat) : Proc Nat := do
  let count ← writePlain true (natByte plain 0) count
  let count ← writePlain (i + 1 < len) (natByte plain 1) count
  writePlain (i + 2 < len) (natByte plain 2) count

/-- The block loop of DECRYPT from byte index `i` on (rules R146, R147, R148): the status it ended with, and the
number of plaintext bytes written. The first argument bounds the turns (log 10). -/
def decryptLoop (n d len : Nat) : Nat → Nat → Nat → Proc (Status × Nat)
  | 0, _, count => return (.ok, count)
  | turns + 1, i, count =>
    if i < len then do
      match ← getInt32 with
      | .error st => return (st, count)
      | .ok cipher => do
        let count ← writeBlock len i (modExp cipher.toNat d n) count
        decryptLoop n d len turns (i + 3) count
    else return (.ok, count)

/-- The end of DECRYPT, and its `Abort(st)` (rules R146, R148). -/
def decryptFinish (st : Status) (count len : Nat) : Proc Result := do
  endDecode
  closeSink .ptOut
  return { status := st, r0 := BitVec.ofNat 64 count, r1 := BitVec.ofNat 64 len }

/-- DECRYPT once the header says `len` (rule R146, steps 2 and 3). -/
def decryptBlocks (n d len : Nat) : Proc Result := do
  let ended ← decryptLoop n d len len 0 0
  decryptFinish ended.1 ended.2 len

/-- DECRYPT once both ports are open (rule R146, steps 1 to 3). -/
def decryptStream (n d : Nat) : Proc Result := do
  match ← getInt32 with
  | .error st => decryptFinish st 0 0
  | .ok header => decryptBlocks n d header.toNat

/-- Giving up on DECRYPT with `TXT_IN` open (rule R146). -/
def decryptGiveUp : Proc Result := do
  endDecode
  return raiseResult .openFail

/-- DECRYPT once `TXT_IN` is open (rule R146). -/
def decryptOpened (n d : Nat) : Proc Result := do
  let granted ← openSink .ptOut
  if granted then decryptStream n d else decryptGiveUp

/-- DECRYPT with a modulus in range (rules R146, R170). -/
def decryptOpen (n d : Nat) : Proc Result := do
  let granted ← beginDecode
  if granted then decryptOpened n d else return raiseResult .openFail

/-- The body of DECRYPT (rules R145, R146, R170). -/
def decryptBody (n d : Nat) : Proc Result :=
  if modulusRefused n then return raiseResult .operandRange
  else decryptOpen n d

/-- DECRYPT (rule R146). -/
def execDecrypt (n d : Word) (s : State) : Host.Outcome State Fault Refusal :=
  runCommand (decryptBody n.toNat d.toNat) s

end Sys2Proof.Machine
end

