-- ==== Sys2Proof/Machine/System.lean ====
section
/-! DEFINITION. STATUS (rule R160). -/

namespace Sys2Proof.Machine

/-- What STATUS answers (rule R160): `R0` = `ACTIVE` and `mode`. -/
def statusResult (s : State) : Result := { status := .ok, r0 := statusWord s }

/-- STATUS (rule R160): nothing changes. -/
def execStatus (s : State) : Host.Outcome State Fault Refusal :=
  runCommand (pure (statusResult s)) s

end Sys2Proof.Machine
end

