-- ==== Sys2Proof/Machine/Dispatch.lean ====
section
/-! DEFINITION. The meaning of each command (rule R52). -/

namespace Sys2Proof.Machine

def exec (i : Instr) (s : State) : Host.Outcome State Fault Refusal :=
  match i with
  | .status => Sys2Proof.Machine.execStatus s
  | .beginEncode => Sys2Proof.Machine.execBeginEncode s
  | .beginDecode => Sys2Proof.Machine.execBeginDecode s
  | .endEncode => Sys2Proof.Machine.execEndEncode s
  | .endDecode => Sys2Proof.Machine.execEndDecode s
  | .putByte value pad => Sys2Proof.Machine.execPutByte value pad s
  | .putInt16 value pad => Sys2Proof.Machine.execPutInt16 value pad s
  | .putInt32 value pad => Sys2Proof.Machine.execPutInt32 value pad s
  | .putInt64 value pad => Sys2Proof.Machine.execPutInt64 value pad s
  | .getByte => Sys2Proof.Machine.execGetByte s
  | .getInt16 => Sys2Proof.Machine.execGetInt16 s
  | .getInt32 => Sys2Proof.Machine.execGetInt32 s
  | .getInt64 => Sys2Proof.Machine.execGetInt64 s
  | .isPrime n => Sys2Proof.Machine.execIsPrime n s
  | .gcd a b => Sys2Proof.Machine.execGcd a b s
  | .modInverse a n => Sys2Proof.Machine.execModInverse a n s
  | .modExp base exponent modulus => Sys2Proof.Machine.execModExp base exponent modulus s
  | .keygen => Sys2Proof.Machine.execKeygen s
  | .encrypt n e => Sys2Proof.Machine.execEncrypt n e s
  | .decrypt n d => Sys2Proof.Machine.execDecrypt n d s

end Sys2Proof.Machine
end

