-- ==== Sys2Proof/Machine/Control.lean ====
section
/-! DEFINITION. What the block does next: reset when it is due, else the command in progress, else the next
packet, else waiting (rules R40, R56, R190). -/

namespace Sys2Proof.Machine

/-- A packet the block has accepted: the command it decodes to, or the answer to an illegal one (rules R54, R56). -/
def accept (w : Packet) (s : State) : Host.Outcome State Fault Refusal :=
  match decode w with
  | .ok i => exec i s
  | .error _ => runIllegal s

/-- The next thing the block does when no reset is due (rule R40): a command in progress goes on, else the next
packet is accepted, else the block waits. -/
def proceed (s : State) : Host.Outcome State Fault Refusal :=
  match s.keygen with
  | some phase => resumeKeygen phase s
  | none =>
    match s.cmdIn with
    | w :: later => accept w { s with cmdIn := later }
    | [] => idleStep s

/-- One step of the block: reset when it is due (rule R190), else whatever comes next. -/
def advance (s : State) : Host.Outcome State Fault Refusal :=
  if resetDue s then .next (resetBlock s) else proceed s

end Sys2Proof.Machine
end

