-- ==== Sys2Proof/Machine/Step.lean ====
section
/-! DEFINITION. The step of the machine, and how the next packet is put before it. -/

namespace Sys2Proof.Machine

/-- One step (rules R40, R190). -/
def step (s : State) : Host.Outcome State Fault Refusal := advance s

/-- The state with a packet issued that the very next step accepts: no reset is due and no command is in
progress (log 2). -/
def State.withFetchWord (s : State) (nbits w : Nat) : State :=
  { s with cmdIn := tablePacket nbits w :: s.cmdIn, keygen := none, resetIn := [] }

end Sys2Proof.Machine
end

