-- ==== Sys2Proof/WellFormed.lean ====
section
/-! DEFINITION. What is well-formed: the machine's parameters (rules R6, R93, R131) and a command. -/

namespace Sys2Proof

/-- `NEWLINE` is no alphabet byte and not `=` (rule R59). -/
def Params.newlineOk (p : Params) : Bool :=
  Machine.symbolValue p.newline = none

/-- `SKIP` contains `NEWLINE`, no alphabet byte and not `=` (rule R93). -/
def Params.skipOk (p : Params) : Bool :=
  p.skip.contains p.newline && p.skip.all fun b => Machine.symbolValue b = none

/-- `2 <= KEY_LO <= KEY_HI` and `KEY_HI^2 <= 2^32` (rule R131). -/
def Params.keyRangeOk (p : Params) : Bool :=
  2 ≤ p.keyLo && p.keyLo ≤ p.keyHi && p.keyHi ^ 2 ≤ 2 ^ 32

/-- At least one prime lies in `KEY_LO .. KEY_HI` (rule R131). -/
def Params.keyPrimeOk (p : Params) : Bool :=
  (List.range' p.keyLo (p.keyHi + 1 - p.keyLo)).any Machine.isPrime

/-- The constraints the spec puts on the parameters (92_eei_decisions.md, last table). -/
def Params.wellFormed (p : Params) : Bool :=
  p.newlineOk && p.skipOk && p.keyRangeOk && p.keyPrimeOk

/-- Every command is well-formed: each field of `Instr` has exactly the width its packet field has
(rules R50, R51, R53), so a padding count of 4 or more, say, cannot be written at all. One arm per
constructor, so that a new one must be thought about here. -/
def Instr.wellFormed : Instr → Bool
  | .status => true
  | .beginEncode => true
  | .beginDecode => true
  | .endEncode => true
  | .endDecode => true
  | .putByte _ _ => true
  | .putInt16 _ _ => true
  | .putInt32 _ _ => true
  | .putInt64 _ _ => true
  | .getByte => true
  | .getInt16 => true
  | .getInt32 => true
  | .getInt64 => true
  | .isPrime _ => true
  | .gcd _ _ => true
  | .modInverse _ _ => true
  | .modExp _ _ _ => true
  | .keygen => true
  | .encrypt _ _ => true
  | .decrypt _ _ => true

end Sys2Proof
end

