-- ==== Sys2Proof/Safety.lean ====
section
/-! DEFINITION. What a safe state of the block is (`State.Inv`), and the terms the statements speak in: the
text of a byte string (rule R79), the bytes a text holds (rules R93 to R97), the layout of an encrypted stream
(rule R140), runs of several commands. They are written from the rules' descriptions of whole streams, not from the
machine's procedures. -/

namespace Sys2Proof.Machine

/-- One event of a sink's history: an open, then bytes, then a close, then perhaps another open (rules R32, R34).
The Boolean is whether the sink is attached; `none` is a history that cannot be. -/
def historyStep : Option Bool → SinkEvent → Option Bool
  | some false, .opened => some true
  | some true, .byte _ => some true
  | some true, .closed => some false
  | _, _ => none

/-- Whether an event list is a sequence of streams, and whether its last stream is still open. -/
def history (events : List SinkEvent) : Option Bool := events.foldl historyStep (some false)

/-- What is known of the KEYGEN in progress: its primes are primes in the key range (rules R43, R132). -/
def phaseOk (p : Params) : Option KeygenPhase → Prop
  | none => True
  | some .seekP => True
  | some (.seekQ a) => isPrime a = true ∧ p.keyLo ≤ a ∧ a ≤ p.keyHi
  | some (.seekE a b) =>
    (isPrime a = true ∧ p.keyLo ≤ a ∧ a ≤ p.keyHi) ∧ (isPrime b = true ∧ p.keyLo ≤ b ∧ b ≤ p.keyHi)

/-- The invariant of the block between two steps. -/
structure State.Inv (s : State) : Prop where
  /-- `TXT_OUT` is attached if and only if `mode = Encoding` (rule R19). -/
  txtOutAttached : s.txtOut.attached = true ↔ s.mode = .encoding
  /-- `TXT_IN` is attached if and only if `mode = Decoding` (rule R19). -/
  txtInAttached : s.txtIn.attached = true ↔ s.mode = .decoding
  /-- `PT_IN` is attached only while ENCRYPT runs (rule R19). -/
  ptInDetached : s.ptIn.attached = false
  /-- `PT_OUT` is attached only while DECRYPT runs (rule R19). -/
  ptOutDetached : s.ptOut.attached = false
  /-- The history of `TXT_OUT` is a sequence of streams, the last one open if it is attached (rules R32, R34). -/
  txtOutHistory : history s.txtOut.events = some s.txtOut.attached
  /-- The same of `PT_OUT`. -/
  ptOutHistory : history s.ptOut.events = some s.ptOut.attached
  /-- A source that is not attached holds nothing (rules R31, R34). -/
  txtInRest : s.txtIn.attached = false → s.txtIn.rest = []
  /-- The same of `PT_IN`. -/
  ptInRest : s.ptIn.rest = []
  /-- Between commands `byteCount` is 0, 1 or 2 (rules R13, R14). -/
  steadyCount : s.byteCount ≠ 3
  /-- In `Encoding` mode `bitBuffer < 256^byteCount` (rule R13). -/
  pendingFits : s.mode = .encoding → s.bitBuffer.toNat < 256 ^ s.byteCount.toNat
  /-- Between commands a line holds a whole number of groups (from rules R71, R72, R70, R90). -/
  lineGroups : s.column.toNat % 4 = 0
  /-- BEGIN_DECODE clears `column` and the decoder never touches it afterwards (rule R15). -/
  decodeColumn : s.mode = .decoding → s.column = 0
  /-- Every draw lies in `KEY_LO .. KEY_HI` (rules R43, R131). -/
  drawsInRange : ∀ v ∈ s.rnd, s.params.keyLo ≤ v ∧ v ≤ s.params.keyHi
  /-- The primes of a KEYGEN in progress (rule R132). -/
  keygenPhase : phaseOk s.params s.keygen

/-- A sink's byte events. -/
def byteEvents (bytes : List Byte) : List SinkEvent := bytes.map .byte

/-- The four symbols of a group, the first symbol the most significant (rules R36, R72). -/
def groupFields (g : BitVec 24) : List Byte :=
  [alpha (g.extractLsb' 18 6), alpha (g.extractLsb' 12 6), alpha (g.extractLsb' 6 6),
    alpha (g.extractLsb' 0 6)]

/-- The symbols of a group whose last `p` are replaced by `=` (rule R72). -/
def paddedGroup (g : BitVec 24) (p : Nat) : List Byte :=
  (groupFields g).take (4 - p) ++ List.replicate p padChar

/-- The four symbols of a group of three raw bytes, the first byte the most significant (rules R36, R79). -/
def groupText (b0 b1 b2 : Byte) : List Byte := groupFields (b0 ++ b1 ++ b2)

/-- The symbols of a byte string: groups of four, absent bytes taken as 0 and marked by `=` (rule R79). -/
def radixSymbols : List Byte → List Byte
  | [] => []
  | [a] => (groupText a 0 0).take 2 ++ [padChar, padChar]
  | [a, b] => (groupText a b 0).take 3 ++ [padChar]
  | a :: b :: c :: more => groupText a b c ++ radixSymbols more

/-- Symbols broken into lines: the line break follows the symbol at column 63 (rules R71, R79). -/
def wrapLines (newline : Byte) : Nat → List Byte → List Byte
  | _, [] => []
  | column, x :: more =>
    if column = 63 then x :: newline :: wrapLines newline 0 more
    else x :: wrapLines newline (column + 1) more

/-- The text of a byte string (rule R79). -/
def radixText (newline : Byte) (bytes : List Byte) : List Byte :=
  wrapLines newline 0 (radixSymbols bytes)

/-- The raw bytes a text holds, from the symbols already read of its current group on; with the status of the read
that goes beyond them, and the bytes that read leaves unread (rules R91 to R96). -/
def textScan (skip : List Byte) : List Sextet → List Byte → List Byte × Status × List Byte
  | _, [] => ([], .srcExhausted, [])
  | pre, b :: more =>
    if skip.contains b then textScan skip pre more
    else
      match symbolValue b with
      | none => ([], .badSymbol, more)
      | some v =>
        match pre with
        | [v0, v1, v2] =>
          let g : BitVec 24 := v0 ++ v1 ++ v2 ++ v
          let (bytes, st, left) := textScan skip [] more
          (g.extractLsb' 16 8 :: g.extractLsb' 8 8 :: g.extractLsb' 0 8 :: bytes, st, left)
        | pre => textScan skip (pre ++ [v]) more

/-- The raw bytes a text holds. -/
def textBytes (skip : List Byte) (text : List Byte) : List Byte := (textScan skip [] text).1

/-- The status of the read that goes beyond the bytes a text holds: `SRC_EXHAUSTED` or `BAD_SYMBOL`. -/
def textEnd (skip : List Byte) (text : List Byte) : Status := (textScan skip [] text).2.1

/-- The bytes of the current group not yet served (rule R14). -/
def unserved (group : BitVec 24) (count : Nat) : List Byte :=
  [group.extractLsb' 16 8, group.extractLsb' 8 8, group.extractLsb' 0 8].drop (3 - count)

/-- The raw-byte stream a decode session still has to give (rules R14, R21, R162). -/
def upcoming (s : State) : List Byte :=
  unserved s.bitBuffer s.byteCount.toNat ++ textBytes s.params.skip s.txtIn.rest

/-- The group `bitBuffer` holds once the groups of these bytes have been filled in, one after another: the last of them, and
`buffer` itself where there is none (rules R94, R96). -/
def lastGroup (buffer : BitVec 24) : List Byte → BitVec 24
  | a :: b :: c :: more => lastGroup (a ++ b ++ c) more
  | _ => buffer

/-- How many groups are filled to take `n` bytes where `count` are unserved (rules R94, R95). -/
def groupsFilled (count n : Nat) : Nat := (n - count + 2) / 3

/-- A text begins with exactly the bytes a decoder takes to read `k` symbols: `k` bytes that are not skipped, the last of
the bytes taken among them (rule R93). -/
def HoldsSymbols (skip taken : List Byte) (k : Nat) : Prop :=
  taken.countP (fun b => !skip.contains b) = k ∧ ∀ b, taken.getLast? = some b → b ∉ skip

/-- The value of bytes in little-endian order (rule R35). -/
def littleEndian : List Byte → Nat
  | [] => 0
  | b :: more => b.toNat + 256 * littleEndian more

/-- The four raw bytes of a 32-bit integer, least significant first (rules R35, R75). -/
def le32 (v : Nat) : List Byte := [natByte v 0, natByte v 1, natByte v 2, natByte v 3]

/-- The block values of a plaintext (rule R142). -/
def blockValues : List Byte → List Nat
  | [] => []
  | [a] => [blockValue a 0 0]
  | [a, b] => [blockValue a b 0]
  | a :: b :: c :: more => blockValue a b c :: blockValues more

/-- The raw stream of a header and cipher blocks (rule R140). -/
def cipherStream (len : Nat) (blocks : List Nat) : List Byte := le32 len ++ blocks.flatMap le32

/-- The three bytes of a decrypted value (rule R147). -/
def plainBytes (v : Nat) : List Byte := [natByte v 0, natByte v 1, natByte v 2]

/-- The number of blocks of a plaintext of a given length, `ceil(L / 3)` (rule R140). -/
def blockCount (len : Nat) : Nat := (len + 2) / 3

/-- Whether the environment's next answer is to grant a sink's open (rule R31). -/
def grants (k : Sink) : Bool := nextAnswer k.opens

/-- The bytes the environment's next answer puts behind a source, if it grants the open (rule R31). -/
def resource (k : Source) : Option (List Byte) := nextAnswer k.opens

/-- The state in which the text port of the session, if there is one, has been closed (rules R70, R90, R193). -/
def sessionClosed (s : State) : State :=
  { s with
    txtOut := if s.mode = .encoding then sinkDetached s.txtOut else s.txtOut
    txtIn := if s.mode = .decoding then sourceDetached s.txtIn else s.txtIn }

/-- The closed form of `ModExp` (rules R116, R117). -/
def powMod (base exponent modulus : Nat) : Nat :=
  if exponent = 0 then 1 else base ^ exponent % modulus

/-- A draw sequence holds a key: a first prime, the first prime after it, the first later value coprime to
`(p - 1) * (q - 1)`; with the draws rejected before each, and the draws left (rules R130, R135). -/
structure KeyDraws (draws rejectedP : List Nat) (p : Nat) (rejectedQ : List Nat) (q : Nat)
    (rejectedE : List Nat) (e : Nat) (left : List Nat) : Prop where
  draws_eq : draws = rejectedP ++ p :: (rejectedQ ++ q :: (rejectedE ++ e :: left))
  notP : ∀ v ∈ rejectedP, ¬ v.Prime
  primeP : p.Prime
  notQ : ∀ v ∈ rejectedQ, ¬ v.Prime
  primeQ : q.Prime
  notE : ∀ v ∈ rejectedE, Nat.gcd v ((p - 1) * (q - 1)) ≠ 1
  coprimeE : Nat.gcd e ((p - 1) * (q - 1)) = 1

/-- Some of the environment's listed answers have been given, in order, and nothing else has happened to them. -/
structure Answers.Left {α : Type} (before after : Answers α) : Prop where
  later : after.later = before.later
  listed : after.listed <:+ before.listed

/-- What the work on one command never undoes, from a state to a later one: the parameters stay, packets are left alone,
the event lists of the sinks grow at their end, draws and the environment's answers are taken from the front, free values
are used up in order (rules R31, R32, R43, R192). -/
structure State.Grows (s t : State) : Prop where
  params : t.params = s.params
  txtOut : s.txtOut.events <+: t.txtOut.events
  ptOut : s.ptOut.events <+: t.ptOut.events
  rnd : t.rnd <:+ s.rnd
  cmdIn : t.cmdIn = s.cmdIn
  txtOutOpens : s.txtOut.opens.Left t.txtOut.opens
  txtInOpens : s.txtIn.opens.Left t.txtIn.opens
  ptInOpens : s.ptIn.opens.Left t.ptIn.opens
  ptOutOpens : s.ptOut.opens.Left t.ptOut.opens
  freeCount : s.freeCount ≤ t.freeCount

/-- The state after several commands, if each is answered by a next state. -/
def runCommands : List Instr → State → Option State
  | [], s => some s
  | i :: more, s =>
    match exec i s with
    | .next t => runCommands more t
    | .fault _ => none
    | .refused _ => none

/-- The raw bytes a PUT with padding count 0 puts (rules R73 to R76); nothing for any other command. -/
def putBytesOf : Instr → Option (List Byte)
  | .putByte v 0 => some [v]
  | .putInt16 v 0 => some [natByte v.toNat 0, natByte v.toNat 1]
  | .putInt32 v 0 => some (le32 v.toNat)
  | .putInt64 v 0 => some (le32 v.toNat ++ le32 (v.toNat / 2 ^ 32))
  | _ => none

/-- The number of raw bytes a GET takes (rules R97 to R100); nothing for any other command. -/
def getWidthOf : Instr → Option Nat
  | .getByte => some 1
  | .getInt16 => some 2
  | .getInt32 => some 4
  | .getInt64 => some 8
  | _ => none

/-- The responses to GETs that take their bytes from a byte string, in order (rules R97 to R100). -/
def getResponses : List Instr → List Byte → List Response
  | [], _ => []
  | i :: more, bytes =>
    let n := (getWidthOf i).getD 0
    responseWord .decoding { status := .ok, r0 := BitVec.ofNat 64 (littleEndian (bytes.take n)) } ::
      getResponses more (bytes.drop n)

/-- The match value of each command's row (rule R52). -/
def headerMatch : Instr → BitVec 16
  | .status => 0x0000
  | .beginEncode => 0x0001
  | .beginDecode => 0x0002
  | .endEncode => 0x0003
  | .endDecode => 0x0004
  | .putByte _ _ => 0x0008
  | .putInt16 _ _ => 0x0009
  | .putInt32 _ _ => 0x000A
  | .putInt64 _ _ => 0x000B
  | .getByte => 0x000C
  | .getInt16 => 0x000D
  | .getInt32 => 0x000E
  | .getInt64 => 0x000F
  | .isPrime _ => 0x0010
  | .gcd _ _ => 0x0011
  | .modInverse _ _ => 0x0012
  | .modExp _ _ _ => 0x0013
  | .keygen => 0x0018
  | .encrypt _ _ => 0x0019
  | .decrypt _ _ => 0x001A

/-- The rows of the opcode map, match and mask (rule R52). -/
def opcodeRows : List (BitVec 16 × BitVec 16) :=
  [(0x0000, 0xFFFF), (0x0001, 0xFFFF), (0x0002, 0xFFFF), (0x0003, 0xFFFF), (0x0004, 0xFFFF),
    (0x0008, 0xFCFF), (0x0009, 0xFCFF), (0x000A, 0xFCFF), (0x000B, 0xFCFF), (0x000C, 0xFFFF),
    (0x000D, 0xFFFF), (0x000E, 0xFFFF), (0x000F, 0xFFFF), (0x0010, 0xFFFF), (0x0011, 0xFFFF),
    (0x0012, 0xFFFF), (0x0013, 0xFFFF), (0x0018, 0xFFFF), (0x0019, 0xFFFF), (0x001A, 0xFFFF)]

/-- The header of a packet, `CMD[15:0]` (rule R50). -/
def packetHeader (w : Packet) : BitVec 16 := w.extractLsb' 0 16

/-- The bits of its packet that a command reads: the header, and the operand bits of rule R51. -/
def packetReads : Instr → Packet
  | .status | .beginEncode | .beginDecode | .endEncode | .endDecode => 0xFFFF
  | .getByte | .getInt16 | .getInt32 | .getInt64 | .keygen => 0xFFFF
  | .putByte _ _ => BitVec.ofNat 208 (2 ^ 24 - 1)
  | .putInt16 _ _ => BitVec.ofNat 208 (2 ^ 32 - 1)
  | .putInt32 _ _ => BitVec.ofNat 208 (2 ^ 48 - 1)
  | .putInt64 _ _ | .isPrime _ => BitVec.ofNat 208 (2 ^ 80 - 1)
  | .gcd _ _ | .modInverse _ _ | .encrypt _ _ | .decrypt _ _ => BitVec.ofNat 208 (2 ^ 144 - 1)
  | .modExp _ _ _ => BitVec.ofNat 208 (2 ^ 208 - 1)

end Sys2Proof.Machine
end

