-- ==== Sys2Proof/Certificates/Slice0/Obligations.lean ====
section
/-! DEFINITION. The statements for the provers. A hypothesis `s.resetIn = []` says that no reset is coming while the
command runs; `ResetCutsOrDelays` says that a reset that does come changes nothing before it comes. -/

open Sys2Proof Sys2Proof.Machine

/-! ### Packets and responses -/

/-- Decoding the packet of a command gives the command back, whatever its operands (rules R50, R60, R62). -/
def Obligations.DecodeOfEncode : Prop :=
  ∀ i : Instr, i.wellFormed = true → decode (encode i) = .ok i

/-- A packet is a command if and only if its header, under the mask of some row of the opcode map, is the row's match
value; and then it is the command of that row (rule R52). -/
def Obligations.HeaderSelectsCommand : Prop :=
  (∀ w : Packet, (∃ i, decode w = .ok i) ↔ ∃ row ∈ opcodeRows, packetHeader w &&& row.2 = row.1) ∧
  ∀ (w : Packet) (i : Instr), decode w = .ok i →
    ∃ mask, (headerMatch i, mask) ∈ opcodeRows ∧ packetHeader w &&& mask = headerMatch i

/-- A packet that agrees with another on the header and on the operand bits its command uses is the same command: every
other bit is ignored (rule R51). -/
def Obligations.UnusedOperandBitsIgnored : Prop :=
  ∀ (w v : Packet) (i : Instr), decode w = .ok i → v &&& packetReads i = w &&& packetReads i →
    decode v = .ok i

/-- Words written out from the encodings of rules R50 and R52 decode to the commands they stand for (the full-width
examples of 95_test_vectors.md among them). -/
def Obligations.WrittenWordsDecode : Prop :=
  decode 0x0 = .ok .status ∧
  decode 0x1 = .ok .beginEncode ∧
  decode 0x4 = .ok .endDecode ∧
  decode 0x0000000000000000000000000000000000000000000000410008 = .ok (.putByte 0x41 0) ∧
  decode 0x0000000000000000000000000000000000000000000000000208 = .ok (.putByte 0 2) ∧
  decode 0xC = .ok .getByte ∧
  decode 0x00000000000000000000000000000012FFFFFFFFFFFFFFF40011 = .ok (.gcd (-12) 18) ∧
  decode 0x0000000000000CA1000000000000001100000000004342410013 = .ok (.modExp 4407873 17 3233) ∧
  decode 0x18 = .ok .keygen ∧
  decode 0x00000000000000000000000000001001000000000101202D0019 = .ok (.encrypt 16850989 4097)

/-- The illegal packets are those the rule lists, and one is answered `ILLEGAL_CMD` with the unchanged mode and zero
results, and changes nothing else (rule R56). -/
def Obligations.IllegalPacketHasNoEffect : Prop :=
  (∀ w : Packet, (∀ row ∈ opcodeRows, packetHeader w &&& row.2 ≠ row.1) ↔
    (packetRsv w ≠ 0 ∨
      (packetPad w ≠ 0 ∧ ¬ (0x08 ≤ (packetOpc w).toNat ∧ (packetOpc w).toNat ≤ 0x0B)) ∨
      (0x05 ≤ (packetOpc w).toNat ∧ (packetOpc w).toNat ≤ 0x07) ∨
      (0x14 ≤ (packetOpc w).toNat ∧ (packetOpc w).toNat ≤ 0x17) ∨
      0x1B ≤ (packetOpc w).toNat)) ∧
  ∀ (s : State) (w : Packet) (later : List Packet), s.resetIn = [] → s.keygen = none →
    s.cmdIn = w :: later → (∀ row ∈ opcodeRows, packetHeader w &&& row.2 ≠ row.1) →
    step s = .next
      { s with
        cmdIn := later
        rspOut := s.rspOut ++ [responseWord s.mode { status := .illegalCmd, r0 := 0, r1 := 0, r2 := 0 }] }

/-- The fields of a response stand where the format says, and its bits 7:6 are zero (rule R54). -/
def Obligations.ResponseFormat : Prop :=
  ∀ (m : Mode) (r : Result),
    responseStatus (responseWord m r) = statusCode r.status ∧
    responseMode (responseWord m r) = modeCode m ∧
    (responseWord m r).extractLsb' 6 2 = 0 ∧
    responseR0 (responseWord m r) = r.r0 ∧
    responseR1 (responseWord m r) = r.r1 ∧
    responseR2 (responseWord m r) = r.r2

/-- The status codes of the table, and no status has a code from 0xA to 0xE (rule R166). -/
def Obligations.StatusCodesOfTheTable : Prop :=
  (statusCode .ok).toNat = 0x0 ∧ (statusCode .notActive).toNat = 0x1 ∧ (statusCode .openFail).toNat = 0x2 ∧
  (statusCode .srcExhausted).toNat = 0x3 ∧ (statusCode .badSymbol).toNat = 0x4 ∧
  (statusCode .noInverse).toNat = 0x5 ∧ (statusCode .zeroModulus).toNat = 0x6 ∧
  (statusCode .operandRange).toNat = 0x7 ∧ (statusCode .lengthRange).toNat = 0x8 ∧
  (statusCode .blockRange).toNat = 0x9 ∧ (statusCode .illegalCmd).toNat = 0xF ∧
  ∀ st : Status, (statusCode st).toNat < 0xA ∨ (statusCode st).toNat = 0xF

/-- `ALPHA` is the table of the rule, `VALUE` its inverse on the 64 alphabet bytes and nothing elsewhere (rule R58; the
ASCII codes are the spec's own, G1 of 93_implementation_defined.md). -/
def Obligations.AlphabetAndItsInverse : Prop :=
  (∀ v : Sextet,
    (v.toNat ≤ 25 → (alpha v).toNat = 0x41 + v.toNat) ∧
    (26 ≤ v.toNat ∧ v.toNat ≤ 51 → (alpha v).toNat = 0x61 + (v.toNat - 26)) ∧
    (52 ≤ v.toNat ∧ v.toNat ≤ 61 → (alpha v).toNat = 0x30 + (v.toNat - 52)) ∧
    (v.toNat = 62 → alpha v = 0x2B) ∧
    (v.toNat = 63 → alpha v = 0x2F)) ∧
  ∀ (b : Byte) (v : Sextet), alphaValue b = some v ↔ b = alpha v

/-! ### The machine as a whole -/

/-- A packet that decodes to a command is accepted and run, when no reset is due and no command is in progress: the step is
the command's, on the state without the packet. -/
def Obligations.StepRunsDecodedInstruction : Prop :=
  ∀ (s : State) (w : Packet) (later : List Packet) (i : Instr), s.resetIn.head? ≠ some 0 →
    s.keygen = none → s.cmdIn = w :: later → decode w = .ok i →
    step s = exec i { s with cmdIn := later }

/-- With no packet, no command in progress and no reset coming, the block holds its state (rule R176; that waiting is a
step is the model's, log 2). -/
def Obligations.WaitingHoldsState : Prop :=
  ∀ s : State, s.resetIn = [] → s.keygen = none → s.cmdIn = [] → step s = .next s

/-- Every state has a next state: the machine never stops (rule R206). -/
def Obligations.EveryStepAnswers : Prop :=
  (∀ s : State, ∃ t, step s = .next t) ∧ ∀ (i : Instr) (s : State), ∃ t, exec i s = .next t

/-- Every command but KEYGEN, which may wait, is answered by exactly one response, with the mode it leaves in `MODE` and a
status code that is none of 0xA to 0xE (rules R54, R166). -/
def Obligations.OneResponsePerCommand : Prop :=
  ∀ (i : Instr) (s t : State), s.resetIn = [] → i ≠ .keygen → exec i s = .next t →
    ∃ r, t.rspOut = s.rspOut ++ [r] ∧ responseMode r = modeCode t.mode ∧
      ((responseStatus r).toNat < 0xA ∨ responseStatus r = 0xF)

/-- No step changes the parameters; sink event lists and responses only grow, at the end; draws and packets are only
taken, from the front (rules R32, R40, R43, R190, R192). -/
def Obligations.HistoriesOnlyGrow : Prop :=
  ∀ s t : State, step s = .next t →
    t.params = s.params ∧
    s.txtOut.events <+: t.txtOut.events ∧ s.ptOut.events <+: t.ptOut.events ∧
    s.rspOut <+: t.rspOut ∧ t.rnd <:+ s.rnd ∧ t.cmdIn <:+ s.cmdIn

/-- `mode` changes only by BEGIN_ENCODE, BEGIN_DECODE, END_ENCODE, END_DECODE, ENCRYPT, DECRYPT (rules R17, R173). -/
def Obligations.OnlySessionCommandsChangeMode : Prop :=
  ∀ (i : Instr) (s t : State), s.resetIn = [] → exec i s = .next t → t.mode ≠ s.mode →
    i = .beginEncode ∨ i = .beginDecode ∨ i = .endEncode ∨ i = .endDecode ∨
      (∃ n e, i = .encrypt n e) ∨ ∃ n d, i = .decrypt n d

/-- The invariant holds right after reset. -/
def Obligations.ResetMeetsInvariant : Prop := State.reset.Inv

/-- Every step keeps the invariant: ports are attached as `mode` says, sinks hold whole streams, the group buffer and the
byte count are steady, lines hold whole groups (rules R13, R14, R15, R19, R32, R34, R43, R132). -/
def Obligations.StepKeepsInvariant : Prop :=
  ∀ s t : State, s.Inv → step s = .next t → t.Inv

/-! ### Reset -/

/-- The machine right after reset: `Idle`, the registers 0, no port attached, no command in progress, no pending response
(rule R25). -/
def Obligations.AfterReset : Prop :=
  State.reset.mode = .idle ∧ State.reset.bitBuffer = 0 ∧ State.reset.byteCount = 0 ∧ State.reset.column = 0 ∧
  State.reset.txtOut.attached = false ∧ State.reset.txtIn.attached = false ∧
  State.reset.ptIn.attached = false ∧ State.reset.ptOut.attached = false ∧
  State.reset.keygen = none ∧ State.reset.rspOut = []

/-- What a reset step leaves, from every state: the same, and no response is added (rules R25, R190; that a reset to come is
counted in units of work is the model's, log 3). -/
def Obligations.ResetLeavesResetState : Prop :=
  ∀ s : State, s.resetIn.head? = some 0 →
    ∃ t, step s = .next t ∧ t.mode = .idle ∧ t.bitBuffer = 0 ∧ t.byteCount = 0 ∧ t.column = 0 ∧
      t.txtOut.attached = false ∧ t.txtIn.attached = false ∧ t.ptIn.attached = false ∧
      t.ptOut.attached = false ∧ t.keygen = none ∧ t.rspOut = s.rspOut

/-- The reset step: an attached sink gets the event `close` and no byte, an attached source loses its unread bytes, a port
that is not attached is left alone, and so are draws and the responses given (rule R190; that the reset to come is counted is
the model's, log 3). That the packets the host has issued (`cmdIn`) are left alone too is the model's choice: the rule does
not speak of them, log 16. -/
def Obligations.ResetStepEffect : Prop :=
  ∀ (s : State) (later : List Nat), s.resetIn = 0 :: later →
    step s = .next
      { s with
        mode := .idle
        bitBuffer := 0
        byteCount := 0
        column := 0
        txtOut := if s.txtOut.attached = true then
            { s.txtOut with attached := false, events := s.txtOut.events ++ [.closed] } else s.txtOut
        ptOut := if s.ptOut.attached = true then
            { s.ptOut with attached := false, events := s.ptOut.events ++ [.closed] } else s.ptOut
        txtIn := if s.txtIn.attached = true then { s.txtIn with attached := false, rest := [] } else s.txtIn
        ptIn := if s.ptIn.attached = true then { s.ptIn with attached := false, rest := [] } else s.ptIn
        keygen := none
        resetIn := later }

/-- A command takes at least two units of work, its acceptance and its response. A reset that comes after them leaves the
command to end as it ends with none coming, and is nearer by as many units. A reset that comes within them abandons it,
without a response, in a state on the way from its start to its end, in which that reset is due: parameters and packets are
those there were, the events are an initial part of those the command would have produced, the draws and the answers taken
and the free values used are the first of those it would have taken; and reset then acts on that state (rule R190; that the
reset to come is counted in units of work is the model's, log 3). -/
def Obligations.ResetCutsOrDelays : Prop :=
  ∀ (i : Instr) (s : State), s.resetIn = [] →
    ∃ (full : State) (work : Nat), exec i s = .next full ∧ full.resetIn = [] ∧ s.Grows full ∧ 2 ≤ work ∧
      ∀ (n : Nat) (later : List Nat),
        (work ≤ n →
          exec i { s with resetIn := n :: later } = .next { full with resetIn := (n - work) :: later }) ∧
        (n < work →
          ∃ cut : State, exec i { s with resetIn := n :: later } = .next (resetBlock cut) ∧
            cut.resetIn = 0 :: later ∧ cut.rspOut = s.rspOut ∧ cut.params = s.params ∧ cut.cmdIn = s.cmdIn ∧
            s.Grows cut ∧ cut.Grows full)

/-- The same of every step, whatever it does: a packet accepted, illegal ones too, a KEYGEN that goes on, a wait. A packet
that is accepted can be abandoned before its response whatever command it holds (rule R190; log 3). -/
def Obligations.ResetCutsOrDelaysAStep : Prop :=
  ∀ s : State, s.resetIn = [] →
    ∃ (full : State) (work : Nat), step s = .next full ∧ full.resetIn = [] ∧ 1 ≤ work ∧
      (s.keygen = none → s.cmdIn ≠ [] → 2 ≤ work) ∧
      full.cmdIn = (if s.keygen = none then s.cmdIn.tail else s.cmdIn) ∧
      State.Grows { s with cmdIn := full.cmdIn } full ∧
      ∀ (n : Nat) (later : List Nat), 0 < n →
        (work ≤ n →
          step { s with resetIn := n :: later } = .next { full with resetIn := (n - work) :: later }) ∧
        (n < work →
          ∃ cut : State, step { s with resetIn := n :: later } = .next (resetBlock cut) ∧
            cut.resetIn = 0 :: later ∧ cut.rspOut = s.rspOut ∧ cut.params = s.params ∧ cut.cmdIn = full.cmdIn ∧
            State.Grows { s with cmdIn := full.cmdIn } cut ∧ cut.Grows full)

/-! ### STATUS -/

/-- STATUS, header 0x0000, answers `ACTIVE` and `mode` and changes nothing (rule R160). -/
def Obligations.StatusReports : Prop :=
  decode (packet 0x00 0 0 0 0) = .ok .status ∧
  ∀ s : State, s.resetIn = [] →
    exec .status s = .next (answered s
      { status := .ok, r0 := match s.mode with | .idle => 0 | .encoding => 5 | .decoding => 6 })

/-! ### The encoder -/

/-- BEGIN_ENCODE, header 0x0001, closes the port of the session there is, clears the registers and opens `TXT_OUT`; refused, it leaves the
codec `Idle` all the same (rule R70). -/
def Obligations.BeginEncode : Prop :=
  decode (packet 0x01 0 0 0 0) = .ok .beginEncode ∧
  ∀ s : State, s.resetIn = [] →
    (grants s.txtOut = true →
      exec .beginEncode s = .next (answered
        { sessionClosed s with
          mode := .encoding
          bitBuffer := 0
          byteCount := 0
          column := 0
          txtOut :=
            { attached := true
              events := (sessionClosed s).txtOut.events ++ [.opened]
              opens := restAnswers s.txtOut.opens } }
        { status := .ok })) ∧
    (grants s.txtOut = false →
      exec .beginEncode s = .next (answered
        { sessionClosed s with
          mode := .idle
          bitBuffer := 0
          byteCount := 0
          column := 0
          txtOut := { (sessionClosed s).txtOut with opens := restAnswers s.txtOut.opens } }
        { status := .openFail }))

/-- PUT_BYTE in `Encoding` mode: the byte joins the group, and the third sends the group's four symbols, the last `PAD` of
them as `=`, with a line break after the 64th of the line; on an incomplete group `PAD` has no effect (rules R71, R72,
R73, R77). -/
def Obligations.PutByte : Prop :=
  ∀ (s : State) (v : Byte) (p : BitVec 2), s.resetIn = [] → s.mode = .encoding →
    ((s.byteCount = 0 ∨ s.byteCount = 1) →
      exec (.putByte v p) s = .next (answered
        { s with bitBuffer := s.bitBuffer * 256 + v.zeroExtend 24, byteCount := s.byteCount + 1 }
        { status := .ok })) ∧
    (s.byteCount = 2 →
      exec (.putByte v p) s = .next (answered
        { s with
          bitBuffer := 0
          byteCount := 0
          column := s.column + 4
          txtOut :=
            { s.txtOut with
              events := s.txtOut.events ++ byteEvents (wrapLines s.params.newline s.column.toNat
                (paddedGroup (s.bitBuffer * 256 + v.zeroExtend 24) p.toNat)) } }
        { status := .ok }))

/-- PUT_INT16, PUT_INT32 and PUT_INT64 do what PUT_BYTEs of their bytes do, least significant byte first, the padding
count with the last alone, but answer once (rules R74, R75, R76). -/
def Obligations.PutIntegers : Prop :=
  ∀ (s : State) (p : BitVec 2), s.resetIn = [] → s.mode = .encoding →
    (∀ v : BitVec 16, ∃ t,
      runCommands [.putByte (v.extractLsb' 0 8) 0, .putByte (v.extractLsb' 8 8) p] s = some t ∧
      exec (.putInt16 v p) s = .next
        { t with rspOut := s.rspOut ++ [responseWord .encoding { status := .ok }] }) ∧
    (∀ v : BitVec 32, ∃ t,
      runCommands [.putByte (v.extractLsb' 0 8) 0, .putByte (v.extractLsb' 8 8) 0,
        .putByte (v.extractLsb' 16 8) 0, .putByte (v.extractLsb' 24 8) p] s = some t ∧
      exec (.putInt32 v p) s = .next
        { t with rspOut := s.rspOut ++ [responseWord .encoding { status := .ok }] }) ∧
    (∀ v : BitVec 64, ∃ t,
      runCommands [.putByte (v.extractLsb' 0 8) 0, .putByte (v.extractLsb' 8 8) 0,
        .putByte (v.extractLsb' 16 8) 0, .putByte (v.extractLsb' 24 8) 0,
        .putByte (v.extractLsb' 32 8) 0, .putByte (v.extractLsb' 40 8) 0,
        .putByte (v.extractLsb' 48 8) 0, .putByte (v.extractLsb' 56 8) p] s = some t ∧
      exec (.putInt64 v p) s = .next
        { t with rspOut := s.rspOut ++ [responseWord .encoding { status := .ok }] })

/-- Outside `Encoding` mode a PUT and END_ENCODE answer `NOT_ACTIVE` and change nothing (rules R73 to R76, R78, R194). -/
def Obligations.EncoderCommandsNeedEncoding : Prop :=
  ∀ (s : State) (p : BitVec 2), s.resetIn = [] → s.mode ≠ .encoding →
    (∀ v, exec (.putByte v p) s = .next (answered s { status := .notActive })) ∧
    (∀ v, exec (.putInt16 v p) s = .next (answered s { status := .notActive })) ∧
    (∀ v, exec (.putInt32 v p) s = .next (answered s { status := .notActive })) ∧
    (∀ v, exec (.putInt64 v p) s = .next (answered s { status := .notActive })) ∧
    exec .endEncode s = .next (answered s { status := .notActive })

/-- END_ENCODE pads a partial group with zero bytes, sends it with two or one `=`, closes `TXT_OUT` and goes idle
(rule R78). -/
def Obligations.EndEncode : Prop :=
  ∀ s : State, s.resetIn = [] → s.mode = .encoding →
    (s.byteCount = 0 →
      exec .endEncode s = .next (answered
        { s with
          mode := .idle
          txtOut := { s.txtOut with attached := false, events := s.txtOut.events ++ [.closed] } }
        { status := .ok })) ∧
    (∀ (group : BitVec 24) (pad : Nat),
      ((s.byteCount = 1 ∧ group = s.bitBuffer * 65536 ∧ pad = 2) ∨
        (s.byteCount = 2 ∧ group = s.bitBuffer * 256 ∧ pad = 1)) →
      exec .endEncode s = .next (answered
        { s with
          mode := .idle
          bitBuffer := 0
          byteCount := 0
          column := s.column + 4
          txtOut :=
            { s.txtOut with
              attached := false
              events := s.txtOut.events ++ byteEvents (wrapLines s.params.newline s.column.toNat
                (paddedGroup group pad)) ++ [.closed] } }
        { status := .ok }))

/-- A whole session: a granted BEGIN_ENCODE, any PUTs with padding count 0, END_ENCODE, write one stream, the radix-64 text
of the raw bytes put, of the length the rule gives (rule R79). -/
def Obligations.EncodedTextIsRadix64 : Prop :=
  (∀ (s : State) (puts : List Instr) (bytes : List (List Byte)), s.resetIn = [] →
    grants s.txtOut = true → puts.mapM putBytesOf = some bytes →
    ∃ t, runCommands (.beginEncode :: puts ++ [.endEncode]) s = some t ∧ t.mode = .idle ∧
      t.txtOut.attached = false ∧
      t.txtOut.events = (sessionClosed s).txtOut.events ++
        (.opened :: byteEvents (radixText s.params.newline bytes.flatten) ++ [.closed])) ∧
  ∀ (newline : Byte) (bytes : List Byte),
    (radixSymbols bytes).length = 4 * ((bytes.length + 2) / 3) ∧
    (radixText newline bytes).length =
      4 * ((bytes.length + 2) / 3) + (bytes.length + 2) / 3 / 16

/-! ### The decoder -/

/-- BEGIN_DECODE, header 0x0002, closes the port of the session there is, clears the registers and opens `TXT_IN`; refused, it leaves the
codec `Idle` all the same (rule R90). -/
def Obligations.BeginDecode : Prop :=
  decode (packet 0x02 0 0 0 0) = .ok .beginDecode ∧
  ∀ s : State, s.resetIn = [] →
    (∀ text, resource s.txtIn = some text →
      exec .beginDecode s = .next (answered
        { sessionClosed s with
          mode := .decoding
          bitBuffer := 0
          byteCount := 0
          column := 0
          txtIn := { attached := true, rest := text, opens := restAnswers s.txtIn.opens } }
        { status := .ok })) ∧
    (resource s.txtIn = none →
      exec .beginDecode s = .next (answered
        { sessionClosed s with
          mode := .idle
          bitBuffer := 0
          byteCount := 0
          column := 0
          txtIn := { (sessionClosed s).txtIn with opens := restAnswers s.txtIn.opens } }
        { status := .openFail }))

/-- A GET whose bytes the session still has to give: `R0` is their little-endian value and they leave the stream. It has
filled in the groups it needed and no more, of which the last is in `bitBuffer`, by taking exactly the bytes of `TXT_IN` that
hold their symbols; nothing is read where the group alone serves it; the end of the text stays where it is; nothing else
changes (rules R14, R93 to R95, R97 to R100). -/
def Obligations.GetServesNextBytes : Prop :=
  ∀ (s : State) (i : Instr) (n : Nat), s.resetIn = [] → s.mode = .decoding → getWidthOf i = some n →
    n ≤ (upcoming s).length →
    ∃ (t : State) (count : BitVec 2) (taken rest : List Byte),
      exec i s = .next (answered t
        { status := .ok, r0 := BitVec.ofNat 64 (littleEndian ((upcoming s).take n)) }) ∧
      t = { s with
        bitBuffer := lastGroup s.bitBuffer
          ((textBytes s.params.skip s.txtIn.rest).take (3 * groupsFilled s.byteCount.toNat n))
        byteCount := count
        txtIn := { s.txtIn with rest := rest } } ∧
      upcoming t = (upcoming s).drop n ∧
      count.toNat + n = s.byteCount.toNat + 3 * groupsFilled s.byteCount.toNat n ∧
      s.txtIn.rest = taken ++ rest ∧
      HoldsSymbols s.params.skip taken (4 * groupsFilled s.byteCount.toNat n) ∧
      (n ≤ s.byteCount.toNat → t.bitBuffer = s.bitBuffer ∧ rest = s.txtIn.rest) ∧
      (textScan s.params.skip [] rest).2 = (textScan s.params.skip [] s.txtIn.rest).2

/-- A GET that needs more bytes than the text still holds answers `SRC_EXHAUSTED` or `BAD_SYMBOL`, whichever the text comes to
first, with `R0` a free value (its counter is the model's own, log 8); what it read stays read, `byteCount` is 0,
`bitBuffer` is the last group it filled, and as it was where it filled none, as a GET_BYTE never does; nothing else
changes (rules R96 to R100, R170). -/
def Obligations.GetBeyondTextFails : Prop :=
  ∀ (s : State) (i : Instr) (n : Nat), s.resetIn = [] → s.mode = .decoding → getWidthOf i = some n →
    (upcoming s).length < n →
    exec i s = .next (answered
      { s with
        bitBuffer := lastGroup s.bitBuffer (textBytes s.params.skip s.txtIn.rest)
        byteCount := 0
        txtIn := { s.txtIn with rest := (textScan s.params.skip [] s.txtIn.rest).2.2 }
        freeCount := s.freeCount + 1 }
      { status := textEnd s.params.skip s.txtIn.rest, r0 := Config.freeResult s.freeCount }) ∧
    (textBytes s.params.skip s.txtIn.rest = [] →
      lastGroup s.bitBuffer (textBytes s.params.skip s.txtIn.rest) = s.bitBuffer) ∧
    (i = .getByte → textBytes s.params.skip s.txtIn.rest = [])

/-- GET_BYTE from a group that is not empty: bits 23:16, 15:8 or 7:0 by the byte count, which falls by one; the source is
not read (rules R14, R95). -/
def Obligations.GetByteFromGroup : Prop :=
  ∀ s : State, s.resetIn = [] → s.mode = .decoding →
    (s.byteCount = 3 → exec .getByte s = .next (answered { s with byteCount := 2 }
      { status := .ok, r0 := (s.bitBuffer.extractLsb' 16 8).zeroExtend 64 })) ∧
    (s.byteCount = 2 → exec .getByte s = .next (answered { s with byteCount := 1 }
      { status := .ok, r0 := (s.bitBuffer.extractLsb' 8 8).zeroExtend 64 })) ∧
    (s.byteCount = 1 → exec .getByte s = .next (answered { s with byteCount := 0 }
      { status := .ok, r0 := (s.bitBuffer.extractLsb' 0 8).zeroExtend 64 }))

/-- Outside `Decoding` mode a GET answers `NOT_ACTIVE`, with `R0` a free value; the block does not change (rules R97 to R100,
R194; the free value's counter is the model's own, log 8). -/
def Obligations.GetsNeedDecoding : Prop :=
  ∀ (s : State) (i : Instr) (n : Nat), s.resetIn = [] → s.mode ≠ .decoding → getWidthOf i = some n →
    exec i s = .next (answered { s with freeCount := s.freeCount + 1 }
      { status := .notActive, r0 := Config.freeResult s.freeCount })

/-- END_DECODE, header 0x0004: in `Decoding` mode it closes `TXT_IN`, discards what is unread, and goes idle; `bitBuffer`,
`byteCount` and `column` keep their values. In any other mode it answers `NOT_ACTIVE` and changes nothing (rule R101). -/
def Obligations.EndDecode : Prop :=
  decode (packet 0x04 0 0 0 0) = .ok .endDecode ∧
  ∀ s : State, s.resetIn = [] →
    (s.mode = .decoding →
      exec .endDecode s = .next (answered
        { s with mode := .idle, txtIn := { s.txtIn with attached := false, rest := [] } } { status := .ok })) ∧
    (s.mode ≠ .decoding → exec .endDecode s = .next (answered s { status := .notActive }))

/-- Decoding the text of a byte string gives the bytes back, by any mixture of GETs that takes as many bytes (rule R102). -/
def Obligations.CodecRoundTrip : Prop :=
  ∀ (s : State) (bytes : List Byte) (gets : List Instr) (widths : List Nat), s.resetIn = [] →
    s.params.wellFormed = true → resource s.txtIn = some (radixText s.params.newline bytes) →
    gets.mapM getWidthOf = some widths → widths.sum = bytes.length →
    ∃ t, runCommands (.beginDecode :: gets) s = some t ∧
      t.rspOut = s.rspOut ++ responseWord .decoding { status := .ok } :: getResponses gets bytes

/-! ### Number theory -/

/-- IS_PRIME, opcode 0x10 with `A` = n, answers 1 for a prime and 0 for any other number, and changes nothing (rule R111). -/
def Obligations.IsPrimeIsPrimality : Prop :=
  (∀ n : Word, decode (packet 0x10 0 n 0 0) = .ok (.isPrime n)) ∧
  ∀ (s : State) (n : Word), s.resetIn = [] →
    (n.toNat.Prime → exec (.isPrime n) s = .next (answered s { status := .ok, r0 := 1 })) ∧
    (¬ n.toNat.Prime → exec (.isPrime n) s = .next (answered s { status := .ok, r0 := 0 }))

/-- GCD, opcode 0x11, answers the greatest common divisor of the absolute values of its signed operands, which fits `R0`, and changes
nothing (rule R113). -/
def Obligations.GcdOfAbsoluteValues : Prop :=
  (∀ a b : Word, decode (packet 0x11 0 a b 0) = .ok (.gcd a b)) ∧
  ∀ (s : State) (a b : Word), s.resetIn = [] →
    ∃ v : Word, v.toNat = Nat.gcd a.toInt.natAbs b.toInt.natAbs ∧
      exec (.gcd a b) s = .next (answered s { status := .ok, r0 := v })

/-- MOD_INVERSE, opcode 0x12: `ZERO_MODULUS` for `n = 0`; else `NO_INVERSE` unless `a` and `n` are coprime; else the only `t` below `n` with
`(a * t) mod n = 1 mod n`. It changes nothing (rule R114). -/
def Obligations.ModInverseIsTheInverse : Prop :=
  (∀ a n : Word, decode (packet 0x12 0 a n 0) = .ok (.modInverse a n)) ∧
  ∀ (s : State) (a n : Word), s.resetIn = [] →
    (n = 0 → exec (.modInverse a n) s = .next (answered s { status := .zeroModulus })) ∧
    (n ≠ 0 → Nat.gcd a.toNat n.toNat ≠ 1 →
      exec (.modInverse a n) s = .next (answered s { status := .noInverse })) ∧
    (n ≠ 0 → Nat.gcd a.toNat n.toNat = 1 →
      ∃ t : Word, exec (.modInverse a n) s = .next (answered s { status := .ok, r0 := t }) ∧
        t.toNat < n.toNat ∧ a.toNat * t.toNat % n.toNat = 1 % n.toNat ∧
        ∀ u, u < n.toNat → a.toNat * u % n.toNat = 1 % n.toNat → u = t.toNat)

/-- MOD_EXP, opcode 0x13: `ZERO_MODULUS` for modulus 0; else 1 for exponent 0, and `base ^ exponent mod modulus` for any other. It changes
nothing (rule R116). -/
def Obligations.ModExpIsThePower : Prop :=
  (∀ base exponent modulus : Word,
    decode (packet 0x13 0 base exponent modulus) = .ok (.modExp base exponent modulus)) ∧
  ∀ (s : State) (base exponent modulus : Word), s.resetIn = [] →
    (modulus = 0 →
      exec (.modExp base exponent modulus) s = .next (answered s { status := .zeroModulus })) ∧
    (modulus ≠ 0 → exponent = 0 →
      exec (.modExp base exponent modulus) s = .next (answered s { status := .ok, r0 := 1 })) ∧
    (modulus ≠ 0 → exponent ≠ 0 →
      ∃ v : Word, v.toNat = base.toNat ^ exponent.toNat % modulus.toNat ∧
        exec (.modExp base exponent modulus) s = .next (answered s { status := .ok, r0 := v }))

/-! ### KEYGEN -/

/-- KEYGEN over draws that hold a key: `p` is the first prime, `q` the first prime after it, `e` the first later value coprime
to `f`; it answers `n`, `e`, `d`, has taken the draws up to `e`, and changes nothing else (rules R130, R132, R133). -/
def Obligations.KeygenAnswersTheKey : Prop :=
  ∀ (s : State) (xs : List Nat) (p : Nat) (ys : List Nat) (q : Nat) (zs : List Nat) (e : Nat) (left : List Nat),
    s.resetIn = [] → s.keygen = none → KeyDraws s.rnd xs p ys q zs e left →
    ∃ d, d < (p - 1) * (q - 1) ∧ d * e % ((p - 1) * (q - 1)) = 1 % ((p - 1) * (q - 1)) ∧
      exec .keygen s = .next (answered { s with rnd := left }
        { status := .ok, r0 := BitVec.ofNat 64 (p * q), r1 := BitVec.ofNat 64 e, r2 := BitVec.ofNat 64 d })

/-- KEYGEN over draws that hold no key has taken them all and given no response; with no draw it stays as it is, step after
step, and no packet is accepted (rules R135, R204; the waiting state between draws is the model's, log 7). -/
def Obligations.KeygenWaitsForDraws : Prop :=
  (∀ s : State, s.resetIn = [] → (∀ xs p ys q zs e left, ¬ KeyDraws s.rnd xs p ys q zs e left) →
    ∃ phase, exec .keygen s = .next { s with rnd := [], keygen := some phase }) ∧
  ∀ (s : State) (phase : KeygenPhase), s.resetIn = [] → s.keygen = some phase → s.rnd = [] → step s = .next s

/-- A delay of the draws changes nothing: KEYGEN on a first part of the draws, and resumed when the others have come, does
what it does on them all (rules R44, R135; log 7). -/
def Obligations.KeygenDelayInvisible : Prop :=
  ∀ (s t : State) (first others : List Nat) (phase : KeygenPhase), s.resetIn = [] → s.keygen = none →
    exec .keygen { s with rnd := first } = .next t → t.keygen = some phase →
    exec .keygen { s with rnd := first ++ others } = step { t with rnd := others }

/-- What KEYGEN guarantees of every answer it gives, from the first step or a later one: `n` is a product of two primes of
the key range, `e` is in the range and coprime to `f`, `d` is its inverse below `f` (rule R134). -/
def Obligations.KeygenGuarantees : Prop :=
  ∀ (s t : State) (r : Response), s.Inv → s.params.wellFormed = true → s.resetIn = [] →
    (exec .keygen s = .next t ∨ (s.keygen ≠ none ∧ step s = .next t)) → t.rspOut = s.rspOut ++ [r] →
    responseStatus r = 0 ∧
    ∃ p q, p.Prime ∧ q.Prime ∧ s.params.keyLo ≤ p ∧ p ≤ s.params.keyHi ∧ s.params.keyLo ≤ q ∧
      q ≤ s.params.keyHi ∧ (responseR0 r).toNat = p * q ∧
      Nat.gcd (responseR1 r).toNat ((p - 1) * (q - 1)) = 1 ∧
      s.params.keyLo ≤ (responseR1 r).toNat ∧ (responseR1 r).toNat ≤ s.params.keyHi ∧
      (responseR2 r).toNat < (p - 1) * (q - 1) ∧
      (responseR2 r).toNat * (responseR1 r).toNat % ((p - 1) * (q - 1)) = 1 % ((p - 1) * (q - 1))

/-! ### The pipeline -/

/-- ENCRYPT and DECRYPT refuse a modulus of 0 or above 2^32 and touch nothing (rule R145). -/
def Obligations.ModulusOutOfRangeRefused : Prop :=
  ∀ (s : State) (n k : Word), s.resetIn = [] → n = 0 ∨ n.toNat > 2 ^ 32 →
    exec (.encrypt n k) s = .next (answered s { status := .operandRange }) ∧
    exec (.decrypt n k) s = .next (answered s { status := .operandRange })

/-- ENCRYPT with both opens granted, and either the check unset or every block value below `n`: the text of the header and
of each block's power is one closed stream on `TXT_OUT`, the plaintext is read, the codec is `Idle`
(rules R140, R141, R142). -/
def Obligations.EncryptWritesCipherText : Prop :=
  ∀ (s : State) (n e : Word) (data raw : List Byte), s.resetIn = [] → n ≠ 0 → n.toNat ≤ 2 ^ 32 →
    resource s.ptIn = some data → data.length < 2 ^ 32 → grants s.txtOut = true →
    (s.params.strictBlockCheck = false ∨ ∀ v ∈ blockValues data, v < n.toNat) →
    raw = cipherStream data.length ((blockValues data).map fun v => powMod v e.toNat n.toNat) →
    exec (.encrypt n e) s = .next (answered
      { s with
        mode := .idle
        bitBuffer := 0
        byteCount := 0
        column := BitVec.ofNat 6 (radixSymbols raw).length
        txtOut :=
          { attached := false
            events := (sessionClosed s).txtOut.events ++
              (.opened :: byteEvents (radixText s.params.newline raw) ++ [.closed])
            opens := restAnswers s.txtOut.opens }
        txtIn := (sessionClosed s).txtIn
        ptIn := { attached := false, rest := [], opens := restAnswers s.ptIn.opens } }
      { status := .ok
        r0 := BitVec.ofNat 64 (blockCount data.length)
        r1 := BitVec.ofNat 64 data.length })

/-- ENCRYPT with the check set stops at the first block value not below `n`: `BLOCK_RANGE`, the blocks before it written, the
codec finalised, the header promising the whole length (rule R143). -/
def Obligations.EncryptStopsAtLargeBlock : Prop :=
  ∀ (s : State) (n e : Word) (data raw : List Byte) (before : List Nat) (v : Nat) (after : List Nat),
    s.resetIn = [] → n ≠ 0 → n.toNat ≤ 2 ^ 32 → resource s.ptIn = some data → data.length < 2 ^ 32 →
    grants s.txtOut = true → s.params.strictBlockCheck = true →
    blockValues data = before ++ v :: after → (∀ u ∈ before, u < n.toNat) → n.toNat ≤ v →
    raw = cipherStream data.length (before.map fun u => powMod u e.toNat n.toNat) →
    exec (.encrypt n e) s = .next (answered
      { s with
        mode := .idle
        bitBuffer := 0
        byteCount := 0
        column := BitVec.ofNat 6 (radixSymbols raw).length
        txtOut :=
          { attached := false
            events := (sessionClosed s).txtOut.events ++
              (.opened :: byteEvents (radixText s.params.newline raw) ++ [.closed])
            opens := restAnswers s.txtOut.opens }
        txtIn := (sessionClosed s).txtIn
        ptIn := { attached := false, rest := [], opens := restAnswers s.ptIn.opens } }
      { status := .blockRange
        r0 := BitVec.ofNat 64 before.length
        r1 := BitVec.ofNat 64 data.length })

/-- Where ENCRYPT fails before it writes: `PT_IN` refused, a plaintext of 2^32 bytes or more, `TXT_OUT` refused, in that order
(rules R141, R167, R170). -/
def Obligations.EncryptOpenFailures : Prop :=
  ∀ (s : State) (n e : Word), s.resetIn = [] → n ≠ 0 → n.toNat ≤ 2 ^ 32 →
    (resource s.ptIn = none →
      exec (.encrypt n e) s = .next (answered
        { s with ptIn := { s.ptIn with opens := restAnswers s.ptIn.opens } } { status := .openFail })) ∧
    (∀ data, resource s.ptIn = some data → 2 ^ 32 ≤ data.length →
      exec (.encrypt n e) s = .next (answered
        { s with ptIn := { attached := false, rest := [], opens := restAnswers s.ptIn.opens } }
        { status := .lengthRange })) ∧
    (∀ data, resource s.ptIn = some data → data.length < 2 ^ 32 → grants s.txtOut = false →
      exec (.encrypt n e) s = .next (answered
        { sessionClosed s with
          mode := .idle
          bitBuffer := 0
          byteCount := 0
          column := 0
          txtOut := { (sessionClosed s).txtOut with opens := restAnswers s.txtOut.opens }
          ptIn := { attached := false, rest := [], opens := restAnswers s.ptIn.opens } }
        { status := .openFail }))

/-- DECRYPT of a text that holds the header and all its blocks, and perhaps more: the first bytes of the blocks' powers, as
many as the header says, are one closed stream on `PT_OUT`; what follows in the text is ignored. The group stays as the last
read left it (rules R14, R101, R140, R146, R147, R151). -/
def Obligations.DecryptWritesPlaintext : Prop :=
  ∀ (s : State) (n d : Word) (text : List Byte) (len : Nat) (ciphers : List Nat) (extra : List Byte),
    s.resetIn = [] → n ≠ 0 → n.toNat ≤ 2 ^ 32 → resource s.txtIn = some text → grants s.ptOut = true →
    len < 2 ^ 32 → (∀ c ∈ ciphers, c < 2 ^ 32) → ciphers.length = blockCount len →
    textBytes s.params.skip text = cipherStream len ciphers ++ extra →
    ∃ count : BitVec 2, count.toNat + (4 + 4 * ciphers.length) = 3 * groupsFilled 0 (4 + 4 * ciphers.length) ∧
      exec (.decrypt n d) s = .next (answered
      { s with
        mode := .idle
        bitBuffer := lastGroup 0
          ((textBytes s.params.skip text).take (3 * groupsFilled 0 (4 + 4 * ciphers.length)))
        byteCount := count
        column := 0
        txtOut := (sessionClosed s).txtOut
        txtIn := { attached := false, rest := [], opens := restAnswers s.txtIn.opens }
        ptOut :=
          { attached := false
            events := s.ptOut.events ++ (.opened :: byteEvents
              ((ciphers.flatMap fun c => plainBytes (powMod c d.toNat n.toNat)).take len) ++ [.closed])
            opens := restAnswers s.ptOut.opens } }
      { status := .ok, r0 := BitVec.ofNat 64 len, r1 := BitVec.ofNat 64 len })

/-- DECRYPT of a text that ends, or has a foreign byte, before its last block is read: the bytes of the blocks before are
written and counted in `R0`, `PT_OUT` is closed, the codec is `Idle`, and the failing status is the answer; without a
whole header nothing is written and `R1` is 0. The group stays as the last read left it (rules R96, R101, R146, R148). -/
def Obligations.DecryptAborts : Prop :=
  ∀ (s : State) (n d : Word) (text : List Byte), s.resetIn = [] → n ≠ 0 → n.toNat ≤ 2 ^ 32 →
    resource s.txtIn = some text → grants s.ptOut = true →
    (∀ (len : Nat) (ciphers : List Nat) (extra : List Byte), len < 2 ^ 32 → (∀ c ∈ ciphers, c < 2 ^ 32) →
      ciphers.length < blockCount len → extra.length < 4 →
      textBytes s.params.skip text = cipherStream len ciphers ++ extra →
      exec (.decrypt n d) s = .next (answered
        { s with
          mode := .idle
          bitBuffer := lastGroup 0 (textBytes s.params.skip text)
          byteCount := 0
          column := 0
          txtOut := (sessionClosed s).txtOut
          txtIn := { attached := false, rest := [], opens := restAnswers s.txtIn.opens }
          ptOut :=
            { attached := false
              events := s.ptOut.events ++ (.opened :: byteEvents
                (ciphers.flatMap fun c => plainBytes (powMod c d.toNat n.toNat)) ++ [.closed])
              opens := restAnswers s.ptOut.opens } }
        { status := textEnd s.params.skip text
          r0 := BitVec.ofNat 64 (3 * ciphers.length)
          r1 := BitVec.ofNat 64 len })) ∧
    ((textBytes s.params.skip text).length < 4 →
      exec (.decrypt n d) s = .next (answered
        { s with
          mode := .idle
          bitBuffer := lastGroup 0 (textBytes s.params.skip text)
          byteCount := 0
          column := 0
          txtOut := (sessionClosed s).txtOut
          txtIn := { attached := false, rest := [], opens := restAnswers s.txtIn.opens }
          ptOut :=
            { attached := false
              events := s.ptOut.events ++ [.opened, .closed]
              opens := restAnswers s.ptOut.opens } }
        { status := textEnd s.params.skip text, r0 := 0, r1 := 0 }))

/-- Where DECRYPT fails before it reads: `TXT_IN` refused, then `PT_OUT` refused; the codec is reset and `Idle`
(rules R146, R167, R170). -/
def Obligations.DecryptOpenFailures : Prop :=
  ∀ (s : State) (n d : Word), s.resetIn = [] → n ≠ 0 → n.toNat ≤ 2 ^ 32 →
    (resource s.txtIn = none →
      exec (.decrypt n d) s = .next (answered
        { sessionClosed s with
          mode := .idle
          bitBuffer := 0
          byteCount := 0
          column := 0
          txtIn := { (sessionClosed s).txtIn with opens := restAnswers s.txtIn.opens } }
        { status := .openFail })) ∧
    (∀ text, resource s.txtIn = some text → grants s.ptOut = false →
      exec (.decrypt n d) s = .next (answered
        { sessionClosed s with
          mode := .idle
          bitBuffer := 0
          byteCount := 0
          column := 0
          txtIn := { attached := false, rest := [], opens := restAnswers s.txtIn.opens }
          ptOut := { s.ptOut with opens := restAnswers s.ptOut.opens } }
        { status := .openFail }))

/-- Empty input: ENCRYPT writes `AAAAAA==`, which DECRYPT takes to an empty plaintext (rule R150). -/
def Obligations.EmptyInput : Prop :=
  ∀ (s : State) (n k : Word), s.resetIn = [] → s.params.wellFormed = true → n ≠ 0 → n.toNat ≤ 2 ^ 32 →
    (resource s.ptIn = some [] → grants s.txtOut = true →
      ∃ t, exec (.encrypt n k) s = .next (answered t { status := .ok, r0 := 0, r1 := 0 }) ∧
        t.txtOut.events = (sessionClosed s).txtOut.events ++ (.opened :: byteEvents
          [0x41, 0x41, 0x41, 0x41, 0x41, 0x41, 0x3D, 0x3D] ++ [.closed])) ∧
    (resource s.txtIn = some [0x41, 0x41, 0x41, 0x41, 0x41, 0x41, 0x3D, 0x3D] → grants s.ptOut = true →
      ∃ t, exec (.decrypt n k) s = .next (answered t { status := .ok, r0 := 0, r1 := 0 }) ∧
        t.ptOut.events = s.ptOut.events ++ [.opened, .closed])

/-- RSA: for `n = p * q` with distinct primes and `e * d = 1` modulo `(p - 1) * (q - 1)`, MOD_EXP with `d` takes back MOD_EXP with
`e` on every value below `n` (rule R149). -/
def Obligations.ModExpInvertsModExp : Prop :=
  ∀ (s : State) (n e d plain : Word) (p q : Nat), s.resetIn = [] → p.Prime → q.Prime → p ≠ q →
    n.toNat = p * q → e.toNat * d.toNat % ((p - 1) * (q - 1)) = 1 → plain.toNat < n.toNat →
    ∃ cipher : Word,
      exec (.modExp plain e n) s = .next (answered s { status := .ok, r0 := cipher }) ∧
      exec (.modExp cipher d n) s = .next (answered s { status := .ok, r0 := plain })

/-- The pipeline round trip: for `n = p * q` at most 2^32 with distinct primes, `e * d = 1` modulo `(p - 1) * (q - 1)`, and every
block value below `n`, DECRYPT with `d` of the text that ENCRYPT with `e` wrote writes the plaintext, and both answer
`OK` (rule R149). -/
def Obligations.PipelineRoundTrip : Prop :=
  ∀ (s : State) (n e d : Word) (p q : Nat) (data : List Byte), s.resetIn = [] →
    s.params.wellFormed = true → p.Prime → q.Prime → p ≠ q → n.toNat = p * q → n.toNat ≤ 2 ^ 32 →
    e.toNat * d.toNat % ((p - 1) * (q - 1)) = 1 → data.length < 2 ^ 32 →
    (∀ v ∈ blockValues data, v < n.toNat) → resource s.ptIn = some data → grants s.txtOut = true →
    ∃ (t : State) (text : List Byte) (r : Response),
      exec (.encrypt n e) s = .next t ∧ t.rspOut = s.rspOut ++ [r] ∧ responseStatus r = 0 ∧
      t.txtOut.events = (sessionClosed s).txtOut.events ++ (.opened :: byteEvents text ++ [.closed]) ∧
      ∀ u : State, u.resetIn = [] → u.params = s.params → resource u.txtIn = some text →
        grants u.ptOut = true →
        ∃ (v : State) (r' : Response),
          exec (.decrypt n d) u = .next v ∧ v.rspOut = u.rspOut ++ [r'] ∧ responseStatus r' = 0 ∧
          v.ptOut.events = u.ptOut.events ++ (.opened :: byteEvents data ++ [.closed])
end

