-- ==== Sys2Proof/Laws/Arithmetic.lean ====
section
/-! SUPPORT. What the number-theory units compute: one specification lemma for each (rules R112, R113, R115, R117). -/

namespace Sys2Proof.Machine

/-! ### Primality -/

/-- A number above 1 with no divisor from 2 up to a bound beyond its square root is prime. -/
theorem prime_of_no_divisor {n i : Nat} (h2 : 2 ≤ n) (hi : n < i * i)
    (hd : ∀ d, 2 ≤ d → d < i → ¬ d ∣ n) : n.Prime := by
  by_contra hp
  have h1 : n.minFac * n.minFac ≤ n := by
    have := Nat.minFac_sq_le_self (by omega : 0 < n) hp
    rwa [pow_two] at this
  have h3 : n.minFac < i := by
    by_contra hc
    have := Nat.mul_le_mul (not_lt.mp hc) (not_lt.mp hc)
    omega
  exact hd _ (Nat.minFac_prime (by omega)).two_le h3 n.minFac_dvd

theorem isPrimeLoop_iff {n : Nat} (h2 : 2 < n) (hodd : n % 2 = 1) (turns i : Nat) (hi3 : 3 ≤ i)
    (hi : i % 2 = 1) (ht : n < (i + 2 * turns) * (i + 2 * turns))
    (hd : ∀ d, 2 ≤ d → d < i → ¬ d ∣ n) : isPrimeLoop n turns i = true ↔ n.Prime := by
  induction turns generalizing i with
  | zero =>
    simp only [isPrimeLoop, true_iff]
    exact prime_of_no_divisor (by omega) (by simpa using ht) hd
  | succ turns ih =>
    unfold isPrimeLoop
    by_cases hle : i * i ≤ n
    · rw [if_pos hle]
      by_cases hmod : n % i = 0
      · rw [if_pos hmod]
        refine ⟨fun h => by simp at h, fun hp => ?_⟩
        have hdvd : i ∣ n := Nat.dvd_of_mod_eq_zero hmod
        rcases (Nat.dvd_prime hp).mp hdvd with h | h
        · omega
        · rw [h] at hle; nlinarith
      · rw [if_neg hmod]
        refine ih (i + 2) (by omega) (by omega) ?_ ?_
        · have : i + 2 * (turns + 1) = i + 2 + 2 * turns := by ring
          rwa [this] at ht
        · intro d hd2 hlt hdvd
          rcases Nat.lt_or_ge d i with h | h
          · exact hd d hd2 h hdvd
          · rcases Nat.eq_or_lt_of_le h with h | h
            · subst h; exact hmod (Nat.mod_eq_zero_of_dvd hdvd)
            · have : d = i + 1 := by omega
              have h2n : 2 ∣ n := Nat.dvd_trans (by omega) hdvd
              omega
    · rw [if_neg hle]
      simp only [true_iff]
      exact prime_of_no_divisor (by omega) (by omega) hd

/-- `IsPrime` is primality (rule R112). -/
theorem isPrime_iff (n : Nat) : isPrime n = true ↔ n.Prime := by
  unfold isPrime
  by_cases h1 : n < 2
  · rw [if_pos h1]
    exact ⟨fun h => by simp at h, fun h => absurd h.two_le (by omega)⟩
  rw [if_neg h1]
  by_cases h2 : n = 2
  · rw [if_pos h2, h2]; simp [Nat.prime_two]
  rw [if_neg h2]
  by_cases h3 : n % 2 = 0
  · rw [if_pos h3]
    refine ⟨fun h => by simp at h, fun hp => ?_⟩
    rcases (Nat.dvd_prime hp).mp (Nat.dvd_of_mod_eq_zero h3) with h | h <;> omega
  rw [if_neg h3]
  refine isPrimeLoop_iff (by omega) (by omega) n 3 (by omega) (by omega) (by nlinarith) ?_
  intro d hd2 hd3 hdvd
  have : d = 2 := by omega
  subst this; omega

/-! ### Greatest common divisor -/

theorem gcdLoop_eq (turns a b : Nat) (h : b ≤ turns) : gcdLoop turns a b = Nat.gcd a b := by
  induction turns generalizing a b with
  | zero =>
    have : b = 0 := by omega
    subst this; simp [gcdLoop]
  | succ turns ih =>
    unfold gcdLoop
    by_cases hb : b = 0
    · rw [if_pos hb, hb, Nat.gcd_zero_right]
    · rw [if_neg hb, ih b (a % b) (by have := Nat.mod_lt a (Nat.pos_of_ne_zero hb); omega),
        Nat.gcd_comm a b, Nat.gcd_rec b a, Nat.gcd_comm]

/-- `Gcd` is the greatest common divisor of the absolute values (rule R113). -/
theorem gcd_eq (a b : Int) : gcd a b = Int.gcd a b := gcdLoop_eq _ _ _ (Nat.le_refl _)

/-- `Gcd` of non-negative integers (rules R114, R133). -/
theorem gcd_natCast (a b : Nat) : gcd a b = Nat.gcd a b := by
  rw [gcd_eq]; simp

/-! ### Modular exponentiation -/

theorem modExpLoop_eq (m : Nat) (turns r b e : Nat) (h : e < 2 ^ turns) :
    modExpLoop m turns r b e = if e = 0 then r else r * b ^ e % m := by
  induction turns generalizing r b e with
  | zero =>
    have : e = 0 := by simpa using h
    simp [modExpLoop, this]
  | succ turns ih =>
    unfold modExpLoop
    by_cases he : e = 0
    · simp [he]
    · rw [if_pos (by omega), ih _ _ _ (by rw [pow_succ] at h; omega), if_neg he]
      have hsplit : b ^ e = (b * b) ^ (e / 2) * b ^ (e % 2) := by
        rw [← pow_two, ← pow_mul, ← pow_add]
        congr 1; omega
      by_cases h1 : e / 2 = 0
      · have : e = 1 := by omega
        subst this
        simp
      · rw [if_neg h1, hsplit]
        rcases Nat.mod_two_eq_zero_or_one e with h0 | h0
        · rw [h0]
          simp only [Nat.zero_ne_one, if_false, pow_zero, mul_one]
          exact (Nat.ModEq.refl r).mul ((Nat.mod_modEq (b * b) m).pow _)
        · rw [h0]
          simp only [if_true, pow_one]
          calc r * b % m * (b * b % m) ^ (e / 2) % m = r * b * (b * b) ^ (e / 2) % m :=
                (Nat.mod_modEq _ m).mul ((Nat.mod_modEq (b * b) m).pow _)
            _ = r * ((b * b) ^ (e / 2) * b) % m := by ring_nf

/-- `ModExp` in closed form (rule R117). -/
theorem modExp_eq (b e m : Nat) : modExp b e m = powMod b e m := by
  unfold modExp powMod
  rw [modExpLoop_eq m _ _ _ _ Nat.lt_log2_self, one_mul]

/-- A value of `ModExp` with a modulus of at most `2^32` fits 32 bits (rule R145). -/
theorem powMod_lt {b e m : Nat} (h0 : m ≠ 0) (h : m ≤ 2 ^ 32) : powMod b e m < 2 ^ 32 := by
  unfold powMod
  split
  · norm_num
  · exact Nat.lt_of_lt_of_le (Nat.mod_lt _ (Nat.pos_of_ne_zero h0)) h

/-! ### Modular inverse -/

/-- What holds on every turn of the loop: `r` and `r'` are the same multiples of `a`, modulo `n`, as `t` and `t'`, and
`t` and `t'` alternate in sign and are bounded as rule R115 says. -/
theorem modInverseLoop_spec {a n : Nat} (turns : Nat) (t t' : Int) (r r' : Nat)
    (hturns : r' ≤ turns)
    (h1 : (n : Int) ∣ a * t - r) (h2 : (n : Int) ∣ a * t' - r')
    (hdet : (r : Int) * |t'| + r' * |t| = n) (hsign : t * t' ≤ 0) (hpos : 0 < r)
    (hbound : |t| ≤ n) :
    (n : Int) ∣ a * (modInverseLoop turns t t' r r').1 - (modInverseLoop turns t t' r r').2 ∧
      (modInverseLoop turns t t' r r').2 = Nat.gcd r r' ∧
      |(modInverseLoop turns t t' r r').1| ≤ n := by
  induction turns generalizing t t' r r' with
  | zero =>
    have : r' = 0 := by omega
    subst this
    simp only [modInverseLoop, Nat.gcd_zero_right]
    exact ⟨h1, trivial, hbound⟩
  | succ turns ih =>
    unfold modInverseLoop
    by_cases h0 : r' = 0
    · rw [if_pos h0, h0]
      exact ⟨h1, by simp, hbound⟩
    · rw [if_neg h0]
      have hmod : r - r / r' * r' = r % r' := by
        have := Nat.mod_add_div r r'
        rw [Nat.mul_comm] at this
        omega
      rw [hmod]
      have hlt : r % r' < r' := Nat.mod_lt _ (Nat.pos_of_ne_zero h0)
      have hgcd : Nat.gcd r r' = Nat.gcd r' (r % r') := by
        rw [Nat.gcd_comm r r', Nat.gcd_rec r' r, Nat.gcd_comm]
      rw [hgcd]
      have hq : (r : Int) = ((r / r' : Nat) : Int) * r' + ((r % r' : Nat) : Int) := by
        have := Nat.div_add_mod r r'
        rw [Nat.mul_comm] at this
        exact_mod_cast this.symm
      have hqnn : (0 : Int) ≤ ((r / r' : Nat) : Int) := Int.natCast_nonneg _
      generalize hqdef : ((r / r' : Nat) : Int) = q at *
      have habs : |t - q * t'| = |t| + q * |t'| := by
        rcases le_total 0 t with ht | ht <;> rcases le_total 0 t' with ht' | ht'
        · have : t = 0 ∨ t' = 0 := by
            rcases eq_or_lt_of_le ht with h | h
            · exact .inl h.symm
            · exact .inr (le_antisymm (by nlinarith) ht')
          rcases this with h | h
          · subst h; simp [abs_mul, abs_of_nonneg hqnn]
          · subst h; simp
        · rw [abs_of_nonneg ht, abs_of_nonpos ht', abs_of_nonneg (by nlinarith)]; ring
        · rw [abs_of_nonpos ht, abs_of_nonneg ht', abs_of_nonpos (by nlinarith)]; ring
        · have : t = 0 ∨ t' = 0 := by
            rcases eq_or_lt_of_le ht with h | h
            · exact .inl h
            · exact .inr (le_antisymm ht' (by nlinarith))
          rcases this with h | h
          · subst h; simp [abs_mul, abs_of_nonneg hqnn]
          · subst h; simp
      have hr'1 : (1 : Int) ≤ r' := by exact_mod_cast Nat.pos_of_ne_zero h0
      have hr1 : (1 : Int) ≤ r := by exact_mod_cast hpos
      refine ih t' (t - q * t') r' (r % r') (by omega) h2 ?_ ?_ ?_ (Nat.pos_of_ne_zero h0) ?_
      · have : (a : Int) * (t - q * t') - ((r % r' : Nat) : Int)
            = (a * t - r) - q * (a * t' - r') := by
          have := hq; linear_combination this
        rw [this]
        exact dvd_sub h1 (Dvd.dvd.mul_left h2 q)
      · rw [habs]
        have := hq
        linear_combination hdet - |t'| * this
      · nlinarith [mul_self_nonneg t']
      · nlinarith [abs_nonneg t, abs_nonneg t']

/-- `ModInverse` of coprime operands is the value of rule R114. -/
theorem modInverse_spec {a n : Nat} (hn : 1 ≤ n) (hg : Nat.gcd a n = 1) :
    ∃ t, modInverse a n = some t ∧ t < n ∧ a * t % n = 1 % n := by
  obtain ⟨h1, h2, h3⟩ := modInverseLoop_spec (a := a) (n := n) a 0 1 n a (Nat.le_refl _)
    (by simp) (by simp) (by simp) (by simp) (by omega) (by simp)
  unfold modInverse
  generalize modInverseLoop a 0 1 n a = out at *
  obtain ⟨t, r⟩ := out
  dsimp only at h1 h2 h3 ⊢
  have hr : r = 1 := by rw [h2, Nat.gcd_comm]; exact hg
  rw [if_neg (by simp [hr])]
  subst hr
  have hb := abs_le.mp h3
  set u : Int := if t < 0 then t + n else t with hu
  have hu0 : 0 ≤ u ∧ u ≤ n := by rw [hu]; split <;> omega
  set w : Int := if u ≥ n then u - n else u with hw
  have hw0 : 0 ≤ w ∧ w < n := by rw [hw]; split <;> omega
  refine ⟨w.toNat, rfl, by omega, ?_⟩
  have hcong : (n : Int) ∣ a * w - 1 := by
    have hk : ∃ k : Int, w = t + k * n := by
      rw [hw, hu]
      split <;> split
      · exact ⟨0, by ring⟩
      · exact ⟨1, by ring⟩
      · exact ⟨-1, by ring⟩
      · exact ⟨0, by ring⟩
    obtain ⟨k, hk⟩ := hk
    have : (a : Int) * w - 1 = (a * t - ((1 : Nat) : Int)) + a * k * n := by rw [hk]; push_cast; ring
    rw [this]
    exact dvd_add h1 (Dvd.intro_left _ rfl)
  have hwn : ((w.toNat : Nat) : Int) = w := by omega
  have : ((a * w.toNat : Nat) : Int) % n = ((1 : Nat) : Int) % n := by
    push_cast
    rw [hwn]
    exact (Int.modEq_iff_dvd.mpr hcong).symm
  exact_mod_cast this

/-- The value of rule R114 is the only one. -/
theorem inverse_unique {a n t u : Nat} (hg : Nat.gcd a n = 1) (ht : t < n) (hu : u < n)
    (h1 : a * t % n = 1 % n) (h2 : a * u % n = 1 % n) : t = u := by
  have : a * t ≡ a * u [MOD n] := h1.trans h2.symm
  have := Nat.ModEq.cancel_left_of_coprime (by rw [Nat.gcd_comm]; exact hg) this
  exact this.eq_of_lt_of_lt ht hu

end Sys2Proof.Machine
end

