-- ==== Sys2Proof/Laws/State.lean ====
section
/-! SUPPORT. The small lemmas of the state's update operations: one per field per update, so that no later proof
unfolds an update. -/

namespace Sys2Proof.Machine

variable (s : State) (k : Sink) (r : Source) (e : SinkEvent)

@[simp] theorem sinkOf_txtOut : sinkOf s .txtOut = s.txtOut := rfl
@[simp] theorem sinkOf_ptOut : sinkOf s .ptOut = s.ptOut := rfl
@[simp] theorem sourceOf_txtIn : sourceOf s .txtIn = s.txtIn := rfl
@[simp] theorem sourceOf_ptIn : sourceOf s .ptIn = s.ptIn := rfl

@[simp] theorem withSink_txtOut : withSink s .txtOut k = { s with txtOut := k } := rfl
@[simp] theorem withSink_ptOut : withSink s .ptOut k = { s with ptOut := k } := rfl
@[simp] theorem withSource_txtIn : withSource s .txtIn r = { s with txtIn := r } := rfl
@[simp] theorem withSource_ptIn : withSource s .ptIn r = { s with ptIn := r } := rfl

@[simp] theorem addEvent_attached : (addEvent k e).attached = k.attached := rfl
@[simp] theorem addEvent_events : (addEvent k e).events = k.events ++ [e] := rfl
@[simp] theorem addEvent_opens : (addEvent k e).opens = k.opens := rfl

@[simp] theorem sinkDetached_attached : (sinkDetached k).attached = false := rfl
@[simp] theorem sinkDetached_events : (sinkDetached k).events = k.events ++ [.closed] := rfl
@[simp] theorem sinkDetached_opens : (sinkDetached k).opens = k.opens := rfl

@[simp] theorem sourceDetached_attached : (sourceDetached r).attached = false := rfl
@[simp] theorem sourceDetached_rest : (sourceDetached r).rest = [] := rfl
@[simp] theorem sourceDetached_opens : (sourceDetached r).opens = r.opens := rfl

/-- A sink's attach, granted (rule R31). -/
theorem sinkAttached_granted (h : nextAnswer k.opens = true) :
    sinkAttached k =
      { attached := true, events := k.events ++ [.opened], opens := restAnswers k.opens } := by
  simp [sinkAttached, h, addEvent]

/-- A sink's attach, refused: nothing but the answers to come changes (rule R31). -/
theorem sinkAttached_refused (h : nextAnswer k.opens = false) :
    sinkAttached k = { k with opens := restAnswers k.opens } := by
  simp [sinkAttached, h]

/-- A source's attach, granted (rule R31). -/
theorem sourceAttached_granted {bytes : List Byte} (h : nextAnswer r.opens = some bytes) :
    sourceAttached r = { attached := true, rest := bytes, opens := restAnswers r.opens } := by
  simp [sourceAttached, h]

/-- A source's attach, refused (rule R31). -/
theorem sourceAttached_refused (h : nextAnswer r.opens = none) :
    sourceAttached r = { r with opens := restAnswers r.opens } := by
  simp [sourceAttached, h]

@[simp] theorem resetBlock_params : (resetBlock s).params = s.params := rfl
@[simp] theorem resetBlock_mode : (resetBlock s).mode = .idle := rfl
@[simp] theorem resetBlock_bitBuffer : (resetBlock s).bitBuffer = 0 := rfl
@[simp] theorem resetBlock_byteCount : (resetBlock s).byteCount = 0 := rfl
@[simp] theorem resetBlock_column : (resetBlock s).column = 0 := rfl
@[simp] theorem resetBlock_txtOut : (resetBlock s).txtOut = sinkReset s.txtOut := rfl
@[simp] theorem resetBlock_txtIn : (resetBlock s).txtIn = sourceReset s.txtIn := rfl
@[simp] theorem resetBlock_ptIn : (resetBlock s).ptIn = sourceReset s.ptIn := rfl
@[simp] theorem resetBlock_ptOut : (resetBlock s).ptOut = sinkReset s.ptOut := rfl
@[simp] theorem resetBlock_rnd : (resetBlock s).rnd = s.rnd := rfl
@[simp] theorem resetBlock_keygen : (resetBlock s).keygen = none := rfl
@[simp] theorem resetBlock_cmdIn : (resetBlock s).cmdIn = s.cmdIn := rfl
@[simp] theorem resetBlock_rspOut : (resetBlock s).rspOut = s.rspOut := rfl
@[simp] theorem resetBlock_resetIn : (resetBlock s).resetIn = s.resetIn.tail := rfl
@[simp] theorem resetBlock_freeCount : (resetBlock s).freeCount = s.freeCount := rfl

@[simp] theorem sinkReset_attached : (sinkReset k).attached = false := by
  unfold sinkReset; split <;> simp_all

@[simp] theorem sinkReset_opens : (sinkReset k).opens = k.opens := by
  unfold sinkReset; split <;> rfl

@[simp] theorem sourceReset_attached : (sourceReset r).attached = false := by
  unfold sourceReset; split <;> simp_all

@[simp] theorem sourceReset_opens : (sourceReset r).opens = r.opens := by
  unfold sourceReset; split <;> rfl

end Sys2Proof.Machine
end

