-- ==== Sys2Proof/Laws/Ops.lean ====
section
/-! SUPPORT. What the shared operations do. For each primitive: its run where no reset is coming (`*_run`), and, for
claims about every state, a rule for what it ensures both when it ends and when reset cuts it short (`Ensures`). -/

namespace Sys2Proof.Machine

/-! ### Running procedures -/

@[simp] theorem getState_run (s : State) : getState.run s = .ok s s := rfl

@[simp] theorem modifyState_run (g : State → State) (s : State) :
    (modifyState g).run s = .ok () (g s) := rfl

/-- Running a sequence whose first part is known to end. -/
theorem bind_of_ok {α β : Type} {m : Proc α} {f : α → Proc β} {s t : State} {a : α}
    (h : m.run s = .ok a t) : (m >>= f).run s = (f a).run t := by
  rw [EStateM.run_bind, h]

/-- Running a sequence whose first part is cut short. -/
theorem bind_of_cut {α β : Type} {m : Proc α} {f : α → Proc β} {s t : State} {c : Cut}
    (h : m.run s = .error c t) : (m >>= f).run s = .error c t := by
  rw [EStateM.run_bind, h]

theorem getState_bind {β : Type} (f : State → Proc β) (s : State) :
    (getState >>= f).run s = (f s).run s := rfl

theorem modifyState_bind {β : Type} (g : State → State) (f : Unit → Proc β) (s : State) :
    (modifyState g >>= f).run s = (f ()).run (g s) := rfl

@[simp] theorem onlyIf_true (m : Proc Unit) : onlyIf true m = m := rfl

@[simp] theorem onlyIf_false (m : Proc Unit) : onlyIf false m = pure () := rfl

/-- Where no reset is coming, a unit of work just ends. -/
theorem unit_run {s : State} (h : s.resetIn = []) : unit.run s = .ok () s := by
  unfold unit EStateM.run; simp only [h]

/-- A unit of work is cut short exactly when reset is due. -/
theorem unit_run_due {s : State} {later : List Nat} (h : s.resetIn = 0 :: later) :
    unit.run s = .error .reset s := by
  unfold unit EStateM.run; simp only [h]

/-- A unit of work brings the reset to come nearer. -/
theorem unit_run_soon {s : State} {k : Nat} {later : List Nat} (h : s.resetIn = (k + 1) :: later) :
    unit.run s = .ok () { s with resetIn := k :: later } := by
  unfold unit EStateM.run; simp only [h]

variable {s : State}

theorem memWrite_run (h : s.resetIn = []) (p : SinkPort) (v : Byte) :
    (memWrite p v).run s = .ok () (withSink s p (addEvent (sinkOf s p) (.byte v))) := by
  unfold memWrite; rw [bind_of_ok (unit_run h)]; rfl

theorem memRead_run (h : s.resetIn = []) (p : SourcePort) :
    (memRead p).run s = .ok (sourceOf s p).rest.head?
      (withSource s p { sourceOf s p with rest := (sourceOf s p).rest.tail }) := by
  unfold memRead; rw [bind_of_ok (unit_run h)]; rfl

theorem draw_run (h : s.resetIn = []) :
    draw.run s = .ok s.rnd.head? { s with rnd := s.rnd.tail } := by
  unfold draw; rw [bind_of_ok (unit_run h)]; rfl

theorem openSink_run (h : s.resetIn = []) (p : SinkPort) :
    (openSink p).run s = .ok (nextAnswer (sinkOf s p).opens)
      (withSink s p (sinkAttached (sinkOf s p))) := by
  unfold openSink; rw [bind_of_ok (unit_run h)]; rfl

theorem openSource_run (h : s.resetIn = []) (p : SourcePort) :
    (openSource p).run s = .ok (nextAnswer (sourceOf s p).opens).isSome
      (withSource s p (sourceAttached (sourceOf s p))) := by
  unfold openSource; rw [bind_of_ok (unit_run h)]; rfl

theorem closeSink_run (h : s.resetIn = []) (p : SinkPort) :
    (closeSink p).run s = .ok () (withSink s p (sinkDetached (sinkOf s p))) := by
  unfold closeSink; rw [bind_of_ok (unit_run h)]; rfl

theorem closeSource_run (h : s.resetIn = []) (p : SourcePort) :
    (closeSource p).run s = .ok () (withSource s p (sourceDetached (sourceOf s p))) := by
  unfold closeSource; rw [bind_of_ok (unit_run h)]; rfl

theorem freeWord_run :
    freeWord.run s = .ok (Config.freeResult s.freeCount) { s with freeCount := s.freeCount + 1 } := rfl

theorem respond_run (h : s.resetIn = []) (r : Result) :
    (respond r).run s = .ok () (answered s r) := by
  unfold respond; rw [bind_of_ok (unit_run h)]; rfl

/-- Where no reset is coming, acceptance leaves the procedure to run as it is. -/
theorem settle_accepted {s : State} (h : s.resetIn = []) (body : Proc Unit) : settle (accepted body) s = settle body s := by
  unfold settle accepted; rw [bind_of_ok (unit_run h)]

/-- A command whose body ends: its response is given. -/
theorem runCommand_of_ok {body : Proc Result} {t : State} {r : Result} (h0 : s.resetIn = [])
    (hb : body.run s = .ok r t) (h : t.resetIn = []) :
    runCommand body s = .next (answered t r) := by
  rw [runCommand, settle_accepted h0]
  simp [settle, bind_of_ok hb, respond_run h]

/-- A command that only answers: the state is left as it is. -/
theorem runCommand_pure (h : s.resetIn = []) (r : Result) :
    runCommand (pure r) s = .next (answered s r) := runCommand_of_ok (t := s) h (by rw [EStateM.run_pure]) h

/-- Every run of a procedure as a step ends in a next state (rule R206). -/
theorem settle_next (body : Proc Unit) (s : State) : ∃ t, settle body s = .next t := by
  unfold settle
  cases body.run s <;> exact ⟨_, rfl⟩

/-! ### What a procedure ensures in every state -/

/-- From every state that meets `pre`, the procedure ends with a value and a state that meet `post`, or reset cuts it
short in a state that meets `cut`. -/
def Ensures {α : Type} (pre : State → Prop) (m : Proc α) (post : α → State → Prop)
    (cut : State → Prop) : Prop :=
  ∀ s, pre s → match m.run s with
    | .ok a t => post a t
    | .error _ t => cut t

section ensures
variable {α β : Type} {pre cut : State → Prop}

theorem ensures_pure {a : α} {post : α → State → Prop} (h : ∀ s, pre s → post a s) :
    Ensures pre (pure a) post cut := fun s hs => h s hs

theorem ensures_bind {m : Proc α} {f : α → Proc β} {mid : α → State → Prop}
    {post : β → State → Prop} (hm : Ensures pre m mid cut)
    (hf : ∀ a, Ensures (mid a) (f a) post cut) : Ensures pre (m >>= f) post cut := by
  intro s hs
  have h1 := hm s hs
  rw [EStateM.run_bind]
  cases hms : m.run s with
  | ok a t => rw [hms] at h1; exact hf a t h1
  | error c t => rw [hms] at h1; exact h1

theorem ensures_getState {post : State → State → Prop} (h : ∀ s, pre s → post s s) :
    Ensures pre getState post cut := fun s hs => h s hs

theorem ensures_modifyState {g : State → State} {post : Unit → State → Prop}
    (h : ∀ s, pre s → post () (g s)) : Ensures pre (modifyState g) post cut := fun s hs => h s hs

theorem ensures_mono {m : Proc α} {pre' cut' : State → Prop} {post post' : α → State → Prop}
    (h : Ensures pre' m post' cut') (h1 : ∀ s, pre s → pre' s)
    (h2 : ∀ a s, post' a s → post a s) (h3 : ∀ s, cut' s → cut s) : Ensures pre m post cut := by
  intro s hs
  have := h s (h1 s hs)
  cases hm : m.run s with
  | ok a t => rw [hm] at this; exact h2 a t this
  | error c t => rw [hm] at this; exact h3 t this

/-- A unit of work keeps whatever does not speak of the reset to come. -/
theorem ensures_unit {post : Unit → State → Prop}
    (hcut : ∀ s, pre s → cut s)
    (hok : ∀ s l, pre s → post () { s with resetIn := l }) : Ensures pre unit post cut := by
  intro s hs
  rcases hr : s.resetIn with _ | ⟨_ | k, l⟩
  · rw [unit_run hr]; simpa using hok s s.resetIn hs
  · rw [unit_run_due hr]; exact hcut s hs
  · rw [unit_run_soon hr]; exact hok s _ hs

/-- A procedure that, whatever the state, ends or is cut short with a property, makes its step's next state one that
has it after the reset, if it was cut short. -/
theorem settle_ensures {body : Proc Unit} {inv : State → Prop} {s t : State}
    (h : Ensures pre body (fun _ => inv) cut) (hs : pre s)
    (hreset : ∀ u, cut u → inv (resetBlock u)) (ht : settle body s = .next t) : inv t := by
  have := h s hs
  unfold settle at ht
  cases hb : body.run s with
  | ok a u => rw [hb] at ht this; cases ht; exact this
  | error c u => rw [hb] at ht this; cases ht; exact hreset u this

end ensures

end Sys2Proof.Machine
end

