-- ==== Sys2Proof/Laws/Encoder.lean ====
section
/-! SUPPORT. What the encoder's procedures do where no reset is coming: each is one explicit change of the state. -/

namespace Sys2Proof.Machine

/-! ### Lines -/

@[simp] theorem wrapLines_nil (nl : Byte) (c : Nat) : wrapLines nl c [] = [] := by
  unfold wrapLines; rfl

theorem wrapLines_cons (nl : Byte) (c : Nat) (x : Byte) (xs : List Byte) :
    wrapLines nl c (x :: xs) =
      if c = 63 then x :: nl :: wrapLines nl 0 xs else x :: wrapLines nl (c + 1) xs := by
  conv_lhs => unfold wrapLines

/-- Breaking two pieces into lines one after the other, from a column of a line. -/
theorem wrapLines_append (nl : Byte) (xs ys : List Byte) (c : Nat) (h : c < 64) :
    wrapLines nl c (xs ++ ys) =
      wrapLines nl c xs ++ wrapLines nl ((c + xs.length) % 64) ys := by
  induction xs generalizing c with
  | nil => simp [Nat.mod_eq_of_lt h]
  | cons x xs ih =>
    rw [List.cons_append, wrapLines_cons, wrapLines_cons]
    split
    · next hc =>
      subst hc
      rw [ih 0 (by omega)]
      have : (63 + (xs.length + 1)) % 64 = xs.length % 64 := by omega
      simp [this]
    · rw [ih (c + 1) (by omega)]
      have : (c + (xs.length + 1)) % 64 = (c + 1 + xs.length) % 64 := by omega
      simp [this]

@[simp] theorem byteEvents_nil : byteEvents [] = [] := rfl

@[simp] theorem byteEvents_append (xs ys : List Byte) :
    byteEvents (xs ++ ys) = byteEvents xs ++ byteEvents ys := by simp [byteEvents]

/-! ### Emitting symbols -/

/-- The state after symbols have been emitted (rule R71). -/
def emitted (s : State) (symbols : List Byte) : State :=
  { s with
    txtOut := { s.txtOut with
      events := s.txtOut.events ++
        byteEvents (wrapLines s.params.newline s.column.toNat symbols) }
    column := s.column + BitVec.ofNat 6 symbols.length }

@[simp] theorem emitted_resetIn (s : State) (xs : List Byte) : (emitted s xs).resetIn = s.resetIn := rfl
@[simp] theorem emitted_mode (s : State) (xs : List Byte) : (emitted s xs).mode = s.mode := rfl
@[simp] theorem emitted_params (s : State) (xs : List Byte) : (emitted s xs).params = s.params := rfl
@[simp] theorem emitted_bitBuffer (s : State) (xs : List Byte) :
    (emitted s xs).bitBuffer = s.bitBuffer := rfl
@[simp] theorem emitted_byteCount (s : State) (xs : List Byte) :
    (emitted s xs).byteCount = s.byteCount := rfl

@[simp] theorem emitted_nil (s : State) : emitted s [] = s := by
  simp [emitted]

/-- Emitting two pieces is emitting their concatenation. -/
theorem emitted_emitted (s : State) (xs ys : List Byte) :
    emitted (emitted s xs) ys = emitted s (xs ++ ys) := by
  have hc : (s.column + BitVec.ofNat 6 xs.length).toNat = (s.column.toNat + xs.length) % 64 := by
    simp [BitVec.toNat_add]
  unfold emitted
  simp only [hc, wrapLines_append _ _ _ _ s.column.isLt, byteEvents_append, List.append_assoc,
    List.length_append]
  have : s.column + BitVec.ofNat 6 xs.length + BitVec.ofNat 6 ys.length
      = s.column + BitVec.ofNat 6 (xs.length + ys.length) := by
    rw [BitVec.add_assoc]; congr 1; apply BitVec.eq_of_toNat_eq; simp [BitVec.toNat_add]
  simp [this]

/-- `EmitSymbol` (rule R71). -/
theorem emitSymbol_run {s : State} (h : s.resetIn = []) (ch : Byte) :
    (emitSymbol ch).run s = .ok () (emitted s [ch]) := by
  unfold emitSymbol
  rw [bind_of_ok (memWrite_run h .txtOut ch), getState_bind]
  have ht : (withSink s .txtOut (addEvent (sinkOf s .txtOut) (.byte ch))).resetIn = [] := h
  by_cases hc : s.column = 63
  · have h63 : s.column.toNat = 63 := by rw [hc]; rfl
    rw [show decide ((withSink s .txtOut (addEvent (sinkOf s .txtOut) (.byte ch))).column = 63)
      = true from decide_eq_true hc, onlyIf_true, bind_of_ok (memWrite_run ht .txtOut _)]
    simp [emitted, wrapLines_cons, h63, byteEvents, addEvent]
  · have h63 : s.column.toNat ≠ 63 := fun e => hc (BitVec.eq_of_toNat_eq e)
    rw [show decide ((withSink s .txtOut (addEvent (sinkOf s .txtOut) (.byte ch))).column = 63)
      = false from decide_eq_false hc, onlyIf_false]
    simp [emitted, wrapLines_cons, h63, byteEvents, addEvent]

/-! ### Bytes and groups -/

/-- The four symbols of a full group with a padding count (rule R72). -/
def groupSymbols (group : BitVec 24) (p : BitVec 2) : List Byte :=
  [groupSymbol group p 0, groupSymbol group p 1, groupSymbol group p 2, groupSymbol group p 3]

/-- The state after a full group has been sent (rule R72). -/
def flushed (s : State) (p : BitVec 2) : State :=
  { emitted s (groupSymbols s.bitBuffer p) with bitBuffer := 0, byteCount := 0 }

theorem flushGroup_run {s : State} (h : s.resetIn = []) (p : BitVec 2) :
    (flushGroup p).run s = .ok () (flushed s p) := by
  unfold flushGroup
  rw [getState_bind, bind_of_ok (emitSymbol_run h _),
    bind_of_ok (emitSymbol_run (by simpa using h) _),
    bind_of_ok (emitSymbol_run (by simpa using h) _),
    bind_of_ok (emitSymbol_run (by simpa using h) _), modifyState_run]
  simp only [emitted_emitted]
  rfl

/-- The state after a raw byte has been buffered (rule R72). -/
def buffered (s : State) (v : Byte) : State :=
  { s with bitBuffer := pushByte s.bitBuffer v, byteCount := s.byteCount + 1 }

/-- The state after `PutByte(v, p)` in `Encoding` mode (rule R72). -/
def putState (s : State) (v : Byte) (p : BitVec 2) : State :=
  if s.byteCount = 2 then flushed (buffered s v) p else buffered s v

@[simp] theorem putState_resetIn (s : State) (v : Byte) (p : BitVec 2) :
    (putState s v p).resetIn = s.resetIn := by
  unfold putState; split <;> rfl

@[simp] theorem putState_mode (s : State) (v : Byte) (p : BitVec 2) :
    (putState s v p).mode = s.mode := by
  unfold putState; split <;> rfl

@[simp] theorem putState_params (s : State) (v : Byte) (p : BitVec 2) :
    (putState s v p).params = s.params := by
  unfold putState; split <;> rfl

theorem putByte_run {s : State} (h : s.resetIn = []) (hm : s.mode = .encoding) (v : Byte)
    (p : BitVec 2) : (putByte v p).run s = .ok () (putState s v p) := by
  have h3 : s.byteCount + 1 = 3 ↔ s.byteCount = 2 := by
    generalize s.byteCount = c; revert c; decide
  unfold putByte bufferByte
  rw [getState_bind]
  simp only [encActive, hm, decide_true, onlyIf_true]
  rw [modifyState_bind, getState_bind]
  simp only [h3]
  unfold putState
  by_cases hc : s.byteCount = 2
  · rw [if_pos hc, decide_eq_true hc, onlyIf_true]
    exact flushGroup_run (s := buffered s v) h p
  · rw [if_neg hc, decide_eq_false hc, onlyIf_false]
    rfl

theorem putByte_off {s : State} (hm : s.mode ≠ .encoding) (v : Byte) (p : BitVec 2) :
    (putByte v p).run s = .ok () s := by
  unfold putByte
  rw [getState_bind]
  simp [hm, encActive]

theorem putInt16_run {s : State} (h : s.resetIn = []) (hm : s.mode = .encoding) (v : BitVec 16)
    (p : BitVec 2) : (putInt16 v p).run s = .ok () (putState (putState s (lowHalf (w := 8) v) 0)
      (highHalf (w := 8) v) p) := by
  unfold putInt16
  rw [bind_of_ok (putByte_run h hm _ _), putByte_run (by simpa using h) (by simpa using hm)]

/-- The state after `PutInt16` in `Encoding` mode (rule R74). -/
def putState16 (s : State) (v : BitVec 16) (p : BitVec 2) : State :=
  putState (putState s (lowHalf (w := 8) v) 0) (highHalf (w := 8) v) p

/-- The state after `PutInt32` in `Encoding` mode (rule R75). -/
def putState32 (s : State) (v : BitVec 32) (p : BitVec 2) : State :=
  putState16 (putState16 s (lowHalf (w := 16) v) 0) (highHalf (w := 16) v) p

/-- The state after `PutInt64` in `Encoding` mode (rule R76). -/
def putState64 (s : State) (v : BitVec 64) (p : BitVec 2) : State :=
  putState32 (putState32 s (lowHalf (w := 32) v) 0) (highHalf (w := 32) v) p

@[simp] theorem putState16_resetIn (s : State) (v : BitVec 16) (p : BitVec 2) :
    (putState16 s v p).resetIn = s.resetIn := by simp [putState16]
@[simp] theorem putState16_mode (s : State) (v : BitVec 16) (p : BitVec 2) :
    (putState16 s v p).mode = s.mode := by simp [putState16]
@[simp] theorem putState16_params (s : State) (v : BitVec 16) (p : BitVec 2) :
    (putState16 s v p).params = s.params := by simp [putState16]
@[simp] theorem putState32_resetIn (s : State) (v : BitVec 32) (p : BitVec 2) :
    (putState32 s v p).resetIn = s.resetIn := by simp [putState32]
@[simp] theorem putState32_mode (s : State) (v : BitVec 32) (p : BitVec 2) :
    (putState32 s v p).mode = s.mode := by simp [putState32]
@[simp] theorem putState32_params (s : State) (v : BitVec 32) (p : BitVec 2) :
    (putState32 s v p).params = s.params := by simp [putState32]
@[simp] theorem putState64_resetIn (s : State) (v : BitVec 64) (p : BitVec 2) :
    (putState64 s v p).resetIn = s.resetIn := by simp [putState64]
@[simp] theorem putState64_mode (s : State) (v : BitVec 64) (p : BitVec 2) :
    (putState64 s v p).mode = s.mode := by simp [putState64]

theorem putInt32_run {s : State} (h : s.resetIn = []) (hm : s.mode = .encoding) (v : BitVec 32)
    (p : BitVec 2) : (putInt32 v p).run s = .ok () (putState32 s v p) := by
  unfold putInt32
  rw [bind_of_ok (putInt16_run h hm _ _)]
  exact putInt16_run (s := putState16 s (lowHalf (w := 16) v) 0) (by simpa using h)
    (by simpa using hm) _ _

theorem putInt64_run {s : State} (h : s.resetIn = []) (hm : s.mode = .encoding) (v : BitVec 64)
    (p : BitVec 2) : (putInt64 v p).run s = .ok () (putState64 s v p) := by
  unfold putInt64
  rw [bind_of_ok (putInt32_run h hm _ _)]
  exact putInt32_run (s := putState32 s (lowHalf (w := 32) v) 0) (by simpa using h)
    (by simpa using hm) _ _

/-- A PUT command in `Encoding` mode, given what its serialiser does (rules R73 to R76). -/
theorem putCommand_run {s t : State} {put : Proc Unit} (hm : s.mode = .encoding)
    (hp : put.run s = .ok () t) : (putCommand put).run s = .ok okResult t := by
  unfold putCommand
  rw [getState_bind]
  simp only [encActive, hm, decide_true, if_true]
  rw [bind_of_ok hp]
  rfl

/-- A PUT command outside `Encoding` mode changes nothing (rules R73 to R76, R194). -/
theorem putCommand_off {s : State} {put : Proc Unit} (hm : s.mode ≠ .encoding) :
    (putCommand put).run s = .ok (raiseResult .notActive) s := by
  unfold putCommand
  rw [getState_bind]
  simp [hm, encActive]

/-! ### Sessions -/

theorem closeSession_run {s : State} (h : s.resetIn = []) :
    closeSession.run s = .ok () (sessionClosed s) := by
  unfold closeSession
  rw [getState_bind]
  cases hm : s.mode
  · simp [encActive, decActive, hm, sessionClosed]; rw [← hm]
  · simp [encActive, decActive, hm, sessionClosed, closeSink_run h]
  · simp [encActive, decActive, hm, sessionClosed, closeSource_run h]

/-- The state after `BeginEncode()` (rule R70). -/
def encodeBegun (s : State) : State :=
  { sessionClosed s with
    bitBuffer := 0
    byteCount := 0
    column := 0
    txtOut := sinkAttached (sessionClosed s).txtOut
    mode := if nextAnswer s.txtOut.opens then .encoding else .idle }

@[simp] theorem encodeBegun_resetIn (s : State) : (encodeBegun s).resetIn = s.resetIn := rfl

theorem sessionClosed_opens (s : State) : (sessionClosed s).txtOut.opens = s.txtOut.opens := by
  unfold sessionClosed; dsimp only; split <;> rfl

theorem beginEncode_run {s : State} (h : s.resetIn = []) :
    beginEncode.run s = .ok (nextAnswer s.txtOut.opens) (encodeBegun s) := by
  unfold beginEncode
  rw [bind_of_ok (closeSession_run h)]
  unfold clearCodec
  rw [modifyState_bind, bind_of_ok (openSink_run (by exact h) .txtOut), modifyState_bind]
  simp only [EStateM.run_pure, sinkOf_txtOut, withSink_txtOut, sessionClosed_opens]
  rfl

/-- The state after `BeginEncode()`, granted (rule R70). -/
theorem encodeBegun_granted {s : State} (h : nextAnswer s.txtOut.opens = true) :
    encodeBegun s =
      { sessionClosed s with
        mode := .encoding
        bitBuffer := 0
        byteCount := 0
        column := 0
        txtOut :=
          { attached := true
            events := (sessionClosed s).txtOut.events ++ [.opened]
            opens := restAnswers s.txtOut.opens } } := by
  unfold encodeBegun
  rw [sinkAttached_granted _ (by rw [sessionClosed_opens]; exact h), sessionClosed_opens, h]
  rfl

/-- The state after `BeginEncode()`, refused (rule R70). -/
theorem encodeBegun_refused {s : State} (h : nextAnswer s.txtOut.opens = false) :
    encodeBegun s =
      { sessionClosed s with
        mode := .idle
        bitBuffer := 0
        byteCount := 0
        column := 0
        txtOut := { (sessionClosed s).txtOut with opens := restAnswers s.txtOut.opens } } := by
  unfold encodeBegun
  rw [sinkAttached_refused _ (by rw [sessionClosed_opens]; exact h), sessionClosed_opens, h]
  rfl

/-- The symbols END_ENCODE still has to send (rule R78). -/
def lastSymbols (buffer : BitVec 24) (count : BitVec 2) : List Byte :=
  if count = 1 then groupSymbols (pushByte (pushByte buffer 0) 0) 2
  else if count = 2 then groupSymbols (pushByte buffer 0) 1
  else []

/-- The state after `EndEncode()` (rule R78), from a steady state in `Encoding` mode. -/
def encodeEnded (s : State) : State :=
  { emitted s (lastSymbols s.bitBuffer s.byteCount) with
    bitBuffer := if s.byteCount = 0 then s.bitBuffer else 0
    byteCount := 0
    txtOut := sinkDetached (emitted s (lastSymbols s.bitBuffer s.byteCount)).txtOut
    mode := .idle }

theorem endEncode_run {s : State} (h : s.resetIn = []) (hm : s.mode = .encoding)
    (hc : s.byteCount ≠ 3) : endEncode.run s = .ok () (encodeEnded s) := by
  unfold endEncode padGroup
  rw [getState_bind]
  have hcases : s.byteCount = 0 ∨ s.byteCount = 1 ∨ s.byteCount = 2 := by
    revert hc; generalize s.byteCount = c; revert c; decide
  rcases hcases with h0 | h1 | h2
  · rw [bind_of_ok (a := ()) (t := s) (by simp [h0]), bind_of_ok (closeSink_run h _)]
    simp [encodeEnded, lastSymbols, h0]
  · rw [bind_of_ok (a := ()) (t := putState (putState s 0 0) 0 2)
        (by rw [if_pos h1, bind_of_ok (putByte_run h hm 0 0)]
            exact putByte_run (by simpa using h) (by simpa using hm) 0 2),
      bind_of_ok (closeSink_run (by simpa using h) _)]
    simp [encodeEnded, lastSymbols, putState, buffered, flushed, h1, emitted]
  · rw [bind_of_ok (a := ()) (t := putState s 0 1)
        (by rw [if_neg (by rw [h2]; decide), if_pos h2]; exact putByte_run h hm 0 1),
      bind_of_ok (closeSink_run (by simpa using h) _)]
    simp [encodeEnded, lastSymbols, putState, buffered, flushed, h2, emitted]

end Sys2Proof.Machine
end

