-- ==== Sys2Proof/Laws/Decoder.lean ====
section
/-! SUPPORT. What the decoder's procedures do where no reset is coming, in terms of the raw-byte stream `upcoming`. -/

namespace Sys2Proof.Machine

/-! ### Symbols and groups of a text -/

/-- The next symbol of a text and what it leaves unread (rules R91 to R93). -/
def nextSymbol (skip : List Byte) : List Byte → Except Status Sextet × List Byte
  | [] => (.error .srcExhausted, [])
  | b :: more =>
    if skip.contains b then nextSymbol skip more
    else
      match symbolValue b with
      | some v => (.ok v, more)
      | none => (.error .badSymbol, more)

/-- A symbol is read by taking exactly the bytes that hold one symbol (rule R93). -/
theorem nextSymbol_taken {skip rest left : List Byte} {v : Sextet} (h : nextSymbol skip rest = (.ok v, left)) :
    ∃ taken, rest = taken ++ left ∧ HoldsSymbols skip taken 1 := by
  induction rest with
  | nil => simp [nextSymbol] at h
  | cons b more ih =>
    unfold nextSymbol at h
    by_cases hb : skip.contains b = true
    · rw [if_pos hb] at h
      obtain ⟨taken, ht, hk, hl⟩ := ih h
      refine ⟨b :: taken, by rw [ht]; rfl, by rw [List.countP_cons, hk]; simp only [hb]; rfl, fun c hc => hl c ?_⟩
      cases taken with
      | nil => simp at hk
      | cons x xs => rwa [List.getLast?_cons_cons] at hc
    · rw [if_neg hb] at h
      have hn : b ∉ skip := by simpa using hb
      cases hv : symbolValue b with
      | none => rw [hv] at h; simp at h
      | some w =>
        rw [hv] at h
        refine ⟨[b], by simp at h; rw [h.2]; rfl, by simp [hn], fun c hc => ?_⟩
        simp at hc; rwa [← hc]

theorem HoldsSymbols.nil (skip : List Byte) : HoldsSymbols skip [] 0 := ⟨rfl, fun _ h => by simp at h⟩

theorem HoldsSymbols.append {skip xs ys : List Byte} {j k : Nat} (hx : HoldsSymbols skip xs j)
    (hy : HoldsSymbols skip ys k) : HoldsSymbols skip (xs ++ ys) (j + k) := by
  refine ⟨by rw [List.countP_append, hx.1, hy.1], fun b hb => ?_⟩
  cases ys with
  | nil => rw [List.append_nil] at hb; exact hx.2 b hb
  | cons y ys => rw [List.getLast?_append_of_ne_nil _ (by simp)] at hb; exact hy.2 b hb

/-- No symbols are held by no bytes. -/
theorem HoldsSymbols.eq_nil {skip xs : List Byte} (h : HoldsSymbols skip xs 0) : xs = [] := by
  cases hl : xs.getLast? with
  | none => simpa using hl
  | some b =>
    have := List.countP_eq_zero.mp h.1 b (List.mem_of_getLast? hl)
    exact absurd (h.2 b hl) (by simpa using this)

/-- The state with the unread bytes of `TXT_IN` replaced. -/
def unread (s : State) (rest : List Byte) : State := { s with txtIn := { s.txtIn with rest := rest } }

@[simp] theorem unread_resetIn (s : State) (r : List Byte) : (unread s r).resetIn = s.resetIn := rfl
@[simp] theorem unread_params (s : State) (r : List Byte) : (unread s r).params = s.params := rfl
@[simp] theorem unread_mode (s : State) (r : List Byte) : (unread s r).mode = s.mode := rfl
@[simp] theorem unread_rest (s : State) (r : List Byte) : (unread s r).txtIn.rest = r := rfl
@[simp] theorem unread_unread (s : State) (r q : List Byte) : unread (unread s r) q = unread s q := rfl
@[simp] theorem unread_same (s : State) : unread s s.txtIn.rest = s := rfl

theorem memRead_txtIn_run {s : State} (h : s.resetIn = []) :
    (memRead .txtIn).run s = .ok s.txtIn.rest.head? (unread s s.txtIn.rest.tail) :=
  memRead_run h .txtIn

theorem readSymbolLoop_run {s : State} (h : s.resetIn = []) (turns : Nat)
    (ht : s.txtIn.rest.length < turns) :
    (readSymbolLoop turns).run s =
      .ok (nextSymbol s.params.skip s.txtIn.rest).1
        (unread s (nextSymbol s.params.skip s.txtIn.rest).2) := by
  induction turns generalizing s with
  | zero => omega
  | succ turns ih =>
    unfold readSymbolLoop
    rw [bind_of_ok (memRead_txtIn_run h)]
    cases hr : s.txtIn.rest with
    | nil =>
      simp only [List.head?_nil, EStateM.run_pure, nextSymbol, List.tail_nil]
    | cons b more =>
      simp only [List.head?_cons, List.tail_cons]
      rw [getState_bind]
      unfold nextSymbol
      by_cases hb : s.params.skip.contains b = true
      · rw [if_pos hb, if_pos (show (unread s more).params.skip.contains b = true from hb),
          ih (s := unread s more) h (by simp [hr] at ht ⊢; omega)]
        rfl
      · rw [if_neg hb, if_neg (show ¬(unread s more).params.skip.contains b = true from hb)]
        cases symbolValue b <;> rfl

theorem readSymbol_run {s : State} (h : s.resetIn = []) :
    readSymbol.run s =
      .ok (nextSymbol s.params.skip s.txtIn.rest).1
        (unread s (nextSymbol s.params.skip s.txtIn.rest).2) := by
  unfold readSymbol
  rw [getState_bind, readSymbolLoop_run h _ (Nat.lt_succ_self _)]

/-- The next symbols of a text, packed onto a group, and what they leave unread (rule R94). -/
def nextSymbols (skip : List Byte) : Nat → BitVec 24 → List Byte → Except Status (BitVec 24) × List Byte
  | 0, g, rest => (.ok g, rest)
  | k + 1, g, rest =>
    match nextSymbol skip rest with
    | (.error st, left) => (.error st, left)
    | (.ok v, left) => nextSymbols skip k (pushSextet g v) left

theorem nextSymbols_taken {skip rest left : List Byte} {k : Nat} {g v : BitVec 24}
    (h : nextSymbols skip k g rest = (.ok v, left)) : ∃ taken, rest = taken ++ left ∧ HoldsSymbols skip taken k := by
  induction k generalizing g rest with
  | zero => simp [nextSymbols] at h; exact ⟨[], by simp [h.2], .nil skip⟩
  | succ k ih =>
    unfold nextSymbols at h
    rcases hn : nextSymbol skip rest with ⟨st | x, mid⟩
    · rw [hn] at h; simp at h
    · rw [hn] at h
      obtain ⟨xs, hx, hx'⟩ := nextSymbol_taken hn
      obtain ⟨ys, hy, hy'⟩ := ih h
      exact ⟨xs ++ ys, by rw [hx, hy, List.append_assoc], by rw [Nat.add_comm]; exact hx'.append hy'⟩

theorem fillGroupLoop_run {s : State} (h : s.resetIn = []) (k : Nat) (g : BitVec 24) :
    (fillGroupLoop k g).run s =
      .ok (nextSymbols s.params.skip k g s.txtIn.rest).1
        (unread s (nextSymbols s.params.skip k g s.txtIn.rest).2) := by
  induction k generalizing s g with
  | zero => rfl
  | succ k ih =>
    unfold fillGroupLoop nextSymbols
    rw [bind_of_ok (readSymbol_run h)]
    rcases hn : nextSymbol s.params.skip s.txtIn.rest with ⟨st | v, left⟩
    · rfl
    · dsimp only
      rw [ih (s := unread s left) h]
      rfl

/-- The next group of a text (rule R94). -/
def nextGroup (skip : List Byte) (rest : List Byte) : Except Status (BitVec 24) × List Byte :=
  nextSymbols skip 4 0 rest

theorem fillGroup_error_run {s : State} (h : s.resetIn = []) {st : Status} {left : List Byte}
    (hn : nextGroup s.params.skip s.txtIn.rest = (.error st, left)) :
    fillGroup.run s = .ok (.error st) (unread s left) := by
  unfold fillGroup
  unfold nextGroup at hn
  rw [bind_of_ok (fillGroupLoop_run h 4 0), hn]
  rfl

theorem fillGroup_ok_run {s : State} (h : s.resetIn = []) {g : BitVec 24} {left : List Byte}
    (hn : nextGroup s.params.skip s.txtIn.rest = (.ok g, left)) :
    fillGroup.run s =
      .ok (.ok ()) { unread s left with bitBuffer := g, byteCount := 3 } := by
  unfold fillGroup
  unfold nextGroup at hn
  rw [bind_of_ok (fillGroupLoop_run h 4 0), hn]
  rfl

/-! ### The raw bytes of a text -/

theorem textScan_next (skip : List Byte) (pre : List Sextet) (rest : List Byte) :
    textScan skip pre rest =
      match nextSymbol skip rest with
      | (.error st, left) => ([], st, left)
      | (.ok v, left) =>
        match pre with
        | [v0, v1, v2] =>
          let g : BitVec 24 := v0 ++ v1 ++ v2 ++ v
          let (bytes, st, left') := textScan skip [] left
          (g.extractLsb' 16 8 :: g.extractLsb' 8 8 :: g.extractLsb' 0 8 :: bytes, st, left')
        | pre => textScan skip (pre ++ [v]) left := by
  induction rest with
  | nil => rfl
  | cons b more ih =>
    unfold nextSymbol
    by_cases hb : skip.contains b = true
    · rw [if_pos hb, ← ih]
      conv_lhs => unfold textScan
      rw [if_pos hb]
    · rw [if_neg hb]
      conv_lhs => unfold textScan
      rw [if_neg hb]
      cases hv : symbolValue b <;> rfl

theorem pushSextet_group (a b c d : Sextet) :
    pushSextet (pushSextet (pushSextet (pushSextet 0 a) b) c) d = (a ++ b ++ c ++ d : BitVec 24) := by
  apply BitVec.eq_of_toNat_eq
  have ha := a.isLt
  have hb := b.isLt
  have hc := c.isLt
  have hd := d.isLt
  have h64 : (64 : BitVec 24).toNat = 64 := rfl
  have h0 : (0 : BitVec 24).toNat = 0 := rfl
  simp only [pushSextet, BitVec.toNat_add, BitVec.toNat_mul, BitVec.toNat_setWidth,
    BitVec.toNat_append, Nat.shiftLeft_eq, h64, h0]
  rw [← Nat.shiftLeft_eq, ← Nat.shiftLeft_add_eq_or_of_lt (by omega), ← Nat.shiftLeft_eq,
    ← Nat.shiftLeft_add_eq_or_of_lt (by omega), ← Nat.shiftLeft_eq,
    ← Nat.shiftLeft_add_eq_or_of_lt (by omega)]
  simp only [Nat.shiftLeft_eq]
  omega

/-- Scanning a text is taking its first group and scanning the rest. -/
theorem textScan_group (skip rest : List Byte) :
    textScan skip [] rest =
      match nextGroup skip rest with
      | (.error st, left) => ([], st, left)
      | (.ok g, left) =>
        (unserved g 3 ++ (textScan skip [] left).1, (textScan skip [] left).2) := by
  have h0 := textScan_next skip [] rest
  unfold nextGroup nextSymbols
  rw [h0]
  rcases nextSymbol skip rest with ⟨st | v0, r0⟩
  · rfl
  dsimp only [List.nil_append]
  rw [textScan_next skip [v0] r0]
  unfold nextSymbols
  rcases nextSymbol skip r0 with ⟨st | v1, r1⟩
  · rfl
  dsimp only [List.cons_append, List.nil_append]
  rw [textScan_next skip [v0, v1] r1]
  unfold nextSymbols
  rcases nextSymbol skip r1 with ⟨st | v2, r2⟩
  · rfl
  dsimp only [List.cons_append, List.nil_append]
  rw [textScan_next skip [v0, v1, v2] r2]
  unfold nextSymbols
  rcases nextSymbol skip r2 with ⟨st | v3, r3⟩
  · rfl
  dsimp only
  unfold nextSymbols
  dsimp only
  rw [pushSextet_group]
  rfl

/-! ### Serving bytes -/

/-- The first unserved byte is the one served (rules R14, R95). -/
theorem unserved_succ (g : BitVec 24) (c : BitVec 2) (hc : c ≠ 0) :
    unserved g c.toNat = servedByte g c :: unserved g (c - 1).toNat := by
  have hs : ∀ k, (g >>> k).truncate 8 = g.extractLsb' k 8 := by
    intro k; apply BitVec.eq_of_toNat_eq; simp
  have : c = 1 ∨ c = 2 ∨ c = 3 := by revert hc; revert c; decide
  rcases this with rfl | rfl | rfl <;> simp [unserved, servedByte] <;> exact (hs _).symm

/-! ### The last group filled -/

theorem lastGroup_append (g : BitVec 24) (k : Nat) (xs : List Byte) :
    lastGroup (lastGroup g (xs.take (3 * k))) (xs.drop (3 * k)) = lastGroup g xs := by
  induction k generalizing g xs with
  | zero => simp [lastGroup]
  | succ k ih =>
    rw [show 3 * (k + 1) = 3 * k + 1 + 1 + 1 by omega]
    match xs with
    | [] => simp [lastGroup]
    | [a] => simp [lastGroup]
    | [a, b] => simp [lastGroup]
    | a :: b :: c :: more => simpa [lastGroup] using ih (a ++ b ++ c) more

theorem lastGroup_take_add (g : BitVec 24) (j k : Nat) (xs : List Byte) :
    lastGroup (lastGroup g (xs.take (3 * j))) ((xs.drop (3 * j)).take (3 * k)) =
      lastGroup g (xs.take (3 * (j + k))) := by
  have := lastGroup_append g j (xs.take (3 * (j + k)))
  rwa [List.take_take, List.drop_take, Nat.min_eq_left (by omega),
    show 3 * (j + k) - 3 * j = 3 * k by omega] at this

/-- The three bytes of a group make the group. -/
theorem lastGroup_unserved (g h : BitVec 24) : lastGroup g (unserved h 3) = h := by
  simp only [unserved, lastGroup, Nat.sub_self, List.drop_zero]
  apply BitVec.eq_of_getLsbD_eq
  intro i hi
  have : i < 24 := hi
  simp only [BitVec.getLsbD_append, BitVec.getLsbD_extractLsb']
  by_cases h1 : i < 8
  · simp [h1]
  · by_cases h2 : i < 16
    · simp [h1, show i - 8 < 8 by omega, show 8 + (i - 8) = i by omega]
    · simp [h1, show ¬i - 8 < 8 by omega, show i - 8 - 8 < 8 by omega, show 16 + (i - 8 - 8) = i by omega]

theorem unserved_length (g : BitVec 24) (c : BitVec 2) : (unserved g c.toNat).length = c.toNat := by
  have : c.toNat < 4 := c.isLt
  simp [unserved]; omega

/-- The state of a decode session with its group and its unread bytes replaced. -/
def served (s : State) (g : BitVec 24) (c : BitVec 2) (rest : List Byte) : State :=
  { unread s rest with bitBuffer := g, byteCount := c }

@[simp] theorem served_resetIn (s : State) (g : BitVec 24) (c : BitVec 2) (r : List Byte) :
    (served s g c r).resetIn = s.resetIn := rfl
@[simp] theorem served_mode (s : State) (g : BitVec 24) (c : BitVec 2) (r : List Byte) :
    (served s g c r).mode = s.mode := rfl
@[simp] theorem served_params (s : State) (g : BitVec 24) (c : BitVec 2) (r : List Byte) :
    (served s g c r).params = s.params := rfl
@[simp] theorem served_bitBuffer (s : State) (g : BitVec 24) (c : BitVec 2) (r : List Byte) :
    (served s g c r).bitBuffer = g := rfl
@[simp] theorem served_byteCount (s : State) (g : BitVec 24) (c : BitVec 2) (r : List Byte) :
    (served s g c r).byteCount = c := rfl
@[simp] theorem served_rest (s : State) (g : BitVec 24) (c : BitVec 2) (r : List Byte) :
    (served s g c r).txtIn.rest = r := rfl
@[simp] theorem served_served (s : State) (g g' : BitVec 24) (c c' : BitVec 2) (r r' : List Byte) :
    served (served s g c r) g' c' r' = served s g' c' r' := rfl

/-- What a read of `n` raw bytes leaves of a decode session (rules R14, R93 to R95): it has filled in the groups it
needed and no more, by taking exactly the bytes that hold their symbols. -/
structure Serves (s : State) (n : Nat) (g : BitVec 24) (c : BitVec 2) (rest : List Byte) : Prop where
  group : g = lastGroup s.bitBuffer
    ((textBytes s.params.skip s.txtIn.rest).take (3 * groupsFilled s.byteCount.toNat n))
  count : c.toNat + n = s.byteCount.toNat + 3 * groupsFilled s.byteCount.toNat n
  bytes : textBytes s.params.skip rest =
    (textBytes s.params.skip s.txtIn.rest).drop (3 * groupsFilled s.byteCount.toNat n)
  taken : ∃ taken, s.txtIn.rest = taken ++ rest ∧
    HoldsSymbols s.params.skip taken (4 * groupsFilled s.byteCount.toNat n)
  ends : (textScan s.params.skip [] rest).2 = (textScan s.params.skip [] s.txtIn.rest).2

/-- The groups of two reads, one after the other. -/
theorem groupsFilled_add {k c m n : Nat} (h : c + m = k + 3 * groupsFilled k m) :
    groupsFilled k m + groupsFilled c n = groupsFilled k (m + n) := by
  unfold groupsFilled at *; omega

/-- Reading nothing. -/
theorem Serves.none (s : State) : Serves s 0 s.bitBuffer s.byteCount s.txtIn.rest := by
  have h : groupsFilled s.byteCount.toNat 0 = 0 := by unfold groupsFilled; omega
  refine ⟨?_, ?_, ?_, ⟨[], rfl, ?_⟩, rfl⟩ <;> rw [h]
  · rfl
  · rfl
  · exact .nil _

theorem Serves.trans {s : State} {m n : Nat} {g g' : BitVec 24} {c c' : BitVec 2} {r r' : List Byte}
    (h : Serves s m g c r) (h' : Serves (served s g c r) n g' c' r') : Serves s (m + n) g' c' r' := by
  have hk := groupsFilled_add (n := n) h.count
  obtain ⟨xs, hx, hx'⟩ := h.taken
  obtain ⟨ys, hy, hy'⟩ := h'.taken
  have hg := h'.group
  have hc := h'.count
  have hb := h'.bytes
  have hy2 : r = ys ++ r' := hy
  simp only [served_params, served_rest, served_bitBuffer, served_byteCount] at hg hc hb hy'
  refine ⟨?_, ?_, ?_, ⟨xs ++ ys, by rw [hx, hy2, List.append_assoc], ?_⟩, h'.ends.trans h.ends⟩
  · rw [← hk, ← lastGroup_take_add, ← h.bytes, ← h.group]; exact hg
  · have := h.count; rw [← hk]; omega
  · rw [hb, h.bytes, List.drop_drop, ← hk]; congr 1; omega
  · rw [← hk, Nat.mul_add]; exact hx'.append hy'

/-- A read of `n` raw bytes: what it gives where the stream still has them, and how it fails where it has not
(rules R95 to R100). On success at most two bytes of the group are left; a failure has filled in every group there was. -/
def Reads {w : Nat} (m : Proc (Except Status (BitVec w))) (n : Nat) : Prop :=
  ∀ s : State, s.resetIn = [] → s.mode = .decoding →
    (n ≤ (upcoming s).length →
      ∃ g c rest,
        m.run s = .ok (.ok (BitVec.ofNat w (littleEndian ((upcoming s).take n)))) (served s g c rest) ∧
        upcoming (served s g c rest) = (upcoming s).drop n ∧
        Serves s n g c rest ∧ c ≠ 3) ∧
    ((upcoming s).length < n →
        m.run s = .ok (.error (textEnd s.params.skip s.txtIn.rest))
          (served s (lastGroup s.bitBuffer (textBytes s.params.skip s.txtIn.rest)) 0
            (textScan s.params.skip [] s.txtIn.rest).2.2))

theorem serveByte_run (s : State) :
    serveByte.run s = .ok (.ok (servedByte s.bitBuffer s.byteCount))
      { s with byteCount := s.byteCount - 1 } := rfl

theorem getByte_reads : Reads getByte 1 := by
  intro s h hm
  have hd : decActive s = true := by simp [decActive, hm]
  unfold getByte
  rw [getState_bind]
  simp only [hd, if_true]
  by_cases hc : s.byteCount = 0
  · have hu : upcoming s = textBytes s.params.skip s.txtIn.rest := by simp [upcoming, hc, unserved]
    have hsc := textScan_group s.params.skip s.txtIn.rest
    simp only [hc, if_true]
    rcases hg : nextGroup s.params.skip s.txtIn.rest with ⟨st | g, left⟩
    · rw [hg] at hsc
      dsimp only at hsc
      refine ⟨fun hl => ?_, fun _ => ?_⟩
      · rw [hu, textBytes, hsc] at hl; simp at hl
      · rw [bind_of_ok (fillGroup_error_run h hg)]
        rw [textEnd, textBytes, hsc]
        simp only [EStateM.run_pure, served, lastGroup, ← hc]
        rfl
    · rw [hg] at hsc
      dsimp only at hsc
      have hub : upcoming s = unserved g 3 ++ textBytes s.params.skip left := by
        rw [hu, textBytes, hsc]; rfl
      have hgf : groupsFilled s.byteCount.toNat 1 = 1 := by rw [hc]; rfl
      have htb : textBytes s.params.skip s.txtIn.rest = unserved g 3 ++ textBytes s.params.skip left := by
        rw [← hu, hub]
      refine ⟨fun _ => ⟨g, 2, left, ?_, ?_, ⟨?_, ?_, ?_, ?_, ?_⟩, by decide⟩, fun hl => ?_⟩
      · rw [bind_of_ok (fillGroup_ok_run h hg)]
        dsimp only
        rw [serveByte_run]
        have : BitVec.ofNat 8 (littleEndian ((upcoming s).take 1)) = servedByte g 3 := by
          rw [hub, show unserved g 3 = servedByte g 3 :: unserved g 2 from unserved_succ g 3 (by decide)]
          simp [littleEndian]
        rw [this]
        simp only [show (3 : BitVec 2) - 1 = 2 from by decide]
        rfl
      · rw [hub, show unserved g 3 = servedByte g 3 :: unserved g 2 from unserved_succ g 3 (by decide)]
        rfl
      · rw [hgf, htb, List.take_append_of_le_length (by simp [unserved]), List.take_of_length_le (by simp [unserved]),
          lastGroup_unserved]
      · rw [hgf, hc]; rfl
      · rw [hgf, htb, List.drop_append_of_le_length (by simp [unserved]), List.drop_of_length_le (by simp [unserved]),
          List.nil_append]
      · rw [hgf]; exact nextSymbols_taken hg
      · rw [hsc]
      · rw [hub] at hl; simp [unserved] at hl
  · have hub : upcoming s = servedByte s.bitBuffer s.byteCount ::
        (unserved s.bitBuffer (s.byteCount - 1).toNat ++ textBytes s.params.skip s.txtIn.rest) := by
      rw [upcoming, unserved_succ _ _ hc]; rfl
    simp only [hc, if_false]
    have hgf : groupsFilled s.byteCount.toNat 1 = 0 := by
      revert hc; generalize s.byteCount = c; revert c; decide
    refine ⟨fun _ => ⟨s.bitBuffer, s.byteCount - 1, s.txtIn.rest, ?_, ?_, ⟨?_, ?_, ?_, ?_, rfl⟩, ?_⟩, fun hl => ?_⟩
    · rw [serveByte_run, hub]
      simp [littleEndian, served]
    · rw [hub]; rfl
    · rw [hgf]; rfl
    · rw [hgf]; revert hc; generalize s.byteCount = c; revert c; decide
    · rw [hgf]; rfl
    · rw [hgf]; exact ⟨[], rfl, .nil _⟩
    · revert hc; generalize s.byteCount = c; revert c; decide
    · rw [hub] at hl; simp at hl

theorem littleEndian_lt (bs : List Byte) : littleEndian bs < 256 ^ bs.length := by
  induction bs with
  | nil => simp [littleEndian]
  | cons b bs ih =>
    have := b.isLt
    simp only [littleEndian, List.length_cons, pow_succ]
    omega

theorem littleEndian_append (xs ys : List Byte) :
    littleEndian (xs ++ ys) = littleEndian xs + 256 ^ xs.length * littleEndian ys := by
  induction xs with
  | nil => simp [littleEndian]
  | cons b bs ih =>
    simp only [List.cons_append, littleEndian, ih, List.length_cons, pow_succ]
    ring

theorem append_ofNat {w k : Nat} (hw : 2 ^ w = 256 ^ k) (lo hi : Nat) (hlo : lo < 256 ^ k) :
    (BitVec.ofNat w hi ++ BitVec.ofNat w lo : BitVec (w + w)) = BitVec.ofNat (w + w) (lo + 256 ^ k * hi) := by
  apply BitVec.eq_of_toNat_eq
  rw [BitVec.toNat_append]
  simp only [BitVec.toNat_ofNat]
  rw [Nat.mod_eq_of_lt (a := lo) (by omega), ← Nat.shiftLeft_add_eq_or_of_lt (by omega),
    Nat.shiftLeft_eq, Nat.pow_add, Nat.mod_mul, ← hw]
  have h1 : (lo + 2 ^ w * hi) % 2 ^ w = lo := by
    rw [Nat.add_mul_mod_self_left]; exact Nat.mod_eq_of_lt (by omega)
  have h2 : (lo + 2 ^ w * hi) / 2 ^ w = hi := by
    rw [Nat.add_mul_div_left _ _ (Nat.two_pow_pos w), Nat.div_eq_of_lt (by omega)]; omega
  rw [h1, h2]
  ring

/-- Reading two halves, low half first, reads twice the bytes (rules R98 to R100). -/
theorem getHalves_reads {w n : Nat} (hw : 2 ^ w = 256 ^ n) {m : Proc (Except Status (BitVec w))}
    (hr : Reads m n) : Reads (getHalves m) (n + n) := by
  intro s h hm
  obtain ⟨hok, herr⟩ := hr s h hm
  refine ⟨fun hl => ?_, fun hl => ?_⟩
  · obtain ⟨g, c, rest, hrun, hup, hsv, _⟩ := hok (by omega)
    obtain ⟨hok2, _⟩ := hr (served s g c rest) h hm
    obtain ⟨g2, c2, rest2, hrun2, hup2, hsv2, h3⟩ := hok2 (by rw [hup, List.length_drop]; omega)
    refine ⟨g2, c2, rest2, ?_, ?_, ?_, h3⟩
    · unfold getHalves
      rw [bind_of_ok hrun]
      dsimp only
      rw [bind_of_ok hrun2]
      simp only [EStateM.run_pure, served_served]
      congr 2
      rw [hup, append_ofNat hw _ _ (by
        have := littleEndian_lt ((upcoming s).take n)
        rwa [List.length_take, Nat.min_eq_left (by omega)] at this)]
      congr 1
      have := littleEndian_append ((upcoming s).take n) (((upcoming s).drop n).take n)
      rw [List.length_take, Nat.min_eq_left (by omega), ← List.take_add] at this
      exact this.symm
    · rw [served_served] at hup2
      rw [hup2, hup, List.drop_drop]
    · exact hsv.trans hsv2
  · by_cases hn : n ≤ (upcoming s).length
    · obtain ⟨g, c, rest, hrun, hup, hsv, _⟩ := hok hn
      obtain ⟨_, herr2⟩ := hr (served s g c rest) h hm
      have hrun2 := herr2 (by rw [hup, List.length_drop]; omega)
      unfold getHalves
      rw [bind_of_ok hrun]
      dsimp only
      rw [bind_of_ok hrun2]
      simp only [EStateM.run_pure, served_served, textEnd, served_rest, served_params, served_bitBuffer,
        hsv.ends, hsv.bytes]
      rw [hsv.group, lastGroup_append]
    · have hrun := herr (by omega)
      unfold getHalves
      rw [bind_of_ok hrun]
      rfl

theorem getInt16_reads : Reads getInt16 2 := getHalves_reads (by norm_num) getByte_reads
theorem getInt32_reads : Reads getInt32 4 := getHalves_reads (by norm_num) getInt16_reads
theorem getInt64_reads : Reads getInt64 8 := getHalves_reads (by norm_num) getInt32_reads

theorem getByte_off {s : State} (hm : s.mode ≠ .decoding) :
    getByte.run s = .ok (.error .notActive) s := by
  unfold getByte
  rw [getState_bind]
  simp [decActive, hm]

theorem getHalves_off {w : Nat} {m : Proc (Except Status (BitVec w))} {s : State}
    (h : m.run s = .ok (.error .notActive) s) :
    (getHalves m).run s = .ok (.error .notActive) s := by
  unfold getHalves
  rw [bind_of_ok h]
  rfl

/-- A GET command whose read gives a value (rules R97 to R100). -/
theorem getCommand_ok_run {w : Nat} {m : Proc (Except Status (BitVec w))} {s t : State} {v : BitVec w}
    (h : m.run s = .ok (.ok v) t) :
    (getCommand m).run s = .ok { status := .ok, r0 := v.zeroExtend 64 } t := by
  unfold getCommand
  rw [bind_of_ok h]
  rfl

/-- A GET command whose read fails: `R0` is a free value (rules R97 to R100). -/
theorem getCommand_error_run {w : Nat} {m : Proc (Except Status (BitVec w))} {s t : State} {st : Status}
    (h : m.run s = .ok (.error st) t) :
    (getCommand m).run s =
      .ok { status := st, r0 := Config.freeResult t.freeCount }
        { t with freeCount := t.freeCount + 1 } := by
  unfold getCommand
  rw [bind_of_ok h]
  rfl

/-! ### Sessions -/

/-- The state after `BeginDecode()` (rule R90). -/
def decodeBegun (s : State) : State :=
  { sessionClosed s with
    bitBuffer := 0
    byteCount := 0
    column := 0
    txtIn := sourceAttached (sessionClosed s).txtIn
    mode := if (nextAnswer s.txtIn.opens).isSome then .decoding else .idle }

@[simp] theorem decodeBegun_resetIn (s : State) : (decodeBegun s).resetIn = s.resetIn := rfl

theorem sessionClosed_txtIn_opens (s : State) : (sessionClosed s).txtIn.opens = s.txtIn.opens := by
  unfold sessionClosed; dsimp only; split <;> rfl

theorem beginDecode_run {s : State} (h : s.resetIn = []) :
    beginDecode.run s = .ok (nextAnswer s.txtIn.opens).isSome (decodeBegun s) := by
  unfold beginDecode
  rw [bind_of_ok (closeSession_run h)]
  unfold clearCodec
  rw [modifyState_bind, bind_of_ok (openSource_run (by exact h) .txtIn), modifyState_bind]
  simp only [EStateM.run_pure, sourceOf_txtIn, withSource_txtIn, sessionClosed_txtIn_opens]
  rfl

/-- The state after `BeginDecode()`, granted (rule R90). -/
theorem decodeBegun_granted {s : State} {text : List Byte} (h : nextAnswer s.txtIn.opens = some text) :
    decodeBegun s =
      { sessionClosed s with
        mode := .decoding
        bitBuffer := 0
        byteCount := 0
        column := 0
        txtIn := { attached := true, rest := text, opens := restAnswers s.txtIn.opens } } := by
  have h' : nextAnswer (sessionClosed s).txtIn.opens = some text := by rw [sessionClosed_txtIn_opens]; exact h
  unfold decodeBegun sourceAttached
  rw [h', h, sessionClosed_txtIn_opens]
  rfl

/-- The state after `BeginDecode()`, refused (rule R90). -/
theorem decodeBegun_refused {s : State} (h : nextAnswer s.txtIn.opens = none) :
    decodeBegun s =
      { sessionClosed s with
        mode := .idle
        bitBuffer := 0
        byteCount := 0
        column := 0
        txtIn := { (sessionClosed s).txtIn with opens := restAnswers s.txtIn.opens } } := by
  have h' : nextAnswer (sessionClosed s).txtIn.opens = none := by rw [sessionClosed_txtIn_opens]; exact h
  unfold decodeBegun sourceAttached
  rw [h', h, sessionClosed_txtIn_opens]
  rfl

theorem endDecode_run {s : State} (h : s.resetIn = []) :
    endDecode.run s = .ok () { s with txtIn := sourceDetached s.txtIn, mode := .idle } := by
  unfold endDecode
  rw [bind_of_ok (closeSource_run h .txtIn)]
  rfl

end Sys2Proof.Machine
end

