-- ==== Sys2Proof/Laws/Invariant.lean ====
section
/-! SUPPORT. What the procedures keep, whenever reset may come: the ports hold legal histories (`Legal`), attached as the
procedure has them (`At`), and the registers meet a predicate; a reset on the way leaves a state that meets the
invariant. -/

namespace Sys2Proof.Machine

/-! ### Legal ports -/

/-- The part of the invariant that holds inside a command too: whole histories, nothing behind a port that is not
attached, draws and primes in range (rules R31, R32, R34, R43). -/
structure Legal (s : State) : Prop where
  txtOut : history s.txtOut.events = some s.txtOut.attached
  ptOut : history s.ptOut.events = some s.ptOut.attached
  txtIn : s.txtIn.attached = false → s.txtIn.rest = []
  ptIn : s.ptIn.attached = false → s.ptIn.rest = []
  draws : ∀ v ∈ s.rnd, s.params.keyLo ≤ v ∧ v ≤ s.params.keyHi
  phase : phaseOk s.params s.keygen

/-- A predicate of the four registers. -/
abbrev Registers := Mode → BitVec 24 → BitVec 2 → BitVec 6 → Prop

/-- The ports are legal, attached as the four Booleans say (`TXT_OUT`, `TXT_IN`, `PT_IN`, `PT_OUT`), and the registers meet
a predicate. -/
structure At (a b c d : Bool) (R : Registers) (s : State) : Prop where
  legal : Legal s
  txtOut : s.txtOut.attached = a
  txtIn : s.txtIn.attached = b
  ptIn : s.ptIn.attached = c
  ptOut : s.ptOut.attached = d
  registers : R s.mode s.bitBuffer s.byteCount s.column

theorem history_append (events : List SinkEvent) (e : SinkEvent) :
    history (events ++ [e]) = historyStep (history events) e := by
  simp [history, List.foldl_append]

/-- A reset of a legal state leaves one that meets the invariant (rules R25, R190). -/
theorem Legal.resetBlock_inv {s : State} (h : Legal s) : (resetBlock s).Inv := by
  have hk : ∀ k : Sink, history k.events = some k.attached → history (sinkReset k).events = some false := by
    intro k hk
    unfold sinkReset
    cases ha : k.attached
    · rw [if_neg (by simp), hk, ha]
    · rw [if_pos rfl, sinkDetached_events, history_append, hk, ha]; rfl
  have hr : ∀ k : Source, (k.attached = false → k.rest = []) → (sourceReset k).rest = [] := by
    intro k hk
    unfold sourceReset
    cases ha : k.attached
    · rw [if_neg (by simp)]; exact hk ha
    · rw [if_pos rfl]; rfl
  exact
    { txtOutAttached := by simp
      txtInAttached := by simp
      ptInDetached := by simp
      ptOutDetached := by simp
      txtOutHistory := by simpa using hk _ h.txtOut
      ptOutHistory := by simpa using hk _ h.ptOut
      txtInRest := fun _ => hr _ h.txtIn
      ptInRest := hr _ h.ptIn
      steadyCount := by simp
      pendingFits := by simp
      lineGroups := by simp
      decodeColumn := by simp
      drawsInRange := h.draws
      keygenPhase := trivial }

/-- The registers of a state between two steps (rules R13, R14, R15, R71, R72). -/
def steady : Registers := fun m b n c =>
  n ≠ 3 ∧ (m = .encoding → b.toNat < 256 ^ n.toNat) ∧ c.toNat % 4 = 0 ∧ (m = .decoding → c = 0)

/-- The invariant, as legal ports and steady registers. -/
theorem inv_iff_at (s : State) :
    s.Inv ↔ At (s.mode = .encoding) (s.mode = .decoding) false false steady s := by
  constructor
  · intro h
    exact ⟨⟨h.txtOutHistory, h.ptOutHistory, h.txtInRest, fun _ => h.ptInRest, h.drawsInRange, h.keygenPhase⟩,
      Bool.eq_iff_iff.mpr (h.txtOutAttached.trans decide_eq_true_iff.symm),
      Bool.eq_iff_iff.mpr (h.txtInAttached.trans decide_eq_true_iff.symm),
      h.ptInDetached, h.ptOutDetached, h.steadyCount, h.pendingFits, h.lineGroups, h.decodeColumn⟩
  · intro h
    obtain ⟨hl, h1, h2, h3, h4, h5, h6, h7, h8⟩ := h
    exact ⟨by simp [h1], by simp [h2], h3, h4, hl.txtOut, hl.ptOut, hl.txtIn, hl.ptIn h3, h5, h6, h7, h8,
      hl.draws, hl.phase⟩

section rules
variable {a b c d : Bool} {R : Registers}

theorem At.weaken {R' : Registers} {s : State} (h : At a b c d R s)
    (hr : R s.mode s.bitBuffer s.byteCount s.column → R' s.mode s.bitBuffer s.byteCount s.column) :
    At a b c d R' s := ⟨h.legal, h.txtOut, h.txtIn, h.ptIn, h.ptOut, hr h.registers⟩

/-- A procedure that keeps legal ports, with what it needs and what it leaves. -/
abbrev Keeps {α : Type} (pre : State → Prop) (m : Proc α) (post : α → State → Prop) : Prop :=
  Ensures pre m post Legal

theorem keeps_unit {pre : State → Prop} (hl : ∀ s, pre s → Legal s) (hp : ∀ s l, pre s → pre { s with resetIn := l }) :
    Keeps pre unit (fun _ => pre) := ensures_unit hl hp

theorem at_resetIn {s : State} (h : At a b c d R s) (l : List Nat) : At a b c d R { s with resetIn := l } :=
  ⟨⟨h.legal.txtOut, h.legal.ptOut, h.legal.txtIn, h.legal.ptIn, h.legal.draws, h.legal.phase⟩, h.txtOut, h.txtIn,
    h.ptIn, h.ptOut, h.registers⟩

theorem keeps_unit_at : Keeps (At a b c d R) unit (fun _ => At a b c d R) :=
  keeps_unit (fun _ h => h.legal) (fun _ l h => at_resetIn h l)

/-- A unit of work, then a change of the state. -/
theorem keeps_act {post : State → Prop} {g : State → State} (h : ∀ s, At a b c d R s → post (g s)) :
    Keeps (At a b c d R) (do unit; modifyState g) (fun _ => post) :=
  ensures_bind keeps_unit_at fun _ => ensures_modifyState h

theorem keeps_pure {α : Type} {pre : State → Prop} (x : α) : Keeps pre (pure x) (fun _ => pre) :=
  ensures_pure fun _ h => h

/-- Reading the state, where what follows is known for each state. -/
theorem keeps_get {β : Type} {pre : State → Prop} {f : State → Proc β} {post : β → State → Prop}
    (h : ∀ s, pre s → Keeps (fun t => t = s ∧ pre t) (f s) post) : Keeps pre (getState >>= f) post := by
  intro s hs
  exact h s hs s ⟨rfl, hs⟩

theorem keeps_weaken {α : Type} {pre pre' : State → Prop} {m : Proc α} {post : α → State → Prop}
    (h : Keeps pre' m post) (hp : ∀ s, pre s → pre' s) : Keeps pre m post :=
  ensures_mono h hp (fun _ _ h => h) (fun _ h => h)

theorem keeps_after {α : Type} {pre : State → Prop} {m : Proc α} {post post' : α → State → Prop}
    (h : Keeps pre m post') (hp : ∀ x s, post' x s → post x s) : Keeps pre m post :=
  ensures_mono h (fun _ h => h) hp (fun _ h => h)

theorem keeps_onlyIf {pre post : State → Prop} {q : Bool} {m : Proc Unit}
    (h1 : q = true → Keeps pre m (fun _ => post)) (h2 : q = false → ∀ s, pre s → post s) :
    Keeps pre (onlyIf q m) (fun _ => post) := by
  cases q
  · exact ensures_pure (h2 rfl)
  · exact h1 rfl

/-! ### The primitives -/

theorem history_byte {k : Sink} (h : history k.events = some k.attached) (ha : k.attached = true) {v : Byte} :
    history (addEvent k (.byte v)).events = some (addEvent k (.byte v)).attached := by
  rw [addEvent_events, history_append, h, addEvent_attached, ha]; rfl

theorem history_closed {k : Sink} (h : history k.events = some k.attached) (ha : k.attached = true) :
    history (sinkDetached k).events = some (sinkDetached k).attached := by
  rw [sinkDetached_events, history_append, h, sinkDetached_attached, ha]; rfl

theorem keeps_memWrite_txtOut (v : Byte) :
    Keeps (At true b c d R) (memWrite .txtOut v) (fun _ => At true b c d R) :=
  keeps_act fun _ h =>
    ⟨⟨history_byte h.legal.txtOut h.txtOut, h.legal.ptOut, h.legal.txtIn, h.legal.ptIn,
      h.legal.draws, h.legal.phase⟩, h.txtOut, h.txtIn, h.ptIn, h.ptOut, h.registers⟩

theorem keeps_memWrite_ptOut (v : Byte) :
    Keeps (At a b c true R) (memWrite .ptOut v) (fun _ => At a b c true R) :=
  keeps_act fun _ h =>
    ⟨⟨h.legal.txtOut, history_byte h.legal.ptOut h.ptOut, h.legal.txtIn, h.legal.ptIn,
      h.legal.draws, h.legal.phase⟩, h.txtOut, h.txtIn, h.ptIn, h.ptOut, h.registers⟩

theorem keeps_closeSink_txtOut :
    Keeps (At true b c d R) (closeSink .txtOut) (fun _ => At false b c d R) :=
  keeps_act fun _ h =>
    ⟨⟨history_closed h.legal.txtOut h.txtOut, h.legal.ptOut, h.legal.txtIn, h.legal.ptIn,
      h.legal.draws, h.legal.phase⟩, rfl, h.txtIn, h.ptIn, h.ptOut, h.registers⟩

theorem keeps_closeSink_ptOut :
    Keeps (At a b c true R) (closeSink .ptOut) (fun _ => At a b c false R) :=
  keeps_act fun _ h =>
    ⟨⟨h.legal.txtOut, history_closed h.legal.ptOut h.ptOut, h.legal.txtIn, h.legal.ptIn,
      h.legal.draws, h.legal.phase⟩, h.txtOut, h.txtIn, h.ptIn, rfl, h.registers⟩

theorem keeps_closeSource_txtIn :
    Keeps (At a b c d R) (closeSource .txtIn) (fun _ => At a false c d R) :=
  keeps_act fun _ h =>
    ⟨⟨h.legal.txtOut, h.legal.ptOut, fun _ => rfl, h.legal.ptIn, h.legal.draws, h.legal.phase⟩, h.txtOut, rfl,
      h.ptIn, h.ptOut, h.registers⟩

theorem keeps_closeSource_ptIn :
    Keeps (At a b c d R) (closeSource .ptIn) (fun _ => At a b false d R) :=
  keeps_act fun _ h =>
    ⟨⟨h.legal.txtOut, h.legal.ptOut, h.legal.txtIn, fun _ => rfl, h.legal.draws, h.legal.phase⟩, h.txtOut, h.txtIn,
      rfl, h.ptOut, h.registers⟩

theorem sinkAttached_legal {k : Sink} (h : history k.events = some k.attached) (ha : k.attached = false) :
    history (sinkAttached k).events = some (sinkAttached k).attached ∧
      (sinkAttached k).attached = nextAnswer k.opens := by
  cases hn : nextAnswer k.opens
  · rw [sinkAttached_refused k hn]; exact ⟨h, ha⟩
  · rw [sinkAttached_granted k hn]
    exact ⟨by rw [history_append, h, ha]; rfl, rfl⟩

theorem sourceAttached_legal {k : Source} (h : k.attached = false → k.rest = []) (ha : k.attached = false) :
    ((sourceAttached k).attached = false → (sourceAttached k).rest = []) ∧
      (sourceAttached k).attached = (nextAnswer k.opens).isSome := by
  cases hn : nextAnswer k.opens
  · rw [sourceAttached_refused k hn]; exact ⟨h, ha⟩
  · rw [sourceAttached_granted k hn]; exact ⟨by simp, rfl⟩

theorem keeps_openSink_txtOut :
    Keeps (At false b c d R) (openSink .txtOut) (fun g => At g b c d R) := by
  refine ensures_bind keeps_unit_at fun _ => keeps_get fun s hs => ?_
  refine ensures_bind (mid := fun _ => At (nextAnswer s.txtOut.opens) b c d R) ?_ fun _ => ensures_pure fun _ h => h
  refine ensures_modifyState ?_
  rintro t ⟨rfl, h⟩
  obtain ⟨h1, h2⟩ := sinkAttached_legal h.legal.txtOut h.txtOut
  exact ⟨⟨h1, h.legal.ptOut, h.legal.txtIn, h.legal.ptIn, h.legal.draws, h.legal.phase⟩, h2, h.txtIn, h.ptIn,
    h.ptOut, h.registers⟩

theorem keeps_openSink_ptOut :
    Keeps (At a b c false R) (openSink .ptOut) (fun g => At a b c g R) := by
  refine ensures_bind keeps_unit_at fun _ => keeps_get fun s hs => ?_
  refine ensures_bind (mid := fun _ => At a b c (nextAnswer s.ptOut.opens) R) ?_ fun _ => ensures_pure fun _ h => h
  refine ensures_modifyState ?_
  rintro t ⟨rfl, h⟩
  obtain ⟨h1, h2⟩ := sinkAttached_legal h.legal.ptOut h.ptOut
  exact ⟨⟨h.legal.txtOut, h1, h.legal.txtIn, h.legal.ptIn, h.legal.draws, h.legal.phase⟩, h.txtOut, h.txtIn,
    h.ptIn, h2, h.registers⟩

theorem keeps_openSource_txtIn :
    Keeps (At a false c d R) (openSource .txtIn) (fun g => At a g c d R) := by
  refine ensures_bind keeps_unit_at fun _ => keeps_get fun s hs => ?_
  refine ensures_bind (mid := fun _ => At a (nextAnswer s.txtIn.opens).isSome c d R) ?_ fun _ => ensures_pure fun _ h => h
  refine ensures_modifyState ?_
  rintro t ⟨rfl, h⟩
  obtain ⟨h1, h2⟩ := sourceAttached_legal h.legal.txtIn h.txtIn
  exact ⟨⟨h.legal.txtOut, h.legal.ptOut, h1, h.legal.ptIn, h.legal.draws, h.legal.phase⟩, h.txtOut, h2, h.ptIn,
    h.ptOut, h.registers⟩

theorem keeps_openSource_ptIn :
    Keeps (At a b false d R) (openSource .ptIn) (fun g => At a b g d R) := by
  refine ensures_bind keeps_unit_at fun _ => keeps_get fun s hs => ?_
  refine ensures_bind (mid := fun _ => At a b (nextAnswer s.ptIn.opens).isSome d R) ?_ fun _ => ensures_pure fun _ h => h
  refine ensures_modifyState ?_
  rintro t ⟨rfl, h⟩
  obtain ⟨h1, h2⟩ := sourceAttached_legal h.legal.ptIn h.ptIn
  exact ⟨⟨h.legal.txtOut, h.legal.ptOut, h.legal.txtIn, h1, h.legal.draws, h.legal.phase⟩, h.txtOut, h.txtIn, h2,
    h.ptOut, h.registers⟩

theorem keeps_memRead_txtIn :
    Keeps (At a true c d R) (memRead .txtIn) (fun _ => At a true c d R) := by
  refine ensures_bind keeps_unit_at fun _ => keeps_get fun s hs => ?_
  refine ensures_bind (mid := fun _ => At a true c d R) ?_ fun _ => keeps_pure _
  refine ensures_modifyState ?_
  rintro t ⟨rfl, h⟩
  exact ⟨⟨h.legal.txtOut, h.legal.ptOut, fun h' => absurd (h.txtIn.symm.trans h') (by decide), h.legal.ptIn,
    h.legal.draws, h.legal.phase⟩, h.txtOut, h.txtIn, h.ptIn, h.ptOut, h.registers⟩

theorem keeps_memRead_ptIn :
    Keeps (At a b true d R) (memRead .ptIn) (fun _ => At a b true d R) := by
  refine ensures_bind keeps_unit_at fun _ => keeps_get fun s hs => ?_
  refine ensures_bind (mid := fun _ => At a b true d R) ?_ fun _ => keeps_pure _
  refine ensures_modifyState ?_
  rintro t ⟨rfl, h⟩
  exact ⟨⟨h.legal.txtOut, h.legal.ptOut, h.legal.txtIn, fun h' => absurd (h.ptIn.symm.trans h') (by decide),
    h.legal.draws, h.legal.phase⟩, h.txtOut, h.txtIn, h.ptIn, h.ptOut, h.registers⟩

/-- Assigning registers. -/
theorem keeps_assign {R' : Registers} {g : State → State}
    (hr : ∀ s, R s.mode s.bitBuffer s.byteCount s.column →
      R' (g s).mode (g s).bitBuffer (g s).byteCount (g s).column)
    (h1 : ∀ s, (g s).params = s.params := by intro s; rfl)
    (h2 : ∀ s, (g s).txtOut = s.txtOut := by intro s; rfl)
    (h3 : ∀ s, (g s).ptOut = s.ptOut := by intro s; rfl)
    (h4 : ∀ s, (g s).txtIn = s.txtIn := by intro s; rfl)
    (h5 : ∀ s, (g s).ptIn = s.ptIn := by intro s; rfl)
    (h6 : ∀ s, (g s).rnd = s.rnd := by intro s; rfl)
    (h7 : ∀ s, (g s).keygen = s.keygen := by intro s; rfl) :
    Keeps (At a b c d R) (modifyState g) (fun _ => At a b c d R') :=
  ensures_modifyState fun s h =>
    ⟨⟨by rw [h2]; exact h.legal.txtOut, by rw [h3]; exact h.legal.ptOut, by rw [h4]; exact h.legal.txtIn,
      by rw [h5]; exact h.legal.ptIn, by rw [h6, h1]; exact h.legal.draws, by rw [h7, h1]; exact h.legal.phase⟩,
      by rw [h2]; exact h.txtOut, by rw [h4]; exact h.txtIn, by rw [h5]; exact h.ptIn, by rw [h3]; exact h.ptOut,
      hr s h.registers⟩

theorem keeps_respond (r : Result) : Keeps (At a b c d R) (respond r) (fun _ => At a b c d R) :=
  ensures_bind keeps_unit_at fun _ => keeps_assign fun _ h => h

end rules

/-! ### The encoder -/

/-- The registers in `Encoding` mode between raw bytes (rules R13, R71). -/
def encoderSteady : Registers := fun m g n c =>
  m = .encoding ∧ n ≠ 3 ∧ g.toNat < 256 ^ n.toNat ∧ c.toNat % 4 = 0

/-- The registers in `Encoding` mode inside a group. -/
def inGroup (k : Nat) : Registers := fun m _ _ c => m = .encoding ∧ c.toNat % 4 = k

/-- The registers a session leaves (rule R16). -/
def idleSteady : Registers := fun m _ n c => m = .idle ∧ n ≠ 3 ∧ c.toNat % 4 = 0

section encoder
variable {b c d : Bool}

theorem keeps_emitSymbol (ch : Byte) (k : Nat) :
    Keeps (At true b c d (inGroup k)) (emitSymbol ch) (fun _ => At true b c d (inGroup ((k + 1) % 4))) := by
  refine ensures_bind (keeps_memWrite_txtOut _) fun _ => keeps_get fun s hs => ?_
  refine ensures_bind (mid := fun _ => At true b c d (inGroup k)) ?_ fun _ => keeps_assign fun s h => ⟨h.1, ?_⟩
  · exact keeps_weaken (keeps_onlyIf (fun _ => keeps_memWrite_txtOut _) fun _ _ h => h) fun _ h => h.2
  · have h2 : s.column.toNat % 4 = k := h.2
    show (s.column + 1).toNat % 4 = _
    rw [BitVec.toNat_add]
    show (s.column.toNat + 1) % 64 % 4 = _
    omega

theorem keeps_flushGroup (p : BitVec 2) :
    Keeps (At true b c d (inGroup 0)) (flushGroup p) (fun _ => At true b c d encoderSteady) := by
  refine keeps_get fun s hs => ?_
  refine keeps_weaken ?_ fun _ h => h.2
  refine ensures_bind (keeps_emitSymbol _ 0) fun _ => ensures_bind (keeps_emitSymbol _ 1) fun _ =>
    ensures_bind (keeps_emitSymbol _ 2) fun _ => ensures_bind (keeps_emitSymbol _ 3) fun _ =>
    keeps_assign fun s h => ⟨h.1, (by decide : (0 : BitVec 2) ≠ 3), ?_, h.2⟩
  show (0 : BitVec 24).toNat < 256 ^ (0 : BitVec 2).toNat
  decide

theorem pushByte_fits {g : BitVec 24} {n : BitVec 2} (hn : n ≠ 3) (hg : g.toNat < 256 ^ n.toNat) (v : Byte) :
    (pushByte g v).toNat < 256 ^ (n + 1).toNat := by
  have hv := v.isLt
  have h256 : (256 : BitVec 24).toNat = 256 := rfl
  have : (pushByte g v).toNat ≤ g.toNat * 256 + v.toNat := by
    simp only [pushByte, BitVec.toNat_add, BitVec.toNat_mul, BitVec.toNat_setWidth, h256]
    omega
  have hc : n = 0 ∨ n = 1 ∨ n = 2 := by clear hg; revert hn; revert n; decide
  rcases hc with rfl | rfl | rfl
  · have : g.toNat < 1 := hg
    show _ < 256
    omega
  · have : g.toNat < 256 := hg
    show _ < 65536
    omega
  · have : g.toNat < 65536 := hg
    show _ < 16777216
    omega

theorem keeps_putByte (v : Byte) (p : BitVec 2) :
    Keeps (At true b c d encoderSteady) (putByte v p) (fun _ => At true b c d encoderSteady) := by
  refine keeps_get fun s hs => keeps_weaken ?_ fun _ h => h.2
  refine keeps_onlyIf (fun _ => ?_) fun _ _ h => h
  refine ensures_bind (mid := fun _ => At true b c d fun m g n col =>
    m = .encoding ∧ g.toNat < 256 ^ n.toNat ∧ col.toNat % 4 = 0) ?_ fun _ => ?_
  · exact keeps_assign fun s h => ⟨h.1, pushByte_fits h.2.1 h.2.2.1 v, h.2.2.2⟩
  · refine keeps_get fun t ht => keeps_onlyIf (fun hc => ?_) fun hc => ?_
    · exact keeps_weaken (keeps_flushGroup p) fun _ h => h.2.weaken fun h => ⟨h.1, h.2.2⟩
    · rintro u ⟨rfl, h⟩
      exact h.weaken fun h => ⟨h.1, of_decide_eq_false hc, h.2⟩

theorem keeps_putInt16 (v : BitVec 16) (p : BitVec 2) :
    Keeps (At true b c d encoderSteady) (putInt16 v p) (fun _ => At true b c d encoderSteady) :=
  ensures_bind (keeps_putByte _ _) fun _ => keeps_putByte _ _

theorem keeps_putInt32 (v : BitVec 32) (p : BitVec 2) :
    Keeps (At true b c d encoderSteady) (putInt32 v p) (fun _ => At true b c d encoderSteady) :=
  ensures_bind (keeps_putInt16 _ _) fun _ => keeps_putInt16 _ _

theorem keeps_putInt64 (v : BitVec 64) (p : BitVec 2) :
    Keeps (At true b c d encoderSteady) (putInt64 v p) (fun _ => At true b c d encoderSteady) :=
  ensures_bind (keeps_putInt32 _ _) fun _ => keeps_putInt32 _ _

/-- A session's port, attached as `mode` says, with any registers. -/
def SessionAt (c d : Bool) (s : State) : Prop :=
  At (s.mode = .encoding) (s.mode = .decoding) c d (fun _ _ _ _ => True) s

theorem SessionAt.at {s : State} {m : Mode} (h : SessionAt c d s) (hm : s.mode = m) :
    At (m = .encoding) (m = .decoding) c d (fun m' _ _ _ => m' = m) s := by
  subst hm
  exact ⟨h.legal, h.txtOut, h.txtIn, h.ptIn, h.ptOut, rfl⟩

theorem keeps_closeSession :
    Keeps (SessionAt c d) closeSession (fun _ => At false false c d fun _ _ _ _ => True) := by
  refine keeps_get fun s hs => ?_
  cases hm : s.mode
  · refine keeps_weaken (pre' := At false false c d fun _ _ _ _ => True) ?_ ?_
    · refine ensures_bind (keeps_onlyIf (post := At false false c d fun _ _ _ _ => True) ?_ fun _ _ h => h) fun _ =>
        keeps_onlyIf ?_ fun _ _ h => h <;> simp [encActive, decActive, hm]
    · rintro t ⟨rfl, h⟩; exact (h.at hm).weaken fun _ => trivial
  · refine keeps_weaken (pre' := At true false c d fun _ _ _ _ => True) ?_ ?_
    · exact ensures_bind (keeps_onlyIf (post := At false false c d fun _ _ _ _ => True)
        (fun _ => keeps_closeSink_txtOut) (by simp [encActive, hm])) fun _ =>
        keeps_onlyIf (by simp [decActive, hm]) fun _ _ h => h
    · rintro t ⟨rfl, h⟩; exact (h.at hm).weaken fun _ => trivial
  · refine keeps_weaken (pre' := At false true c d fun _ _ _ _ => True) ?_ ?_
    · exact ensures_bind (keeps_onlyIf (post := At false true c d fun _ _ _ _ => True)
        (by simp [encActive, hm]) (fun _ _ h => h)) fun _ =>
        keeps_onlyIf (fun _ => keeps_closeSource_txtIn) (by simp [decActive, hm])
    · rintro t ⟨rfl, h⟩; exact (h.at hm).weaken fun _ => trivial

/-- The cleared registers. -/
def cleared (m : Mode) : Registers := fun m' g n col => m' = m ∧ g = 0 ∧ n = 0 ∧ col = 0

theorem keeps_beginEncode :
    Keeps (SessionAt c d) beginEncode (fun g => At g false c d (cleared (if g then .encoding else .idle))) := by
  refine ensures_bind keeps_closeSession fun _ => ?_
  refine ensures_bind (mid := fun _ => At false false c d fun _ g n col => g = 0 ∧ n = 0 ∧ col = 0)
    (keeps_assign fun _ _ => ⟨rfl, rfl, rfl⟩) fun _ => ?_
  refine ensures_bind keeps_openSink_txtOut fun g => ?_
  exact ensures_bind (mid := fun _ => At g false c d (cleared (if g then .encoding else .idle)))
    (keeps_assign fun _ h => ⟨rfl, h⟩) fun _ => ensures_pure fun _ h => h

theorem keeps_endEncode :
    Keeps (At true b c d encoderSteady) endEncode (fun _ => At false b c d idleSteady) := by
  refine keeps_get fun s hs => keeps_weaken ?_ fun _ h => h.2
  refine ensures_bind (mid := fun _ => At true b c d encoderSteady) ?_ fun _ => ?_
  · unfold padGroup
    split
    · exact ensures_bind (keeps_putByte _ _) fun _ => keeps_putByte _ _
    split
    · exact keeps_putByte _ _
    · exact keeps_pure _
  · exact ensures_bind keeps_closeSink_txtOut fun _ => keeps_assign fun _ h => ⟨rfl, h.2.1, h.2.2.2⟩

end encoder

/-! ### The decoder -/

/-- The registers in `Decoding` mode between raw bytes (rules R14, R15). -/
def decoderSteady : Registers := fun m _ n col => m = .decoding ∧ n ≠ 3 ∧ col = 0

section decoder
variable {a c d : Bool} {R : Registers}

theorem keeps_beginDecode :
    Keeps (SessionAt c d) beginDecode (fun g => At false g c d (cleared (if g then .decoding else .idle))) := by
  refine ensures_bind keeps_closeSession fun _ => ?_
  refine ensures_bind (mid := fun _ => At false false c d fun _ g n col => g = 0 ∧ n = 0 ∧ col = 0)
    (keeps_assign fun _ _ => ⟨rfl, rfl, rfl⟩) fun _ => ?_
  refine ensures_bind keeps_openSource_txtIn fun g => ?_
  exact ensures_bind (mid := fun _ => At false g c d (cleared (if g then .decoding else .idle)))
    (keeps_assign fun _ h => ⟨rfl, h⟩) fun _ => ensures_pure fun _ h => h

theorem keeps_readSymbolLoop (turns : Nat) :
    Keeps (At a true c d R) (readSymbolLoop turns) (fun _ => At a true c d R) := by
  induction turns with
  | zero => exact keeps_pure _
  | succ turns ih =>
    refine ensures_bind keeps_memRead_txtIn fun x => ?_
    cases x with
    | none => exact keeps_pure _
    | some x =>
      refine keeps_get fun s hs => keeps_weaken ?_ fun _ h => h.2
      split
      · exact ih
      split <;> exact keeps_pure _

theorem keeps_readSymbol : Keeps (At a true c d R) readSymbol (fun _ => At a true c d R) :=
  keeps_get fun _ _ => keeps_weaken (keeps_readSymbolLoop _) fun _ h => h.2

theorem keeps_fillGroupLoop (k : Nat) (g : BitVec 24) :
    Keeps (At a true c d R) (fillGroupLoop k g) (fun _ => At a true c d R) := by
  induction k generalizing g with
  | zero => exact keeps_pure _
  | succ k ih =>
    refine ensures_bind keeps_readSymbol fun x => ?_
    cases x with
    | error st => exact keeps_pure _
    | ok v => exact ih _

theorem keeps_serveByte :
    Keeps (At a true c d fun m _ n col => m = .decoding ∧ n ≠ 0 ∧ col = 0) serveByte
      (fun _ => At a true c d decoderSteady) := by
  refine keeps_get fun s hs => keeps_weaken ?_ fun _ h => h.2
  refine ensures_bind (mid := fun _ => At a true c d decoderSteady) (keeps_assign fun s h => ⟨h.1, ?_, h.2.2⟩)
    fun _ => keeps_pure _
  have : ∀ n : BitVec 2, n ≠ 0 → n - 1 ≠ 3 := by decide
  exact this _ h.2.1

theorem keeps_getByte : Keeps (At a true c d decoderSteady) getByte (fun _ => At a true c d decoderSteady) := by
  refine keeps_get fun s hs => ?_
  split
  · by_cases hn : s.byteCount = 0
    · rw [if_pos hn]
      refine keeps_weaken (pre' := At a true c d decoderSteady) ?_ fun _ h => h.2
      refine ensures_bind (mid := fun x => match x with
        | .error _ => At a true c d decoderSteady
        | .ok _ => At a true c d fun m _ n col => m = .decoding ∧ n ≠ 0 ∧ col = 0) ?_ fun x => ?_
      · refine ensures_bind (keeps_fillGroupLoop 4 0) fun g => ?_
        cases g with
        | error st => exact ensures_pure fun _ h => h
        | ok g =>
          exact ensures_bind (mid := fun _ => At a true c d fun m _ n col => m = .decoding ∧ n ≠ 0 ∧ col = 0)
            (keeps_assign fun _ h => ⟨h.1, (by decide : (3 : BitVec 2) ≠ 0), h.2.2⟩) fun _ => ensures_pure fun _ h => h
      · cases x with
        | error st => exact keeps_pure _
        | ok u => exact keeps_serveByte
    · rw [if_neg hn]
      refine keeps_weaken keeps_serveByte ?_
      rintro t ⟨rfl, h⟩
      exact h.weaken fun h => ⟨h.1, hn, h.2.2⟩
  · exact keeps_weaken (keeps_pure _) fun _ h => h.2

theorem keeps_getHalves {w : Nat} {half : Proc (Except Status (BitVec w))} {pre : State → Prop}
    (h : Keeps pre half (fun _ => pre)) : Keeps pre (getHalves half) (fun _ => pre) := by
  refine ensures_bind h fun lo => ?_
  cases lo with
  | error st => exact keeps_pure _
  | ok lo =>
    refine ensures_bind h fun hi => ?_
    cases hi <;> exact keeps_pure _

theorem keeps_getInt16 : Keeps (At a true c d decoderSteady) getInt16 (fun _ => At a true c d decoderSteady) :=
  keeps_getHalves keeps_getByte

theorem keeps_getInt32 : Keeps (At a true c d decoderSteady) getInt32 (fun _ => At a true c d decoderSteady) :=
  keeps_getHalves keeps_getInt16

theorem keeps_getInt64 : Keeps (At a true c d decoderSteady) getInt64 (fun _ => At a true c d decoderSteady) :=
  keeps_getHalves keeps_getInt32

theorem keeps_endDecode :
    Keeps (At a true c d decoderSteady) endDecode (fun _ => At a false c d idleSteady) :=
  ensures_bind keeps_closeSource_txtIn fun _ => keeps_assign fun s h => ⟨rfl, h.2.1, by rw [h.2.2]; rfl⟩

theorem keeps_getCommand {w : Nat} {get : Proc (Except Status (BitVec w))}
    (h : Keeps (At a true c d R) get (fun _ => At a true c d R)) :
    Keeps (At a true c d R) (getCommand get) (fun _ => At a true c d R) := by
  refine ensures_bind h fun x => ?_
  cases x with
  | ok v => exact keeps_pure _
  | error st =>
    refine ensures_bind ?_ fun _ => keeps_pure _
    refine keeps_get fun s hs => keeps_weaken ?_ fun _ h => h.2
    exact ensures_bind (keeps_assign fun _ h => h) fun _ => keeps_pure _

end decoder

/-! ### KEYGEN -/

section keygen
variable {a b c d : Bool} {R : Registers}

/-- The state of a KEYGEN that has reached a phase. -/
def KeygenAt (a b c d : Bool) (R : Registers) (phase : KeygenPhase) (s : State) : Prop :=
  At a b c d R s ∧ phaseOk s.params (some phase)

theorem keygenTurn_phase {p : Params} {phase next : KeygenPhase} {v : Nat} (h : phaseOk p (some phase))
    (hv : p.keyLo ≤ v ∧ v ≤ p.keyHi) (ht : keygenTurn phase v = .inl next) : phaseOk p (some next) := by
  cases phase with
  | seekP =>
    by_cases hp : isPrime v = true
    · simp [keygenTurn, hp] at ht; subst ht; exact ⟨hp, hv⟩
    · simp [keygenTurn, hp] at ht; subst ht; trivial
  | seekQ q =>
    by_cases hp : isPrime v = true
    · simp [keygenTurn, hp] at ht; subst ht; exact ⟨h, hp, hv⟩
    · simp [keygenTurn, hp] at ht; subst ht; exact h
  | seekE p q =>
    by_cases hg : gcd v (keyTotient p q) = 1
    · simp [keygenTurn, hg] at ht
    · simp [keygenTurn, hg] at ht; subst ht; exact h

theorem keeps_keygenWait (phase : KeygenPhase) :
    Keeps (KeygenAt a b c d R phase) (keygenWait phase) (fun _ => At a b c d R) := by
  refine ensures_bind (keeps_unit (fun _ h => h.1.legal) fun _ l h => ⟨at_resetIn h.1 l, h.2⟩) fun _ => ?_
  refine ensures_modifyState fun s h => ?_
  exact ⟨⟨h.1.legal.txtOut, h.1.legal.ptOut, h.1.legal.txtIn, h.1.legal.ptIn, h.1.legal.draws, h.2⟩, h.1.txtOut,
    h.1.txtIn, h.1.ptIn, h.1.ptOut, h.1.registers⟩

theorem keeps_draw (phase : KeygenPhase) :
    Keeps (KeygenAt a b c d R phase) draw (fun v s => KeygenAt a b c d R phase s ∧
      ∀ x, v = some x → s.params.keyLo ≤ x ∧ x ≤ s.params.keyHi) := by
  refine ensures_bind (keeps_unit (fun _ h => h.1.legal) fun _ l h => ⟨at_resetIn h.1 l, h.2⟩) fun _ => ?_
  refine keeps_get fun s hs => ?_
  refine ensures_bind (mid := fun _ t => KeygenAt a b c d R phase t ∧
    ∀ x, s.rnd.head? = some x → t.params.keyLo ≤ x ∧ x ≤ t.params.keyHi) ?_ fun _ => ensures_pure fun _ h => h
  refine ensures_modifyState ?_
  rintro t ⟨rfl, h⟩
  exact ⟨⟨⟨⟨h.1.legal.txtOut, h.1.legal.ptOut, h.1.legal.txtIn, h.1.legal.ptIn,
    fun v hv => h.1.legal.draws v (List.mem_of_mem_tail hv), h.1.legal.phase⟩, h.1.txtOut, h.1.txtIn, h.1.ptIn,
    h.1.ptOut, h.1.registers⟩, h.2⟩, fun x hx => h.1.legal.draws x (List.mem_of_mem_head? hx)⟩

theorem keeps_keygenLoop (turns : Nat) (phase : KeygenPhase) :
    Keeps (KeygenAt a b c d R phase) (keygenLoop turns phase) (fun _ => At a b c d R) := by
  induction turns generalizing phase with
  | zero => exact keeps_keygenWait phase
  | succ turns ih =>
    refine ensures_bind (keeps_draw phase) fun v => ?_
    cases v with
    | none => exact keeps_weaken (keeps_keygenWait phase) fun _ h => h.1
    | some v =>
      show Keeps _ (match keygenTurn phase v with
        | .inl phase' => keygenLoop turns phase'
        | .inr r => do
          modifyState fun s => { s with keygen := none }
          respond r) _
      cases ht : keygenTurn phase v with
      | inl phase' => exact keeps_weaken (ih phase') fun s h => ⟨h.1.1, keygenTurn_phase h.1.2 (h.2 v rfl) ht⟩
      | inr r =>
        refine keeps_weaken (pre' := At a b c d R) ?_ fun _ h => h.1.1
        refine ensures_bind (mid := fun _ => At a b c d R) ?_ fun _ => keeps_respond r
        exact ensures_modifyState fun s h => ⟨⟨h.legal.txtOut, h.legal.ptOut, h.legal.txtIn, h.legal.ptIn,
          h.legal.draws, trivial⟩, h.txtOut, h.txtIn, h.ptIn, h.ptOut, h.registers⟩

theorem keeps_keygenRun (phase : KeygenPhase) :
    Keeps (KeygenAt a b c d R phase) (keygenRun phase) (fun _ => At a b c d R) :=
  keeps_get fun _ _ => keeps_weaken (keeps_keygenLoop _ _) fun _ h => h.2

end keygen

/-! ### The pipeline -/

section pipeline
variable {a b d : Bool} {R : Registers}

theorem keeps_readPlain (present : Bool) :
    Keeps (At a b true d R) (readPlain present) (fun _ => At a b true d R) := by
  unfold readPlain
  split
  · exact ensures_bind keeps_memRead_ptIn fun _ => keeps_pure _
  · exact keeps_pure _

theorem keeps_readBlock (len i : Nat) :
    Keeps (At a b true d R) (readBlock len i) (fun _ => At a b true d R) :=
  ensures_bind (keeps_readPlain _) fun _ => ensures_bind (keeps_readPlain _) fun _ =>
    ensures_bind (keeps_readPlain _) fun _ => keeps_pure _

theorem keeps_encryptLoop (n e len turns i blocks : Nat) :
    Keeps (At true b true d encoderSteady) (encryptLoop n e len turns i blocks)
      (fun _ => At true b true d encoderSteady) := by
  induction turns generalizing i blocks with
  | zero => exact keeps_pure _
  | succ turns ih =>
    unfold encryptLoop
    split
    · refine ensures_bind (keeps_readBlock _ _) fun v => keeps_get fun s hs => keeps_weaken ?_ fun _ h => h.2
      split
      · exact keeps_pure _
      · exact ensures_bind (keeps_putInt32 _ _) fun _ => ih _ _
    · exact keeps_pure _

/-- What a state is after ENCRYPT or DECRYPT (rules R141, R146): `Idle`, with every port closed; where it is refused before
it begins, what it was. -/
theorem keeps_encryptBody (n e : Nat) :
    Keeps (fun s => s.Inv) (encryptBody n e) (fun _ s => s.Inv) := by
  unfold encryptBody
  split
  · exact keeps_pure _
  have hclosed : ∀ st, Keeps (fun s => At (s.mode = .encoding) (s.mode = .decoding) true false steady s)
      (encryptGiveUp st) (fun _ s => s.Inv) := by
    intro st s hs
    exact (ensures_bind (post := fun _ t => t.Inv) (keeps_closeSource_ptIn (a := s.mode = .encoding)
      (b := s.mode = .decoding) (c := true) (d := false) (R := fun m g n c => m = s.mode ∧ steady m g n c)) fun _ =>
      ensures_pure fun t ht => by
        rw [inv_iff_at, ht.registers.1]; exact ht.weaken fun h => h.2) s (hs.weaken fun h => ⟨rfl, h⟩)
  refine ensures_bind (mid := fun g s => At (s.mode = .encoding) (s.mode = .decoding) g false steady s) ?_ fun g => ?_
  · intro s hs
    rw [inv_iff_at] at hs
    have := keeps_openSource_ptIn (a := s.mode = .encoding) (b := s.mode = .decoding) (d := false)
      (R := fun m g n c => m = s.mode ∧ steady m g n c)
    exact (keeps_after this fun g t ht => by rw [ht.registers.1]; exact ht.weaken fun h => h.2) s
      (hs.weaken fun h => ⟨rfl, h⟩)
  cases g
  · exact ensures_pure fun s hs => (inv_iff_at s).mpr hs
  rw [if_pos rfl]
  refine keeps_get fun s hs => keeps_weaken ?_ fun _ h => h.2
  split
  · exact hclosed _
  refine ensures_bind (mid := fun g => At g false true false (cleared (if g then .encoding else .idle)))
    (keeps_weaken keeps_beginEncode fun s h => h.weaken fun _ => trivial) fun g => ?_
  cases g
  · refine ensures_bind keeps_closeSource_ptIn fun _ => ensures_pure fun s h => ?_
    obtain ⟨hm, h1, h2, h3⟩ := h.registers
    rw [inv_iff_at, hm]
    exact h.weaken fun _ => ⟨by rw [h2]; decide, by simp [hm], by rw [h3]; rfl, by simp [hm]⟩
  · refine keeps_weaken (pre' := At true false true false encoderSteady) ?_ fun s h => h.weaken fun h => ?_
    · refine ensures_bind (keeps_putInt32 _ _) fun _ => ensures_bind (keeps_encryptLoop _ _ _ _ _ _) fun _ =>
        ensures_bind keeps_endEncode fun _ => ensures_bind keeps_closeSource_ptIn fun _ =>
        ensures_pure fun s h => ?_
      obtain ⟨hm, h1, h2⟩ := h.registers
      rw [inv_iff_at, hm]
      exact h.weaken fun _ => ⟨h1, by simp [hm], h2, by simp [hm]⟩
    · obtain ⟨hm, h1, h2, h3⟩ := h
      exact ⟨hm, by rw [h2]; decide, by rw [h1, h2]; decide, by rw [h3]; rfl⟩

theorem keeps_writePlain {c : Bool} (present : Bool) (v : Byte) (count : Nat) :
    Keeps (At a b c true R) (writePlain present v count) (fun _ => At a b c true R) := by
  unfold writePlain
  split
  · exact ensures_bind (keeps_memWrite_ptOut _) fun _ => keeps_pure _
  · exact keeps_pure _

theorem keeps_writeBlock {c : Bool} (len i plain count : Nat) :
    Keeps (At a b c true R) (writeBlock len i plain count) (fun _ => At a b c true R) :=
  ensures_bind (keeps_writePlain _ _ _) fun _ => ensures_bind (keeps_writePlain _ _ _) fun _ =>
    keeps_writePlain _ _ _

theorem keeps_decryptLoop {c : Bool} (n k len turns i count : Nat) :
    Keeps (At a true c true decoderSteady) (decryptLoop n k len turns i count)
      (fun _ => At a true c true decoderSteady) := by
  induction turns generalizing i count with
  | zero => exact keeps_pure _
  | succ turns ih =>
    unfold decryptLoop
    split
    · refine ensures_bind keeps_getInt32 fun x => ?_
      cases x with
      | error st => exact keeps_pure _
      | ok v => exact ensures_bind (keeps_writeBlock _ _ _ _) fun _ => ih _ _
    · exact keeps_pure _

theorem inv_of_idle {s : State} (h : At false false false false idleSteady s) : s.Inv := by
  obtain ⟨hm, h1, h2⟩ := h.registers
  rw [inv_iff_at, hm]
  exact h.weaken fun _ => ⟨h1, by simp [hm], h2, by simp [hm]⟩

theorem keeps_decryptFinish (st : Status) (count len : Nat) :
    Keeps (At false true false true decoderSteady) (decryptFinish st count len) (fun _ s => s.Inv) :=
  ensures_bind keeps_endDecode fun _ => ensures_bind keeps_closeSink_ptOut fun _ =>
    ensures_pure fun _ h => inv_of_idle h

theorem keeps_decryptBody (n k : Nat) :
    Keeps (fun s => s.Inv) (decryptBody n k) (fun _ s => s.Inv) := by
  unfold decryptBody
  split
  · exact keeps_pure _
  refine ensures_bind (mid := fun g => At false g false false (cleared (if g then .decoding else .idle)))
    (keeps_weaken keeps_beginDecode fun s h => ((inv_iff_at s).mp h).weaken fun _ => trivial) fun g => ?_
  cases g
  · exact ensures_pure fun s h => inv_of_idle (h.weaken fun h => ⟨h.1, by rw [h.2.2.1]; decide, by rw [h.2.2.2]; rfl⟩)
  rw [if_pos rfl]
  refine keeps_weaken (pre' := At false true false false decoderSteady) ?_ fun s h =>
    h.weaken fun h => ⟨h.1, by rw [h.2.2.1]; decide, h.2.2.2⟩
  refine ensures_bind keeps_openSink_ptOut fun g => ?_
  cases g
  · exact ensures_bind keeps_endDecode fun _ => ensures_pure fun _ h => inv_of_idle h
  · refine ensures_bind keeps_getInt32 fun x => ?_
    cases x with
    | error st => exact keeps_decryptFinish _ _ _
    | ok v => exact ensures_bind (keeps_decryptLoop _ _ _ _ _ _) fun _ => keeps_decryptFinish _ _ _

end pipeline

/-- A command, given what its body keeps. -/
theorem keeps_command {body : Proc Result} (h : Keeps (fun s => s.Inv) body (fun _ s => s.Inv)) :
    Keeps (fun s => s.Inv) (body >>= respond) (fun _ s => s.Inv) := by
  refine ensures_bind h fun r s hs => ?_
  rw [inv_iff_at] at hs
  exact (keeps_after (keeps_respond r (a := s.mode = .encoding) (b := s.mode = .decoding) (c := false) (d := false)
    (R := fun m g n c => m = s.mode ∧ steady m g n c)) fun _ t ht => by
      rw [inv_iff_at, ht.registers.1]; exact ht.weaken fun h => h.2) s (hs.weaken fun h => ⟨rfl, h⟩)

/-- A command's step keeps the invariant if its procedure does. -/
theorem settle_keeps {body : Proc Unit} {s t : State} (h : Keeps (fun s => s.Inv) body (fun _ s => s.Inv))
    (hs : s.Inv) (ht : settle body s = .next t) : t.Inv :=
  settle_ensures h hs (fun _ hu => hu.resetBlock_inv) ht

end Sys2Proof.Machine
end

