-- ==== Sys2Proof/Laws/Reset.lean ====
section
/-! SUPPORT. What a reset to come does to a procedure (rule R190): nothing until it comes. `Follows` compares the run of
a procedure with the run it has where no reset is coming, and is proved once for each procedure of the block. -/

namespace Sys2Proof.Machine

/-- The state with other resets to come. -/
def due (s : State) (l : List Nat) : State := { s with resetIn := l }

@[simp] theorem due_due (s : State) (l m : List Nat) : due (due s l) m = due s m := rfl
@[simp] theorem due_resetIn (s : State) (l : List Nat) : (due s l).resetIn = l := rfl
theorem due_same (s : State) : due s s.resetIn = s := rfl

/-! ### What work never undoes -/

theorem Answers.Left.refl {α : Type} (a : Answers α) : a.Left a := ⟨rfl, List.suffix_rfl⟩

theorem Answers.Left.trans {α : Type} {a b c : Answers α} (h : a.Left b) (g : b.Left c) : a.Left c :=
  ⟨g.later.trans h.later, g.listed.trans h.listed⟩

theorem restAnswers_left {α : Type} (a : Answers α) : a.Left (restAnswers a) :=
  ⟨rfl, List.tail_suffix _⟩

theorem State.Grows.refl (s : State) : s.Grows s :=
  ⟨rfl, List.prefix_rfl, List.prefix_rfl, List.suffix_rfl, rfl, .refl _, .refl _, .refl _, .refl _, Nat.le_refl _⟩

theorem State.Grows.trans {s t u : State} (h : s.Grows t) (g : t.Grows u) : s.Grows u :=
  ⟨g.params.trans h.params, h.txtOut.trans g.txtOut, h.ptOut.trans g.ptOut, g.rnd.trans h.rnd,
    g.cmdIn.trans h.cmdIn, h.txtOutOpens.trans g.txtOutOpens, h.txtInOpens.trans g.txtInOpens,
    h.ptInOpens.trans g.ptInOpens, h.ptOutOpens.trans g.ptOutOpens, Nat.le_trans h.freeCount g.freeCount⟩

/-- What is never undone does not speak of the reset to come. -/
theorem State.Grows.from_due {s t : State} (h : s.Grows t) (l : List Nat) : (due s l).Grows t :=
  ⟨h.params, h.txtOut, h.ptOut, h.rnd, h.cmdIn, h.txtOutOpens, h.txtInOpens, h.ptInOpens, h.ptOutOpens, h.freeCount⟩

theorem State.Grows.to_due {s t : State} (h : s.Grows t) (l : List Nat) : s.Grows (due t l) :=
  ⟨h.params, h.txtOut, h.ptOut, h.rnd, h.cmdIn, h.txtOutOpens, h.txtInOpens, h.ptInOpens, h.ptOutOpens, h.freeCount⟩

/-! ### A procedure with and without a reset to come -/

/-- A procedure takes a number of units of work. A reset that comes after them leaves it to end as it ends with none coming,
and is nearer by as many units; a reset that comes within them cuts it short, in a state on the way, with no response
given. It may itself give a response at its end only where `quiet` is false. -/
def Follows {α : Type} (quiet : Bool) (m : Proc α) : Prop :=
  ∀ s : State, s.resetIn = [] → ∃ (a : α) (full : State) (work : Nat),
    m.run s = .ok a full ∧ full.resetIn = [] ∧ s.Grows full ∧
    (full.rspOut = s.rspOut ∨ quiet = false ∧ ∃ r, full.rspOut = s.rspOut ++ [r]) ∧
    ∀ (n : Nat) (later : List Nat),
      (work ≤ n → m.run (due s (n :: later)) = .ok a (due full ((n - work) :: later))) ∧
      (n < work → ∃ u, m.run (due s (n :: later)) = .error .reset (due u (0 :: later)) ∧
        s.Grows u ∧ u.Grows full ∧ u.rspOut = s.rspOut)

section rules
variable {α β : Type} {quiet : Bool}

theorem follows_pure (a : α) : Follows quiet (pure a : Proc α) := fun s hs =>
  ⟨a, s, 0, rfl, hs, .refl s, .inl rfl, fun _ _ => ⟨fun _ => rfl, fun h => absurd h (Nat.not_lt_zero _)⟩⟩

theorem follows_bind {m : Proc α} {f : α → Proc β} (hm : Follows true m)
    (hf : ∀ a, Follows quiet (f a)) : Follows quiet (m >>= f) := by
  intro s hs
  obtain ⟨a, mid, k, h1, h2, h3, h4, h5⟩ := hm s hs
  obtain ⟨b, full, l, g1, g2, g3, g4, g5⟩ := hf a mid h2
  have hr : mid.rspOut = s.rspOut := by simpa using h4
  refine ⟨b, full, k + l, by rw [bind_of_ok h1, g1], g2, h3.trans g3, by rwa [hr] at g4, fun n later =>
    ⟨fun hn => ?_, fun hn => ?_⟩⟩
  · rw [bind_of_ok ((h5 n later).1 (by omega)), (g5 (n - k) later).1 (by omega), Nat.sub_sub]
  · by_cases hk : n < k
    · obtain ⟨u, e1, e2, e3, e4⟩ := (h5 n later).2 hk
      exact ⟨u, by rw [bind_of_cut e1], e2, e3.trans g3, e4⟩
    · obtain ⟨u, e1, e2, e3, e4⟩ := (g5 (n - k) later).2 (by omega)
      exact ⟨u, by rw [bind_of_ok ((h5 n later).1 (by omega)), e1], h3.trans e2, e3, e4.trans hr⟩

/-- Assigning registers that are not the reset to come. -/
theorem follows_modify {g : State → State} (hg : ∀ s l, g (due s l) = due (g s) l)
    (hgrow : ∀ s : State, s.Grows (g s)) (hr : ∀ s, (g s).rspOut = s.rspOut) :
    Follows quiet (modifyState g) := by
  intro s hs
  have h : g s = due (g s) [] := by
    conv_lhs => rw [← due_same s, hs, hg]
  exact ⟨(), g s, 0, rfl, by rw [h]; rfl, hgrow s, .inl (hr s), fun n later =>
    ⟨fun _ => by rw [modifyState_run, hg]; rfl, fun hn => absurd hn (Nat.not_lt_zero _)⟩⟩

/-- Reading registers that are not the reset to come. -/
theorem follows_get {f : State → Proc β} (hf : ∀ s l, f (due s l) = f s)
    (h : ∀ s, Follows quiet (f s)) : Follows quiet (getState >>= f) := by
  intro s hs
  obtain ⟨b, full, k, h1, h2, h3, h4, h5⟩ := h s s hs
  refine ⟨b, full, k, h1, h2, h3, h4, fun n later => ?_⟩
  rw [getState_bind, hf]
  exact h5 n later

theorem follows_onlyIf {c : Bool} {m : Proc Unit} (h : Follows quiet m) : Follows quiet (onlyIf c m) := by
  cases c
  · exact follows_pure ()
  · exact h

theorem follows_ite {c : Prop} [Decidable c] {m m' : Proc α} (h : Follows quiet m) (h' : Follows quiet m') :
    Follows quiet (if c then m else m') := by
  split
  · exact h
  · exact h'

theorem follows_unit : Follows quiet unit := fun s hs =>
  ⟨(), s, 1, unit_run hs, hs, .refl s, .inl rfl, fun n later => by
    cases n with
    | zero => exact ⟨fun h => absurd h (by omega), fun _ => ⟨s, unit_run_due rfl, .refl s, .refl s, rfl⟩⟩
    | succ n => exact ⟨fun _ => unit_run_soon rfl, fun h => absurd h (by omega)⟩⟩

/-- A unit of work, then a change of the state. -/
theorem follows_act {g : State → State} (hg : ∀ s l, g (due s l) = due (g s) l)
    (hgrow : ∀ s : State, s.Grows (g s)) (hr : ∀ s, (g s).rspOut = s.rspOut) :
    Follows quiet (do unit; modifyState g) :=
  follows_bind follows_unit fun _ => follows_modify hg hgrow hr

end rules

/-! ### The primitives -/

theorem grows_withSink {s : State} (p : SinkPort) {k : Sink} (h : (sinkOf s p).events <+: k.events)
    (ho : (sinkOf s p).opens.Left k.opens) : s.Grows (withSink s p k) := by
  cases p
  · exact ⟨rfl, h, List.prefix_rfl, List.suffix_rfl, rfl, ho, .refl _, .refl _, .refl _, Nat.le_refl _⟩
  · exact ⟨rfl, List.prefix_rfl, h, List.suffix_rfl, rfl, .refl _, .refl _, .refl _, ho, Nat.le_refl _⟩

theorem grows_withSource {s : State} (p : SourcePort) {k : Source} (ho : (sourceOf s p).opens.Left k.opens) :
    s.Grows (withSource s p k) := by
  cases p
  · exact ⟨rfl, List.prefix_rfl, List.prefix_rfl, List.suffix_rfl, rfl, .refl _, ho, .refl _, .refl _, Nat.le_refl _⟩
  · exact ⟨rfl, List.prefix_rfl, List.prefix_rfl, List.suffix_rfl, rfl, .refl _, .refl _, ho, .refl _, Nat.le_refl _⟩

theorem sinkAttached_events (k : Sink) : k.events <+: (sinkAttached k).events := by
  cases h : nextAnswer k.opens
  · rw [sinkAttached_refused k h]
  · rw [sinkAttached_granted k h]; exact List.prefix_append _ _

theorem sinkAttached_left (k : Sink) : k.opens.Left (sinkAttached k).opens := by
  cases h : nextAnswer k.opens
  · rw [sinkAttached_refused k h]; exact restAnswers_left _
  · rw [sinkAttached_granted k h]; exact restAnswers_left _

theorem sourceAttached_left (k : Source) : k.opens.Left (sourceAttached k).opens := by
  cases h : nextAnswer k.opens
  · rw [sourceAttached_refused k h]; exact restAnswers_left _
  · rw [sourceAttached_granted k h]; exact restAnswers_left _

variable {q : Bool}

theorem follows_memWrite (p : SinkPort) (v : Byte) : Follows q (memWrite p v) :=
  follows_act (fun s l => by cases p <;> rfl)
    (fun s => grows_withSink p (k := addEvent (sinkOf s p) _) (List.prefix_append _ _) (.refl _)) (fun s => by cases p <;> rfl)

theorem follows_closeSink (p : SinkPort) : Follows q (closeSink p) :=
  follows_act (fun s l => by cases p <;> rfl)
    (fun s => grows_withSink p (k := sinkDetached (sinkOf s p)) (List.prefix_append _ _) (.refl _)) (fun s => by cases p <;> rfl)

theorem follows_closeSource (p : SourcePort) : Follows q (closeSource p) :=
  follows_act (fun s l => by cases p <;> rfl) (fun s => grows_withSource p (.refl _))
    (fun s => by cases p <;> rfl)

theorem follows_openSink (p : SinkPort) : Follows q (openSink p) :=
  follows_bind follows_unit fun _ => follows_get (fun s l => by cases p <;> rfl) fun s =>
    follows_bind (follows_modify (fun s l => by cases p <;> rfl)
      (fun s => grows_withSink p (sinkAttached_events _) (sinkAttached_left _)) (fun s => by cases p <;> rfl))
      fun _ => follows_pure _

theorem follows_openSource (p : SourcePort) : Follows q (openSource p) :=
  follows_bind follows_unit fun _ => follows_get (fun s l => by cases p <;> rfl) fun s =>
    follows_bind (follows_modify (fun s l => by cases p <;> rfl) (fun s => grows_withSource p (sourceAttached_left _))
      (fun s => by cases p <;> rfl)) fun _ => follows_pure _

theorem follows_memRead (p : SourcePort) : Follows q (memRead p) :=
  follows_bind follows_unit fun _ => follows_get (fun s l => by cases p <;> rfl) fun s =>
    follows_bind (follows_modify (fun s l => by cases p <;> rfl) (fun s => grows_withSource p (.refl _))
      (fun s => by cases p <;> rfl)) fun _ => follows_pure _

theorem follows_draw : Follows q draw :=
  follows_bind follows_unit fun _ => follows_get (fun _ _ => rfl) fun _ =>
    follows_bind (follows_modify (fun _ _ => rfl)
      (fun _ => ⟨rfl, List.prefix_rfl, List.prefix_rfl, List.tail_suffix _, rfl, .refl _, .refl _, .refl _, .refl _,
        Nat.le_refl _⟩) (fun _ => rfl))
      fun _ => follows_pure _

theorem follows_freeWord : Follows q freeWord :=
  follows_get (fun _ _ => rfl) fun _ =>
    follows_bind (follows_modify (fun _ _ => rfl)
      (fun _ => ⟨rfl, List.prefix_rfl, List.prefix_rfl, List.suffix_rfl, rfl, .refl _, .refl _, .refl _, .refl _,
        Nat.le_succ _⟩) (fun _ => rfl))
      fun _ => follows_pure _

/-- Assigning codec registers. -/
theorem follows_assign {g : State → State} (hg : ∀ s l, g (due s l) = due (g s) l)
    (h : ∀ s, ∃ m b n c k, g s =
      { s with mode := m, bitBuffer := b, byteCount := n, column := c, keygen := k } := by
        exact fun _ => ⟨_, _, _, _, _, rfl⟩) : Follows q (modifyState g) := by
  refine follows_modify hg (fun s => ?_) (fun s => ?_) <;> obtain ⟨m, b, n, c, k, hk⟩ := h s <;> rw [hk]
  exact ⟨rfl, List.prefix_rfl, List.prefix_rfl, List.suffix_rfl, rfl, .refl _, .refl _, .refl _, .refl _, Nat.le_refl _⟩

theorem follows_respond (r : Result) : Follows false (respond r) := by
  refine follows_bind follows_unit fun _ s hs => ?_
  exact ⟨(), answered s r, 0, rfl, hs, ⟨rfl, List.prefix_rfl, List.prefix_rfl, List.suffix_rfl, rfl, .refl _, .refl _,
    .refl _, .refl _, Nat.le_refl _⟩, .inr ⟨rfl, _, rfl⟩, fun n later =>
    ⟨fun _ => rfl, fun hn => absurd hn (Nat.not_lt_zero _)⟩⟩

/-! ### The encoder -/

theorem follows_emitSymbol (ch : Byte) : Follows q (emitSymbol ch) :=
  follows_bind (follows_memWrite _ _) fun _ => follows_get (fun _ _ => rfl) fun _ =>
    follows_bind (follows_onlyIf (follows_memWrite _ _)) fun _ => follows_assign (fun _ _ => rfl)

theorem follows_flushGroup (p : BitVec 2) : Follows q (flushGroup p) :=
  follows_get (fun _ _ => rfl) fun _ =>
    follows_bind (follows_emitSymbol _) fun _ => follows_bind (follows_emitSymbol _) fun _ =>
    follows_bind (follows_emitSymbol _) fun _ => follows_bind (follows_emitSymbol _) fun _ =>
    follows_assign (fun _ _ => rfl)

theorem follows_putByte (v : Byte) (p : BitVec 2) : Follows q (putByte v p) :=
  follows_get (fun _ _ => rfl) fun _ => follows_onlyIf <|
    follows_bind (follows_assign (fun _ _ => rfl)) fun _ => follows_get (fun _ _ => rfl) fun _ =>
      follows_onlyIf (follows_flushGroup p)

theorem follows_putInt16 (v : BitVec 16) (p : BitVec 2) : Follows q (putInt16 v p) :=
  follows_bind (follows_putByte _ _) fun _ => follows_putByte _ _

theorem follows_putInt32 (v : BitVec 32) (p : BitVec 2) : Follows q (putInt32 v p) :=
  follows_bind (follows_putInt16 _ _) fun _ => follows_putInt16 _ _

theorem follows_putInt64 (v : BitVec 64) (p : BitVec 2) : Follows q (putInt64 v p) :=
  follows_bind (follows_putInt32 _ _) fun _ => follows_putInt32 _ _

theorem follows_closeSession : Follows q closeSession :=
  follows_get (fun _ _ => rfl) fun _ => follows_bind (follows_onlyIf (follows_closeSink _)) fun _ =>
    follows_onlyIf (follows_closeSource _)

theorem follows_beginEncode : Follows q beginEncode :=
  follows_bind follows_closeSession fun _ => follows_bind (follows_assign (fun _ _ => rfl)) fun _ =>
    follows_bind (follows_openSink _) fun _ => follows_bind (follows_assign (fun _ _ => rfl)) fun _ =>
    follows_pure _

theorem follows_endEncode : Follows q endEncode :=
  follows_get (fun _ _ => rfl) fun _ =>
    follows_bind (follows_ite (follows_bind (follows_putByte _ _) fun _ => follows_putByte _ _)
      (follows_ite (follows_putByte _ _) (follows_pure _))) fun _ =>
    follows_bind (follows_closeSink _) fun _ => follows_assign (fun _ _ => rfl)

theorem follows_putCommand {put : Proc Unit} (h : Follows true put) : Follows true (putCommand put) :=
  follows_get (fun _ _ => rfl) fun _ => follows_ite (follows_bind h fun _ => follows_pure _) (follows_pure _)

theorem follows_beginCommand {begin : Proc Bool} (h : Follows true begin) : Follows true (beginCommand begin) :=
  follows_bind h fun _ => follows_pure _

theorem follows_endEncodeCommand : Follows q endEncodeCommand :=
  follows_get (fun _ _ => rfl) fun _ =>
    follows_ite (follows_bind follows_endEncode fun _ => follows_pure _) (follows_pure _)

/-! ### The decoder -/

theorem follows_beginDecode : Follows q beginDecode :=
  follows_bind follows_closeSession fun _ => follows_bind (follows_assign (fun _ _ => rfl)) fun _ =>
    follows_bind (follows_openSource _) fun _ => follows_bind (follows_assign (fun _ _ => rfl)) fun _ =>
    follows_pure _

theorem follows_readSymbolLoop (turns : Nat) : Follows q (readSymbolLoop turns) := by
  induction turns with
  | zero => exact follows_pure _
  | succ turns ih =>
    refine follows_bind (follows_memRead _) fun b => ?_
    cases b with
    | none => exact follows_pure _
    | some b =>
      refine follows_get (fun _ _ => rfl) fun s => follows_ite ih ?_
      cases symbolValue b <;> exact follows_pure _

theorem follows_readSymbol : Follows q readSymbol :=
  follows_get (fun _ _ => rfl) fun _ => follows_readSymbolLoop _

theorem follows_fillGroupLoop (k : Nat) (g : BitVec 24) : Follows q (fillGroupLoop k g) := by
  induction k generalizing g with
  | zero => exact follows_pure _
  | succ k ih =>
    refine follows_bind follows_readSymbol fun v => ?_
    cases v with
    | error st => exact follows_pure _
    | ok v => exact ih _

theorem follows_fillGroup : Follows q fillGroup := by
  refine follows_bind (follows_fillGroupLoop 4 0) fun g => ?_
  cases g with
  | error st => exact follows_pure _
  | ok g => exact follows_bind (follows_assign (fun _ _ => rfl)) fun _ => follows_pure _

theorem follows_serveByte : Follows q serveByte :=
  follows_get (fun _ _ => rfl) fun _ => follows_bind (follows_assign (fun _ _ => rfl)) fun _ =>
    follows_pure _

theorem follows_getByte : Follows q getByte := by
  refine follows_get (fun _ _ => rfl) fun _ => follows_ite (follows_ite ?_ follows_serveByte) (follows_pure _)
  refine follows_bind follows_fillGroup fun r => ?_
  cases r with
  | error st => exact follows_pure _
  | ok u => exact follows_serveByte

theorem follows_getHalves {w : Nat} {half : Proc (Except Status (BitVec w))} (h : Follows true half) :
    Follows true (getHalves half) := by
  refine follows_bind h fun lo => ?_
  cases lo with
  | error st => exact follows_pure _
  | ok lo =>
    refine follows_bind h fun hi => ?_
    cases hi <;> exact follows_pure _

theorem follows_getInt16 : Follows true getInt16 := follows_getHalves follows_getByte
theorem follows_getInt32 : Follows true getInt32 := follows_getHalves follows_getInt16
theorem follows_getInt64 : Follows true getInt64 := follows_getHalves follows_getInt32

theorem follows_endDecode : Follows q endDecode :=
  follows_bind (follows_closeSource _) fun _ => follows_assign (fun _ _ => rfl)

theorem follows_getCommand {w : Nat} {get : Proc (Except Status (BitVec w))} (h : Follows true get) :
    Follows true (getCommand get) := by
  refine follows_bind h fun v => ?_
  cases v with
  | error st => exact follows_bind follows_freeWord fun _ => follows_pure _
  | ok v => exact follows_pure _

theorem follows_endDecodeCommand : Follows q endDecodeCommand :=
  follows_get (fun _ _ => rfl) fun _ =>
    follows_ite (follows_bind follows_endDecode fun _ => follows_pure _) (follows_pure _)

/-! ### KEYGEN -/

theorem follows_keygenLoop (turns : Nat) (phase : KeygenPhase) : Follows false (keygenLoop turns phase) := by
  have hw : ∀ phase, Follows false (keygenWait phase) := fun _ =>
    follows_bind follows_unit fun _ => follows_assign (fun _ _ => rfl)
  induction turns generalizing phase with
  | zero => exact hw phase
  | succ turns ih =>
    refine follows_bind follows_draw fun v => ?_
    cases v with
    | none => exact hw phase
    | some v =>
      show Follows false (match keygenTurn phase v with
        | .inl phase' => keygenLoop turns phase'
        | .inr r => do
          modifyState fun s => { s with keygen := none }
          respond r)
      cases keygenTurn phase v with
      | inl phase' => exact ih _
      | inr r => exact follows_bind (follows_assign (fun _ _ => rfl)) fun _ => follows_respond r

theorem follows_keygenRun (phase : KeygenPhase) : Follows false (keygenRun phase) :=
  follows_get (fun _ _ => rfl) fun _ => follows_keygenLoop _ _

/-! ### The pipeline -/

theorem follows_readPlain (present : Bool) : Follows q (readPlain present) :=
  follows_ite (follows_bind (follows_memRead _) fun _ => follows_pure _) (follows_pure _)

theorem follows_readBlock (len i : Nat) : Follows q (readBlock len i) :=
  follows_bind (follows_readPlain _) fun _ => follows_bind (follows_readPlain _) fun _ =>
    follows_bind (follows_readPlain _) fun _ => follows_pure _

theorem follows_encryptLoop (n e len turns i blocks : Nat) : Follows q (encryptLoop n e len turns i blocks) := by
  induction turns generalizing i blocks with
  | zero => exact follows_pure _
  | succ turns ih =>
    exact follows_ite (follows_bind (follows_readBlock _ _) fun _ => follows_get (fun _ _ => rfl) fun _ =>
      follows_ite (follows_pure _) (follows_bind (follows_putInt32 _ _) fun _ => ih _ _)) (follows_pure _)

theorem follows_encryptGiveUp (st : Status) : Follows q (encryptGiveUp st) :=
  follows_bind (follows_closeSource _) fun _ => follows_pure _

theorem follows_encryptBody (n e : Nat) : Follows q (encryptBody n e) :=
  follows_ite (follows_pure _) <| follows_bind (follows_openSource _) fun _ => follows_ite
    (follows_get (fun _ _ => rfl) fun _ => follows_ite (follows_encryptGiveUp _) <|
      follows_bind follows_beginEncode fun _ => follows_ite
        (follows_bind (follows_putInt32 _ _) fun _ => follows_bind (follows_encryptLoop _ _ _ _ _ _) fun _ =>
          follows_bind follows_endEncode fun _ => follows_bind (follows_closeSource _) fun _ => follows_pure _)
        (follows_encryptGiveUp _))
    (follows_pure _)

theorem follows_writePlain (present : Bool) (v : Byte) (count : Nat) : Follows q (writePlain present v count) :=
  follows_ite (follows_bind (follows_memWrite _ _) fun _ => follows_pure _) (follows_pure _)

theorem follows_writeBlock (len i plain count : Nat) : Follows q (writeBlock len i plain count) :=
  follows_bind (follows_writePlain _ _ _) fun _ => follows_bind (follows_writePlain _ _ _) fun _ =>
    follows_writePlain _ _ _

theorem follows_decryptLoop (n d len turns i count : Nat) : Follows true (decryptLoop n d len turns i count) := by
  induction turns generalizing i count with
  | zero => exact follows_pure _
  | succ turns ih =>
    refine follows_ite (follows_bind follows_getInt32 fun v => ?_) (follows_pure _)
    cases v with
    | error st => exact follows_pure _
    | ok v => exact follows_bind (follows_writeBlock _ _ _ _) fun _ => ih _ _

theorem follows_decryptFinish (st : Status) (count len : Nat) : Follows q (decryptFinish st count len) :=
  follows_bind follows_endDecode fun _ => follows_bind (follows_closeSink _) fun _ => follows_pure _

theorem follows_decryptStream (n d : Nat) : Follows true (decryptStream n d) := by
  refine follows_bind follows_getInt32 fun v => ?_
  cases v with
  | error st => exact follows_decryptFinish _ _ _
  | ok v => exact follows_bind (follows_decryptLoop _ _ _ _ _ _) fun _ => follows_decryptFinish _ _ _

theorem follows_decryptBody (n d : Nat) : Follows true (decryptBody n d) :=
  follows_ite (follows_pure _) <| follows_bind follows_beginDecode fun _ => follows_ite
    (follows_bind (follows_openSink _) fun _ => follows_ite (follows_decryptStream _ _)
      (follows_bind follows_endDecode fun _ => follows_pure _)) (follows_pure _)

/-! ### Commands -/

/-- The procedure a command runs as its step. -/
def commandRun : Instr → State → Proc Unit
  | .status, s => pure (statusResult s) >>= respond
  | .beginEncode, _ => beginCommand beginEncode >>= respond
  | .beginDecode, _ => beginCommand beginDecode >>= respond
  | .endEncode, _ => endEncodeCommand >>= respond
  | .endDecode, _ => endDecodeCommand >>= respond
  | .putByte v p, _ => putCommand (putByte v p) >>= respond
  | .putInt16 v p, _ => putCommand (putInt16 v p) >>= respond
  | .putInt32 v p, _ => putCommand (putInt32 v p) >>= respond
  | .putInt64 v p, _ => putCommand (putInt64 v p) >>= respond
  | .getByte, _ => getCommand getByte >>= respond
  | .getInt16, _ => getCommand getInt16 >>= respond
  | .getInt32, _ => getCommand getInt32 >>= respond
  | .getInt64, _ => getCommand getInt64 >>= respond
  | .isPrime n, _ => pure (numberResult (isPrime n.toNat).toNat) >>= respond
  | .gcd a b, _ => pure (numberResult (gcd a.toInt b.toInt)) >>= respond
  | .modInverse a n, _ => pure (modInverseResult a.toNat n.toNat) >>= respond
  | .modExp b e m, _ => pure (modExpResult b.toNat e.toNat m.toNat) >>= respond
  | .keygen, _ => keygenRun .seekP
  | .encrypt n e, _ => encryptBody n.toNat e.toNat >>= respond
  | .decrypt n d, _ => decryptBody n.toNat d.toNat >>= respond

theorem exec_eq_settle (i : Instr) (s : State) : exec i s = settle (accepted (commandRun i s)) s := by
  cases i <;> rfl

theorem commandRun_due (i : Instr) (s : State) (l : List Nat) : commandRun i (due s l) = commandRun i s := by
  cases i <;> rfl

theorem follows_command {body : Proc Result} (h : Follows true body) : Follows false (body >>= respond) :=
  follows_bind h fun r => follows_respond r

theorem follows_commandRun (i : Instr) (s : State) : Follows false (commandRun i s) := by
  cases i with
  | status => exact follows_command (follows_pure _)
  | beginEncode => exact follows_command (follows_beginCommand follows_beginEncode)
  | beginDecode => exact follows_command (follows_beginCommand follows_beginDecode)
  | endEncode => exact follows_command follows_endEncodeCommand
  | endDecode => exact follows_command follows_endDecodeCommand
  | putByte v p => exact follows_command (follows_putCommand (follows_putByte v p))
  | putInt16 v p => exact follows_command (follows_putCommand (follows_putInt16 v p))
  | putInt32 v p => exact follows_command (follows_putCommand (follows_putInt32 v p))
  | putInt64 v p => exact follows_command (follows_putCommand (follows_putInt64 v p))
  | getByte => exact follows_command (follows_getCommand follows_getByte)
  | getInt16 => exact follows_command (follows_getCommand follows_getInt16)
  | getInt32 => exact follows_command (follows_getCommand follows_getInt32)
  | getInt64 => exact follows_command (follows_getCommand follows_getInt64)
  | isPrime n => exact follows_command (follows_pure _)
  | gcd a b => exact follows_command (follows_pure _)
  | modInverse a n => exact follows_command (follows_pure _)
  | modExp b e m => exact follows_command (follows_pure _)
  | keygen => exact follows_keygenRun _
  | encrypt n e => exact follows_command (follows_encryptBody _ _)
  | decrypt n d => exact follows_command (follows_decryptBody _ _)

/-- Where no reset is coming, a command is its procedure. -/
theorem exec_of_none (i : Instr) {s : State} (h : s.resetIn = []) : exec i s = settle (commandRun i s) s := by
  rw [exec_eq_settle, settle_accepted h]

theorem follows_accepted {m : Proc Unit} (h : Follows false m) : Follows false (accepted m) :=
  follows_bind follows_unit fun _ => h

/-- What a procedure's step does with a reset to come: it ends as with none coming, or is cut short and reset, by whether
the reset comes within its units of work. -/
theorem settle_follows {m : Proc Unit} (hm : Follows false m) {s : State} (hs : s.resetIn = []) :
    ∃ (full : State) (work : Nat), settle m s = .next full ∧ full.resetIn = [] ∧ s.Grows full ∧
      (full.rspOut = s.rspOut ∨ ∃ r, full.rspOut = s.rspOut ++ [r]) ∧
      ∀ (n : Nat) (later : List Nat),
        (work ≤ n → settle m (due s (n :: later)) = .next (due full ((n - work) :: later))) ∧
        (n < work → ∃ cut, settle m (due s (n :: later)) = .next (resetBlock cut) ∧ cut.resetIn = 0 :: later ∧
          s.Grows cut ∧ cut.Grows full ∧ cut.rspOut = s.rspOut) := by
  obtain ⟨a, full, k, h1, h2, h3, h4, h5⟩ := hm s hs
  refine ⟨full, k, by unfold settle; rw [h1], h2, h3, by simpa using h4, fun n later => ⟨fun hn => ?_, fun hn => ?_⟩⟩
  · unfold settle; rw [(h5 n later).1 hn]
  · obtain ⟨u, e1, e2, e3, e4⟩ := (h5 n later).2 hn
    exact ⟨due u (0 :: later), by unfold settle; rw [e1], rfl, e2.to_due _, e3.from_due _, e4⟩

/-! ### At least one unit of work -/

/-- A procedure that takes at least one unit of work is cut short by a reset that is due. -/
def Works {α : Type} (m : Proc α) : Prop :=
  ∀ (s : State) (later : List Nat), s.resetIn = 0 :: later → ∃ u, m.run s = .error .reset u ∧ u.resetIn = 0 :: later

theorem works_unit : Works unit := fun s _ h => ⟨s, unit_run_due h, h⟩

theorem works_bind_left {α β : Type} {m : Proc α} {f : α → Proc β} (hm : Works m) : Works (m >>= f) := fun s later h => by
  obtain ⟨u, hu, hr⟩ := hm s later h
  exact ⟨u, bind_of_cut hu, hr⟩

theorem works_bind_right {α β : Type} {m : Proc α} {f : α → Proc β} (hm : Follows true m) (hf : ∀ a, Works (f a)) :
    Works (m >>= f) := fun s later h => by
  obtain ⟨a, full, k, -, -, -, -, h5⟩ := hm (due s []) rfl
  have e : due (due s []) (0 :: later) = s := by rw [due_due, ← h]; rfl
  have h0 := h5 0 later
  rw [e] at h0
  rcases Nat.eq_zero_or_pos k with hk | hk
  · obtain ⟨u, hu, hr⟩ := hf a (due full (0 :: later)) later rfl
    exact ⟨u, by rw [bind_of_ok (h0.1 (by omega)), Nat.zero_sub, hu], hr⟩
  · obtain ⟨u, hu, -⟩ := h0.2 hk
    exact ⟨due u (0 :: later), bind_of_cut hu, rfl⟩

theorem works_respond (r : Result) : Works (respond r) := works_bind_left works_unit

theorem works_keygenRun (phase : KeygenPhase) : Works (keygenRun phase) := fun s later h => by
  have hw : Works (keygenLoop s.rnd.length phase) := by
    cases s.rnd with
    | nil => exact works_bind_left works_unit
    | cons v vs => exact works_bind_left (works_bind_left works_unit)
  exact hw s later h

/-- A procedure that takes a unit of work takes two with its acceptance. -/
theorem settle_accepted_soon {m : Proc Unit} (hm : Works m) (s : State) (later : List Nat) :
    ∃ cut, settle (accepted m) (due s (1 :: later)) = .next (resetBlock cut) ∧ cut.resetIn = 0 :: later := by
  obtain ⟨u, hu, hr⟩ := hm (due s (0 :: later)) later rfl
  exact ⟨u, by unfold settle accepted; rw [bind_of_ok (unit_run_soon (k := 0) rfl)]; rw [show
    ({ due s (1 :: later) with resetIn := 0 :: later } : State) = due s (0 :: later) from rfl, hu], hr⟩

theorem works_commandRun (i : Instr) (s : State) : Works (commandRun i s) := by
  cases i with
  | status => exact works_bind_right (follows_pure _) works_respond
  | beginEncode => exact works_bind_right (follows_beginCommand follows_beginEncode) works_respond
  | beginDecode => exact works_bind_right (follows_beginCommand follows_beginDecode) works_respond
  | endEncode => exact works_bind_right follows_endEncodeCommand works_respond
  | endDecode => exact works_bind_right follows_endDecodeCommand works_respond
  | putByte v p => exact works_bind_right (follows_putCommand (follows_putByte v p)) works_respond
  | putInt16 v p => exact works_bind_right (follows_putCommand (follows_putInt16 v p)) works_respond
  | putInt32 v p => exact works_bind_right (follows_putCommand (follows_putInt32 v p)) works_respond
  | putInt64 v p => exact works_bind_right (follows_putCommand (follows_putInt64 v p)) works_respond
  | getByte => exact works_bind_right (follows_getCommand follows_getByte) works_respond
  | getInt16 => exact works_bind_right (follows_getCommand follows_getInt16) works_respond
  | getInt32 => exact works_bind_right (follows_getCommand follows_getInt32) works_respond
  | getInt64 => exact works_bind_right (follows_getCommand follows_getInt64) works_respond
  | isPrime n => exact works_bind_right (follows_pure _) works_respond
  | gcd a b => exact works_bind_right (follows_pure _) works_respond
  | modInverse a n => exact works_bind_right (follows_pure _) works_respond
  | modExp b e m => exact works_bind_right (follows_pure _) works_respond
  | keygen => exact works_keygenRun _
  | encrypt n e => exact works_bind_right (follows_encryptBody _ _) works_respond
  | decrypt n d => exact works_bind_right (follows_decryptBody _ _) works_respond

/-- Reset only adds to the histories. -/
theorem grows_resetBlock (s : State) : s.Grows (resetBlock s) := by
  have h : ∀ k : Sink, k.events <+: (sinkReset k).events := by
    intro k; unfold sinkReset; split
    · exact List.prefix_append _ _
    · exact List.prefix_rfl
  have ho : ∀ k : Sink, k.opens.Left (sinkReset k).opens := by
    intro k; unfold sinkReset; split <;> exact .refl _
  have hi : ∀ k : Source, k.opens.Left (sourceReset k).opens := by
    intro k; unfold sourceReset; split <;> exact .refl _
  exact ⟨rfl, h _, h _, List.suffix_rfl, rfl, ho _, hi _, hi _, ho _, Nat.le_refl _⟩

/-- What a procedure's step leaves, whenever reset comes: nothing is undone, and at most one response is added. -/
theorem settle_grows {m : Proc Unit} (hm : Follows false m) {s t : State} (h : settle m s = .next t) :
    s.Grows t ∧ (t.rspOut = s.rspOut ∨ ∃ r, t.rspOut = s.rspOut ++ [r]) := by
  obtain ⟨full, k, h1, h2, h3, h4, h5⟩ := settle_follows hm (s := due s []) rfl
  have hf : s.Grows full := h3.from_due s.resetIn
  rcases hr : s.resetIn with _ | ⟨n, later⟩
  · have e : due s [] = s := by rw [← hr]; rfl
    rw [e, h] at h1; cases h1; exact ⟨hf, h4⟩
  · have e : due (due s []) (n :: later) = s := by rw [← hr]; rfl
    have := h5 n later
    rw [e, h] at this
    by_cases hn : n < k
    · obtain ⟨u, e1, e2, e3, e4, e5⟩ := this.2 hn
      cases e1
      exact ⟨(e3.from_due s.resetIn : s.Grows u).trans (grows_resetBlock u), .inl e5⟩
    · cases this.1 (by omega)
      exact ⟨hf.to_due _, h4⟩

end Sys2Proof.Machine
end

