-- ==== Sys2Proof/Laws/Commands.lean ====
section
/-! SUPPORT. What holds of every command: it is a body and one response, and it keeps the invariant. -/

namespace Sys2Proof.Machine

/-- Every command but KEYGEN is a body that gives no response, then the response (rule R54). -/
theorem commandRun_body (i : Instr) (hi : i ≠ .keygen) (s : State) :
    ∃ body, Follows true body ∧ commandRun i s = body >>= respond := by
  cases i with
  | status => exact ⟨_, follows_pure _, rfl⟩
  | beginEncode => exact ⟨_, follows_beginCommand follows_beginEncode, rfl⟩
  | beginDecode => exact ⟨_, follows_beginCommand follows_beginDecode, rfl⟩
  | endEncode => exact ⟨_, follows_endEncodeCommand, rfl⟩
  | endDecode => exact ⟨_, follows_endDecodeCommand, rfl⟩
  | putByte v p => exact ⟨_, follows_putCommand (follows_putByte v p), rfl⟩
  | putInt16 v p => exact ⟨_, follows_putCommand (follows_putInt16 v p), rfl⟩
  | putInt32 v p => exact ⟨_, follows_putCommand (follows_putInt32 v p), rfl⟩
  | putInt64 v p => exact ⟨_, follows_putCommand (follows_putInt64 v p), rfl⟩
  | getByte => exact ⟨_, follows_getCommand follows_getByte, rfl⟩
  | getInt16 => exact ⟨_, follows_getCommand follows_getInt16, rfl⟩
  | getInt32 => exact ⟨_, follows_getCommand follows_getInt32, rfl⟩
  | getInt64 => exact ⟨_, follows_getCommand follows_getInt64, rfl⟩
  | isPrime n => exact ⟨_, follows_pure _, rfl⟩
  | gcd a b => exact ⟨_, follows_pure _, rfl⟩
  | modInverse a n => exact ⟨_, follows_pure _, rfl⟩
  | modExp b e m => exact ⟨_, follows_pure _, rfl⟩
  | keygen => exact absurd rfl hi
  | encrypt n e => exact ⟨_, follows_encryptBody _ _, rfl⟩
  | decrypt n d => exact ⟨_, follows_decryptBody _ _, rfl⟩

/-! ### The invariant, command by command -/

/-- The invariant, with the mode named. -/
theorem State.Inv.at_mode {s : State} (h : s.Inv) {m : Mode} (hm : s.mode = m) :
    At (m = .encoding) (m = .decoding) false false (fun m' g n c => m' = m ∧ steady m' g n c) s := by
  subst hm
  exact ((inv_iff_at s).mp h).weaken fun h => ⟨rfl, h⟩

theorem inv_of_at {s : State} {m : Mode}
    (h : At (m = .encoding) (m = .decoding) false false (fun m' g n c => m' = m ∧ steady m' g n c) s) :
    s.Inv := by
  rw [inv_iff_at, h.registers.1]
  exact h.weaken fun h => h.2

theorem inv_of_cleared {s : State} {m : Mode}
    (h : At (m = .encoding) (m = .decoding) false false (cleared m) s) : s.Inv :=
  inv_of_at (h.weaken fun ⟨h1, h2, h3, h4⟩ =>
    ⟨h1, by rw [h3]; decide, by rw [h2, h3]; intro _; decide, by rw [h4]; rfl, fun _ => h4⟩)

theorem State.Inv.encoder {s : State} (h : s.Inv) (hm : s.mode = .encoding) :
    At true false false false encoderSteady s :=
  (h.at_mode hm).weaken fun h => ⟨h.1, h.2.1, h.2.2.1 h.1, h.2.2.2.1⟩

theorem State.Inv.decoder {s : State} (h : s.Inv) (hm : s.mode = .decoding) :
    At false true false false decoderSteady s :=
  (h.at_mode hm).weaken fun h => ⟨h.1, h.2.1, h.2.2.2.2 h.1⟩

theorem keeps_putCommand {put : Proc Unit} (h : Keeps (At true false false false encoderSteady) put
    (fun _ => At true false false false encoderSteady)) :
    Keeps (fun s => s.Inv) (putCommand put) (fun _ s => s.Inv) := by
  intro s hs
  by_cases hm : s.mode = .encoding
  · have h1 : (putCommand put).run s = (put >>= fun _ => pure okResult).run s := by
      unfold putCommand; rw [getState_bind]; simp [encActive, hm]
    rw [h1]
    have h2 : Keeps (At true false false false encoderSteady) (put >>= fun _ => pure okResult)
        (fun _ s => s.Inv) :=
      ensures_bind h fun _ => ensures_pure fun t ht => inv_of_at (m := .encoding)
        (ht.weaken fun h => ⟨h.1, h.2.1, fun _ => h.2.2.1, h.2.2.2, by simp [h.1]⟩)
    exact h2 s (hs.encoder hm)
  · rw [putCommand_off hm]; exact hs

theorem keeps_getCommand_inv {w : Nat} {get : Proc (Except Status (BitVec w))}
    (h : Keeps (At false true false false decoderSteady) get (fun _ => At false true false false decoderSteady))
    (hoff : ∀ s : State, s.mode ≠ .decoding → get.run s = .ok (.error .notActive) s) :
    Keeps (fun s => s.Inv) (getCommand get) (fun _ s => s.Inv) := by
  intro s hs
  by_cases hm : s.mode = .decoding
  · have h2 : Keeps (At false true false false decoderSteady) (getCommand get) (fun _ s => s.Inv) :=
      keeps_after (keeps_getCommand h) fun _ t ht => inv_of_at (m := .decoding)
        (ht.weaken fun h => ⟨h.1, h.2.1, by simp [h.1], by rw [h.2.2]; rfl, fun _ => h.2.2⟩)
    exact h2 s (hs.decoder hm)
  · rw [getCommand_error_run (hoff s hm)]
    exact ⟨hs.1, hs.2, hs.3, hs.4, hs.5, hs.6, hs.7, hs.8, hs.9, hs.10, hs.11, hs.12, hs.13, hs.14⟩

theorem keeps_beginCommand {begin : Proc Bool} (h : Keeps (SessionAt false false) begin (fun _ t => t.Inv)) :
    Keeps (fun s => s.Inv) (beginCommand begin) (fun _ s => s.Inv) :=
  ensures_bind (keeps_weaken h fun s hs => ((inv_iff_at s).mp hs).weaken fun _ => trivial) fun g => by
    cases g <;> exact keeps_pure _

theorem keeps_endEncodeCommand : Keeps (fun s => s.Inv) endEncodeCommand (fun _ s => s.Inv) := by
  intro s hs
  unfold endEncodeCommand
  rw [getState_bind]
  by_cases hm : s.mode = .encoding
  · simp only [encActive, hm, decide_true, if_true]
    exact (ensures_bind keeps_endEncode fun _ => ensures_pure fun t h => inv_of_idle h :
      Keeps (At true false false false encoderSteady) _ (fun _ s => s.Inv)) s (hs.encoder hm)
  · simp only [encActive, hm]; exact hs

theorem keeps_endDecodeCommand : Keeps (fun s => s.Inv) endDecodeCommand (fun _ s => s.Inv) := by
  intro s hs
  unfold endDecodeCommand
  rw [getState_bind]
  by_cases hm : s.mode = .decoding
  · simp only [decActive, hm, decide_true, if_true]
    exact (ensures_bind keeps_endDecode fun _ => ensures_pure fun t h => inv_of_idle h :
      Keeps (At false true false false decoderSteady) _ (fun _ s => s.Inv)) s (hs.decoder hm)
  · simp only [decActive, hm]; exact hs

theorem getInt16_off {s : State} (h : s.mode ≠ .decoding) : getInt16.run s = .ok (.error .notActive) s :=
  getHalves_off (getByte_off h)

theorem getInt32_off {s : State} (h : s.mode ≠ .decoding) : getInt32.run s = .ok (.error .notActive) s :=
  getHalves_off (getInt16_off h)

theorem getInt64_off {s : State} (h : s.mode ≠ .decoding) : getInt64.run s = .ok (.error .notActive) s :=
  getHalves_off (getInt32_off h)

/-- KEYGEN, from a phase on, keeps the invariant (rules R43, R132). -/
theorem keeps_keygenRun_inv (phase : KeygenPhase) :
    Keeps (fun s => s.Inv ∧ phaseOk s.params (some phase)) (keygenRun phase) (fun _ s => s.Inv) := fun s hs =>
  keeps_after (keeps_keygenRun (a := s.mode = .encoding) (b := s.mode = .decoding) (c := false) (d := false)
    (R := fun m' g n c => m' = s.mode ∧ steady m' g n c) phase) (fun _ _ ht => inv_of_at ht) s
    ⟨hs.1.at_mode rfl, hs.2⟩

/-- Acceptance keeps the invariant (the reset to come is no part of it). -/
theorem keeps_accepted {body : Proc Unit} (h : Keeps (fun s => s.Inv) body (fun _ s => s.Inv)) :
    Keeps (fun s => s.Inv) (accepted body) (fun _ s => s.Inv) :=
  ensures_bind (mid := fun _ s => s.Inv)
    (ensures_unit (fun s hs => ((inv_iff_at s).mp hs).legal) fun _ _ hs =>
      ⟨hs.1, hs.2, hs.3, hs.4, hs.5, hs.6, hs.7, hs.8, hs.9, hs.10, hs.11, hs.12, hs.13, hs.14⟩) fun _ => h

/-- Every command keeps the invariant, whenever reset comes. -/
theorem keeps_commandRun (i : Instr) (s : State) :
    Keeps (fun s => s.Inv) (commandRun i s) (fun _ s => s.Inv) := by
  cases i with
  | status => exact keeps_command (keeps_pure _)
  | beginEncode =>
    exact keeps_command (keeps_beginCommand (keeps_after keeps_beginEncode fun g t h => by
      cases g
      · exact inv_of_cleared (m := .idle) h
      · exact inv_of_cleared (m := .encoding) h))
  | beginDecode =>
    exact keeps_command (keeps_beginCommand (keeps_after keeps_beginDecode fun g t h => by
      cases g
      · exact inv_of_cleared (m := .idle) h
      · exact inv_of_cleared (m := .decoding) h))
  | endEncode => exact keeps_command keeps_endEncodeCommand
  | endDecode => exact keeps_command keeps_endDecodeCommand
  | putByte v p => exact keeps_command (keeps_putCommand (keeps_putByte v p))
  | putInt16 v p => exact keeps_command (keeps_putCommand (keeps_putInt16 v p))
  | putInt32 v p => exact keeps_command (keeps_putCommand (keeps_putInt32 v p))
  | putInt64 v p => exact keeps_command (keeps_putCommand (keeps_putInt64 v p))
  | getByte => exact keeps_command (keeps_getCommand_inv keeps_getByte fun _ => getByte_off)
  | getInt16 => exact keeps_command (keeps_getCommand_inv keeps_getInt16 fun _ => getInt16_off)
  | getInt32 => exact keeps_command (keeps_getCommand_inv keeps_getInt32 fun _ => getInt32_off)
  | getInt64 => exact keeps_command (keeps_getCommand_inv keeps_getInt64 fun _ => getInt64_off)
  | isPrime n => exact keeps_command (keeps_pure _)
  | gcd a b => exact keeps_command (keeps_pure _)
  | modInverse a n => exact keeps_command (keeps_pure _)
  | modExp b e m => exact keeps_command (keeps_pure _)
  | keygen => exact keeps_weaken (keeps_keygenRun_inv .seekP) fun s h => ⟨h, trivial⟩
  | encrypt n e => exact keeps_command (keeps_encryptBody _ _)
  | decrypt n d => exact keeps_command (keeps_decryptBody _ _)

end Sys2Proof.Machine
end

