-- ==== Sys2Proof/Laws/Keygen.lean ====
section
/-! SUPPORT. What KEYGEN does with the draws there are (rules R130, R132, R133, R135). -/

namespace Sys2Proof.Machine

/-- The searches of rule R130 over the draws there are: the phase they wait in, or the answer and the draws left. -/
def keygenSearch : KeygenPhase → List Nat → KeygenPhase ⊕ (Result × List Nat)
  | phase, [] => .inl phase
  | phase, v :: more =>
    match keygenTurn phase v with
    | .inl phase' => keygenSearch phase' more
    | .inr r => .inr (r, more)

/-- The state KEYGEN leaves. -/
def keygenLeft (s : State) : KeygenPhase ⊕ (Result × List Nat) → State
  | .inl phase => { s with rnd := [], keygen := some phase }
  | .inr (r, more) => answered { s with rnd := more, keygen := none } r

theorem keygenLoop_run {s : State} (h : s.resetIn = []) (phase : KeygenPhase) :
    (keygenLoop s.rnd.length phase).run s = .ok () (keygenLeft s (keygenSearch phase s.rnd)) := by
  generalize hr : s.rnd = draws
  induction draws generalizing s phase with
  | nil =>
    unfold keygenLoop keygenWait
    rw [List.length_nil, bind_of_ok (unit_run h), modifyState_run]
    simp only [keygenSearch, keygenLeft]
    rw [← hr]
  | cons v more ih =>
    rw [List.length_cons]
    unfold keygenLoop keygenSearch
    rw [bind_of_ok (draw_run h), hr]
    dsimp only [List.head?_cons, List.tail_cons]
    cases keygenTurn phase v with
    | inl phase' =>
      dsimp only
      rw [ih (s := { s with rnd := more }) h phase' rfl]
      cases keygenSearch phase' more <;> rfl
    | inr r =>
      dsimp only
      rw [modifyState_bind, respond_run (by exact h)]
      rfl

/-- KEYGEN from a phase on, where no reset is coming. -/
theorem settle_keygenRun {s : State} (h : s.resetIn = []) (phase : KeygenPhase) :
    settle (keygenRun phase) s = .next (keygenLeft s (keygenSearch phase s.rnd)) := by
  unfold settle keygenRun
  rw [getState_bind, keygenLoop_run h]

theorem isPrime_eq_false {v : Nat} (h : ¬ v.Prime) : isPrime v = false := by
  rw [← Bool.not_eq_true]; exact fun hc => h ((isPrime_iff v).mp hc)

theorem search_rejectedP (vs more : List Nat) (h : ∀ v ∈ vs, ¬ v.Prime) :
    keygenSearch .seekP (vs ++ more) = keygenSearch .seekP more := by
  induction vs with
  | nil => rfl
  | cons v vs ih =>
    rw [List.cons_append, keygenSearch]
    simp only [keygenTurn, isPrime_eq_false (h v (by simp))]
    exact ih fun x hx => h x (by simp [hx])

theorem search_rejectedQ (p : Nat) (vs more : List Nat) (h : ∀ v ∈ vs, ¬ v.Prime) :
    keygenSearch (.seekQ p) (vs ++ more) = keygenSearch (.seekQ p) more := by
  induction vs with
  | nil => rfl
  | cons v vs ih =>
    rw [List.cons_append, keygenSearch]
    simp only [keygenTurn, isPrime_eq_false (h v (by simp))]
    exact ih fun x hx => h x (by simp [hx])

theorem search_rejectedE (p q : Nat) (vs more : List Nat)
    (h : ∀ v ∈ vs, Nat.gcd v ((p - 1) * (q - 1)) ≠ 1) :
    keygenSearch (.seekE p q) (vs ++ more) = keygenSearch (.seekE p q) more := by
  induction vs with
  | nil => rfl
  | cons v vs ih =>
    rw [List.cons_append, keygenSearch]
    simp only [keygenTurn, gcd_natCast, keyTotient, if_neg (h v (by simp))]
    exact ih fun x hx => h x (by simp [hx])

theorem search_foundP {p : Nat} (h : p.Prime) (more : List Nat) :
    keygenSearch .seekP (p :: more) = keygenSearch (.seekQ p) more := by
  rw [keygenSearch]; simp only [keygenTurn, (isPrime_iff p).mpr h, if_true]

theorem search_foundQ (p : Nat) {q : Nat} (h : q.Prime) (more : List Nat) :
    keygenSearch (.seekQ p) (q :: more) = keygenSearch (.seekE p q) more := by
  rw [keygenSearch]; simp only [keygenTurn, (isPrime_iff q).mpr h, if_true]

theorem search_foundE (p q : Nat) {e : Nat} (h : Nat.gcd e ((p - 1) * (q - 1)) = 1) (more : List Nat) :
    keygenSearch (.seekE p q) (e :: more) = .inr (keyResult p q e, more) := by
  rw [keygenSearch]; simp only [keygenTurn, gcd_natCast, keyTotient, if_pos h]

/-- A draw sequence that holds a key gives it (rule R130). -/
theorem search_key {draws xs ys zs left : List Nat} {p q e : Nat}
    (h : KeyDraws draws xs p ys q zs e left) :
    keygenSearch .seekP draws = .inr (keyResult p q e, left) := by
  rw [h.draws_eq, search_rejectedP _ _ h.notP, search_foundP h.primeP, search_rejectedQ _ _ _ h.notQ,
    search_foundQ _ h.primeQ, search_rejectedE _ _ _ _ h.notE, search_foundE _ _ h.coprimeE]

/-- Searching one part of the draws after another is searching them all (rule R44). -/
theorem search_append (phase : KeygenPhase) (xs ys : List Nat) :
    keygenSearch phase (xs ++ ys) =
      match keygenSearch phase xs with
      | .inl phase' => keygenSearch phase' ys
      | .inr (r, left) => .inr (r, left ++ ys) := by
  induction xs generalizing phase with
  | nil => rfl
  | cons v xs ih =>
    rw [List.cons_append, keygenSearch, keygenSearch]
    cases keygenTurn phase v with
    | inl phase' => exact ih phase'
    | inr r => rfl

/-- A list is searched to its first element with a property, or has none. -/
theorem first_or_none (P : Nat → Prop) (vs : List Nat) :
    (∀ v ∈ vs, ¬ P v) ∨ ∃ xs v more, vs = xs ++ v :: more ∧ (∀ x ∈ xs, ¬ P x) ∧ P v := by
  induction vs with
  | nil => exact .inl (by simp)
  | cons v vs ih =>
    by_cases hv : P v
    · exact .inr ⟨[], v, vs, rfl, by simp, hv⟩
    · rcases ih with h | ⟨xs, w, more, rfl, h1, h2⟩
      · exact .inl (by simpa [hv] using h)
      · exact .inr ⟨v :: xs, w, more, rfl, by simpa [hv] using h1, h2⟩

/-- Draws that hold no key leave the search waiting (rule R135). -/
theorem search_waits {draws : List Nat}
    (h : ∀ xs p ys q zs e left, ¬ KeyDraws draws xs p ys q zs e left) :
    ∃ phase, keygenSearch .seekP draws = .inl phase := by
  rcases first_or_none Nat.Prime draws with h1 | ⟨xs, p, more, hd, hxs, hp⟩
  · exact ⟨.seekP, by have := search_rejectedP draws [] h1; rwa [List.append_nil] at this⟩
  rcases first_or_none Nat.Prime more with h2 | ⟨ys, q, more', hd', hys, hq⟩
  · refine ⟨.seekQ p, ?_⟩
    rw [hd, search_rejectedP _ _ hxs, search_foundP hp]
    have := search_rejectedQ p more [] h2
    rwa [List.append_nil] at this
  rcases first_or_none (fun v => Nat.gcd v ((p - 1) * (q - 1)) = 1) more' with h3 | ⟨zs, e, left, hd'', hzs, he⟩
  · refine ⟨.seekE p q, ?_⟩
    rw [hd, search_rejectedP _ _ hxs, search_foundP hp, hd', search_rejectedQ _ _ _ hys, search_foundQ _ hq]
    have := search_rejectedE p q more' [] h3
    rwa [List.append_nil] at this
  · exact absurd ⟨by rw [hd, hd', hd''], hxs, hp, hys, hq, hzs, he⟩ (h xs p ys q zs e left)

end Sys2Proof.Machine
end

