-- ==== Sys2Proof/Laws/Packet.lean ====
section
/-! SUPPORT. The fields of a packet and of a response (rules R50, R54), and the alphabet (rule R58). -/

namespace Sys2Proof

section packet
variable (opc : BitVec 8) (pad : BitVec 2) (a b c : Word)

/-- The bits of a packet, field by field. -/
theorem packet_getLsbD (i : Nat) :
    (packet opc pad a b c).getLsbD i =
      if i < 8 then opc.getLsbD i
      else if i - 8 < 2 then pad.getLsbD (i - 8)
      else if i - 8 - 2 < 6 then false
      else if i - 8 - 2 - 6 < 64 then a.getLsbD (i - 8 - 2 - 6)
      else if i - 8 - 2 - 6 - 64 < 64 then b.getLsbD (i - 8 - 2 - 6 - 64)
      else c.getLsbD (i - 8 - 2 - 6 - 64 - 64) := by
  show BitVec.getLsbD (w := 64 + 64 + 64 + 6 + 2 + 8)
    (c ++ b ++ a ++ (0 : BitVec 6) ++ pad ++ opc) i = _
  simp only [BitVec.getLsbD_append, BitVec.getLsbD_zero, BitVec.ofNat_eq_ofNat]

theorem packetOpc_packet : packetOpc (packet opc pad a b c) = opc := by
  apply BitVec.eq_of_getLsbD_eq
  intro i hi
  simp only [packetOpc, BitVec.getLsbD_extractLsb', packet_getLsbD, hi, decide_true, Bool.true_and]
  rw [if_pos (by omega)]
  exact congrArg _ (by omega)

theorem packetPad_packet : packetPad (packet opc pad a b c) = pad := by
  apply BitVec.eq_of_getLsbD_eq
  intro i hi
  simp only [packetPad, BitVec.getLsbD_extractLsb', packet_getLsbD, hi, decide_true, Bool.true_and]
  rw [if_neg (by omega), if_pos (by omega)]
  exact congrArg _ (by omega)

theorem packetRsv_packet : packetRsv (packet opc pad a b c) = 0 := by
  apply BitVec.eq_of_getLsbD_eq
  intro i hi
  simp only [packetRsv, BitVec.getLsbD_extractLsb', packet_getLsbD, hi, decide_true, Bool.true_and]
  rw [if_neg (by omega), if_neg (by omega), if_pos (by omega)]
  simp

theorem packetA_packet : packetA (packet opc pad a b c) = a := by
  apply BitVec.eq_of_getLsbD_eq
  intro i hi
  simp only [packetA, BitVec.getLsbD_extractLsb', packet_getLsbD, hi, decide_true, Bool.true_and]
  rw [if_neg (by omega), if_neg (by omega), if_neg (by omega), if_pos (by omega)]
  exact congrArg _ (by omega)

theorem packetB_packet : packetB (packet opc pad a b c) = b := by
  apply BitVec.eq_of_getLsbD_eq
  intro i hi
  simp only [packetB, BitVec.getLsbD_extractLsb', packet_getLsbD, hi, decide_true, Bool.true_and]
  rw [if_neg (by omega), if_neg (by omega), if_neg (by omega), if_neg (by omega), if_pos (by omega)]
  exact congrArg _ (by omega)

theorem packetC_packet : packetC (packet opc pad a b c) = c := by
  apply BitVec.eq_of_getLsbD_eq
  intro i hi
  simp only [packetC, BitVec.getLsbD_extractLsb', packet_getLsbD, hi, decide_true, Bool.true_and]
  rw [if_neg (by omega), if_neg (by omega), if_neg (by omega), if_neg (by omega), if_neg (by omega)]
  exact congrArg _ (by omega)

end packet

/-! ### Headers and decoding -/

/-- A header is its three fields. -/
theorem packetHeader_eq (w : Packet) :
    Machine.packetHeader w = (packetRsv w ++ packetPad w ++ packetOpc w : BitVec 16) := by
  apply BitVec.eq_of_getLsbD_eq
  intro i hi
  show _ = BitVec.getLsbD (w := 6 + 2 + 8) (packetRsv w ++ packetPad w ++ packetOpc w) i
  simp only [Machine.packetHeader, packetRsv, packetPad, packetOpc, BitVec.getLsbD_append,
    BitVec.getLsbD_extractLsb']
  split
  · next h => simp [h, hi]
  split
  · next h => simp only [h, hi, decide_true, Bool.true_and]; exact congrArg _ (by omega)
  · simp only [show i - 8 - 2 < 6 by omega, hi, decide_true, Bool.true_and]
    exact congrArg _ (by omega)

/-- Headers are equal when their fields are. -/
theorem header_inj {a a' : BitVec 6} {b b' : BitVec 2} {c c' : BitVec 8} :
    ((a ++ b ++ c : BitVec 16) = (a' ++ b' ++ c' : BitVec 16)) ↔ a = a' ∧ b = b' ∧ c = c' := by
  constructor
  · intro h
    have key : ∀ i, BitVec.getLsbD (w := 6 + 2 + 8) (a ++ b ++ c) i =
        BitVec.getLsbD (w := 6 + 2 + 8) (a' ++ b' ++ c') i :=
      fun i => congrArg (fun x : BitVec 16 => x.getLsbD i) h
    simp only [BitVec.getLsbD_append] at key
    refine ⟨?_, ?_, ?_⟩ <;> apply BitVec.eq_of_getLsbD_eq <;> intro i hi
    · have := key (i + 10)
      rw [if_neg (by omega), if_neg (by omega), if_neg (by omega), if_neg (by omega)] at this
      simpa [show i + 10 - 8 - 2 = i by omega] using this
    · have := key (i + 8)
      rw [if_neg (by omega), if_pos (by omega), if_neg (by omega), if_pos (by omega)] at this
      simpa [show i + 8 - 8 = i by omega] using this
    · have := key i
      rw [if_pos (by omega), if_pos (by omega)] at this
      exact this
  · rintro ⟨rfl, rfl, rfl⟩; rfl

/-- The mask of the four PUT rows leaves out the padding count (rule R52). -/
theorem header_mask (a : BitVec 6) (b : BitVec 2) (c : BitVec 8) :
    (a ++ b ++ c : BitVec 16) &&& 0xFCFF = (a ++ (0 : BitVec 2) ++ c : BitVec 16) := by
  have : (0xFCFF : BitVec 16) = (BitVec.allOnes 6 ++ (0 : BitVec 2) ++ BitVec.allOnes 8 : BitVec 16) := by
    decide
  rw [this]
  apply BitVec.eq_of_getLsbD_eq
  intro i hi
  show BitVec.getLsbD (w := 6 + 2 + 8)
    ((a ++ b ++ c) &&& (BitVec.allOnes 6 ++ (0 : BitVec 2) ++ BitVec.allOnes 8)) i =
      BitVec.getLsbD (w := 6 + 2 + 8) (a ++ (0 : BitVec 2) ++ c) i
  rw [BitVec.getLsbD_and]
  simp only [BitVec.getLsbD_append, BitVec.getLsbD_allOnes]
  split
  · next h => simp only [h, decide_true, Bool.and_true]
  split
  · simp
  · simp only [show i - 8 - 2 < 6 by omega, decide_true, Bool.and_true]

/-- Matching a row that takes no padding count (rule R52). -/
theorem row_plain (w : Packet) (k : BitVec 8) {m : BitVec 16} (hm : m = (0 : BitVec 6) ++ (0 : BitVec 2) ++ k) :
    Machine.packetHeader w &&& 0xFFFF = m ↔ packetRsv w = 0 ∧ packetPad w = 0 ∧ packetOpc w = k := by
  rw [show Machine.packetHeader w &&& 0xFFFF = Machine.packetHeader w from BitVec.and_allOnes,
    packetHeader_eq, hm]
  exact header_inj

/-- Matching a row that takes a padding count (rule R52). -/
theorem row_padded (w : Packet) (k : BitVec 8) {m : BitVec 16} (hm : m = (0 : BitVec 6) ++ (0 : BitVec 2) ++ k) :
    Machine.packetHeader w &&& 0xFCFF = m ↔ packetRsv w = 0 ∧ packetOpc w = k := by
  rw [packetHeader_eq, header_mask, hm, header_inj]
  exact ⟨fun h => ⟨h.1, h.2.2⟩, fun h => ⟨h.1, rfl, h.2⟩⟩

/-- The commands without a padding count, by opcode (rule R52). -/
theorem decodePlain_cases {opc : BitVec 8} {a b c : Word} {i : Instr} (h : decodePlain opc a b c = some i) :
    (opc = 0x00 ∧ i = .status) ∨
      (opc = 0x01 ∧ i = .beginEncode) ∨
      (opc = 0x02 ∧ i = .beginDecode) ∨
      (opc = 0x03 ∧ i = .endEncode) ∨
      (opc = 0x04 ∧ i = .endDecode) ∨
      (opc = 0x0C ∧ i = .getByte) ∨
      (opc = 0x0D ∧ i = .getInt16) ∨
      (opc = 0x0E ∧ i = .getInt32) ∨
      (opc = 0x0F ∧ i = .getInt64) ∨
      (opc = 0x10 ∧ i = .isPrime a) ∨
      (opc = 0x11 ∧ i = .gcd a b) ∨
      (opc = 0x12 ∧ i = .modInverse a b) ∨
      (opc = 0x13 ∧ i = .modExp a b c) ∨
      (opc = 0x18 ∧ i = .keygen) ∨
      (opc = 0x19 ∧ i = .encrypt a b) ∨
      (opc = 0x1A ∧ i = .decrypt a b) := by
  unfold decodePlain at h
  by_cases h0 : opc = 0x00
  · rw [if_pos h0] at h; cases h; simp [h0]
  rw [if_neg h0] at h
  by_cases h1 : opc = 0x01
  · rw [if_pos h1] at h; cases h; simp [h1]
  rw [if_neg h1] at h
  by_cases h2 : opc = 0x02
  · rw [if_pos h2] at h; cases h; simp [h2]
  rw [if_neg h2] at h
  by_cases h3 : opc = 0x03
  · rw [if_pos h3] at h; cases h; simp [h3]
  rw [if_neg h3] at h
  by_cases h4 : opc = 0x04
  · rw [if_pos h4] at h; cases h; simp [h4]
  rw [if_neg h4] at h
  by_cases h12 : opc = 0x0C
  · rw [if_pos h12] at h; cases h; simp [h12]
  rw [if_neg h12] at h
  by_cases h13 : opc = 0x0D
  · rw [if_pos h13] at h; cases h; simp [h13]
  rw [if_neg h13] at h
  by_cases h14 : opc = 0x0E
  · rw [if_pos h14] at h; cases h; simp [h14]
  rw [if_neg h14] at h
  by_cases h15 : opc = 0x0F
  · rw [if_pos h15] at h; cases h; simp [h15]
  rw [if_neg h15] at h
  by_cases h16 : opc = 0x10
  · rw [if_pos h16] at h; cases h; simp [h16]
  rw [if_neg h16] at h
  by_cases h17 : opc = 0x11
  · rw [if_pos h17] at h; cases h; simp [h17]
  rw [if_neg h17] at h
  by_cases h18 : opc = 0x12
  · rw [if_pos h18] at h; cases h; simp [h18]
  rw [if_neg h18] at h
  by_cases h19 : opc = 0x13
  · rw [if_pos h19] at h; cases h; simp [h19]
  rw [if_neg h19] at h
  by_cases h24 : opc = 0x18
  · rw [if_pos h24] at h; cases h; simp [h24]
  rw [if_neg h24] at h
  by_cases h25 : opc = 0x19
  · rw [if_pos h25] at h; cases h; simp [h25]
  rw [if_neg h25] at h
  by_cases h26 : opc = 0x1A
  · rw [if_pos h26] at h; cases h; simp [h26]
  rw [if_neg h26] at h
  cases h

/-- The commands with a padding count, by opcode (rule R52). -/
theorem decodePut_cases {opc : BitVec 8} {pad : BitVec 2} {a : Word} {i : Instr} (h : decodePut opc pad a = some i) :
    (opc = 0x08 ∧ i = .putByte (a.extractLsb' 0 8) pad) ∨
      (opc = 0x09 ∧ i = .putInt16 (a.extractLsb' 0 16) pad) ∨
      (opc = 0x0A ∧ i = .putInt32 (a.extractLsb' 0 32) pad) ∨
      (opc = 0x0B ∧ i = .putInt64 a pad) := by
  unfold decodePut at h
  by_cases h8 : opc = 0x08
  · rw [if_pos h8] at h; cases h; simp [h8]
  rw [if_neg h8] at h
  by_cases h9 : opc = 0x09
  · rw [if_pos h9] at h; cases h; simp [h9]
  rw [if_neg h9] at h
  by_cases h10 : opc = 0x0A
  · rw [if_pos h10] at h; cases h; simp [h10]
  rw [if_neg h10] at h
  by_cases h11 : opc = 0x0B
  · rw [if_pos h11] at h; cases h; simp [h11]
  rw [if_neg h11] at h
  cases h

/-- How a packet is decoded (rule R62). -/
theorem decode_cases {w : Packet} {i : Instr} (h : decode w = .ok i) :
    packetRsv w = 0 ∧ (decodePut (packetOpc w) (packetPad w) (packetA w) = some i ∨
      (packetPad w = 0 ∧ decodePut (packetOpc w) (packetPad w) (packetA w) = none ∧
        decodePlain (packetOpc w) (packetA w) (packetB w) (packetC w) = some i)) := by
  unfold decode at h
  by_cases hr : packetRsv w = 0
  · refine ⟨hr, ?_⟩
    rw [if_neg (not_not.mpr hr)] at h
    cases hp : decodePut (packetOpc w) (packetPad w) (packetA w) with
    | some j => rw [hp] at h; cases h; exact .inl rfl
    | none =>
      rw [hp] at h
      dsimp only at h
      by_cases hq : packetPad w = 0
      · rw [if_neg (not_not.mpr hq)] at h
        cases hd : decodePlain (packetOpc w) (packetA w) (packetB w) (packetC w) with
        | some j => rw [hd] at h; cases h; exact .inr ⟨hq, rfl, rfl⟩
        | none => rw [hd] at h; cases h
      · rw [if_pos hq] at h; cases h
  · rw [if_pos hr] at h; cases h

namespace Machine

section response
variable (m : Mode) (r : Result)

/-- The bits of a response, field by field. -/
theorem responseWord_getLsbD (i : Nat) :
    (responseWord m r).getLsbD i =
      if i < 4 then (statusCode r.status).getLsbD i
      else if i - 4 < 2 then (modeCode m).getLsbD (i - 4)
      else if i - 4 - 2 < 2 then false
      else if i - 4 - 2 - 2 < 64 then r.r0.getLsbD (i - 4 - 2 - 2)
      else if i - 4 - 2 - 2 - 64 < 64 then r.r1.getLsbD (i - 4 - 2 - 2 - 64)
      else r.r2.getLsbD (i - 4 - 2 - 2 - 64 - 64) := by
  show BitVec.getLsbD (w := 64 + 64 + 64 + 2 + 2 + 4)
    (r.r2 ++ r.r1 ++ r.r0 ++ (0 : BitVec 2) ++ modeCode m ++ statusCode r.status) i = _
  simp only [BitVec.getLsbD_append, BitVec.getLsbD_zero, BitVec.ofNat_eq_ofNat]

theorem responseStatus_responseWord : responseStatus (responseWord m r) = statusCode r.status := by
  apply BitVec.eq_of_getLsbD_eq
  intro i hi
  simp only [responseStatus, BitVec.getLsbD_extractLsb', responseWord_getLsbD, hi, decide_true, Bool.true_and]
  rw [if_pos (by omega)]
  exact congrArg _ (by omega)

theorem responseMode_responseWord : responseMode (responseWord m r) = modeCode m := by
  apply BitVec.eq_of_getLsbD_eq
  intro i hi
  simp only [responseMode, BitVec.getLsbD_extractLsb', responseWord_getLsbD, hi, decide_true, Bool.true_and]
  rw [if_neg (by omega), if_pos (by omega)]
  exact congrArg _ (by omega)

theorem responseR0_responseWord : responseR0 (responseWord m r) = r.r0 := by
  apply BitVec.eq_of_getLsbD_eq
  intro i hi
  simp only [responseR0, BitVec.getLsbD_extractLsb', responseWord_getLsbD, hi, decide_true, Bool.true_and]
  rw [if_neg (by omega), if_neg (by omega), if_neg (by omega), if_pos (by omega)]
  exact congrArg _ (by omega)

theorem responseR1_responseWord : responseR1 (responseWord m r) = r.r1 := by
  apply BitVec.eq_of_getLsbD_eq
  intro i hi
  simp only [responseR1, BitVec.getLsbD_extractLsb', responseWord_getLsbD, hi, decide_true, Bool.true_and]
  rw [if_neg (by omega), if_neg (by omega), if_neg (by omega), if_neg (by omega), if_pos (by omega)]
  exact congrArg _ (by omega)

theorem responseR2_responseWord : responseR2 (responseWord m r) = r.r2 := by
  apply BitVec.eq_of_getLsbD_eq
  intro i hi
  simp only [responseR2, BitVec.getLsbD_extractLsb', responseWord_getLsbD, hi, decide_true, Bool.true_and]
  rw [if_neg (by omega), if_neg (by omega), if_neg (by omega), if_neg (by omega), if_neg (by omega)]
  exact congrArg _ (by omega)

end response

/-! ### The alphabet -/

/-- Every six-bit value is one of these. -/
theorem sextet_cases (v : Sextet) : v ∈ (List.range 64).map (BitVec.ofNat 6) := by
  refine List.mem_map.mpr ⟨v.toNat, List.mem_range.mpr v.isLt, ?_⟩
  apply BitVec.eq_of_toNat_eq; simp

theorem alpha_spec : ∀ v ∈ (List.range 64).map (BitVec.ofNat 6),
    alpha v ≠ padChar ∧ alphaValue (alpha v) = some v := by decide

/-- `VALUE` takes `ALPHA` back (rule R58). -/
theorem alphaValue_alpha (v : Sextet) : alphaValue (alpha v) = some v :=
  (alpha_spec v (sextet_cases v)).2

/-- `=` is no alphabet byte (rule R59). -/
theorem alpha_ne_padChar (v : Sextet) : alpha v ≠ padChar := (alpha_spec v (sextet_cases v)).1

/-- The decoder reads a symbol as the encoder wrote it (rules R58, R91). -/
theorem symbolValue_alpha (v : Sextet) : symbolValue (alpha v) = some v := by
  unfold symbolValue; rw [if_neg (alpha_ne_padChar v), alphaValue_alpha]

theorem symbolValue_padChar : symbolValue padChar = some 0 := by
  unfold symbolValue; rw [if_pos rfl]

end Machine

end Sys2Proof
end

