-- ==== Sys2Proof/Laws/PerInstr.lean ====
section
/-! SUPPORT. Per command: the header of its packet is the one of its row of the opcode map (rules R50, R52). -/

namespace Sys2Proof.Laws.Header

open Sys2Proof.Machine

/-- The packet of a command has reserved bits 0 and, under the mask of the command's row, the row's header. -/
def Statement (i : Instr) : Prop :=
  packetRsv (encode i) = 0 ∧
    ∃ mask, (headerMatch i, mask) ∈ opcodeRows ∧ packetHeader (encode i) &&& mask = headerMatch i

/-- The header of a packet is its padding count and its opcode. -/
theorem packetHeader_packet (opc : BitVec 8) (pad : BitVec 2) (a b c : Word) :
    packetHeader (packet opc pad a b c) = (0 : BitVec 6) ++ pad ++ opc := by
  apply BitVec.eq_of_getLsbD_eq
  intro i hi
  show _ = BitVec.getLsbD (w := 6 + 2 + 8) ((0 : BitVec 6) ++ pad ++ opc) i
  simp only [packetHeader, BitVec.getLsbD_extractLsb', packet_getLsbD, BitVec.getLsbD_append, hi,
    decide_true, Bool.true_and, Nat.zero_add]
  split
  · rfl
  split
  · rfl
  · rw [if_pos (by omega)]; simp

/-- A packet with no padding count. -/
theorem plain (opc : BitVec 8) (a b c : Word) (m : BitVec 16) (h : (m, 0xFFFF) ∈ opcodeRows)
    (hm : (0 : BitVec 6) ++ (0 : BitVec 2) ++ opc = m) :
    packetRsv (packet opc 0 a b c) = 0 ∧
      ∃ mask, (m, mask) ∈ opcodeRows ∧ packetHeader (packet opc 0 a b c) &&& mask = m := by
  refine ⟨packetRsv_packet _ _ _ _ _, 0xFFFF, h, ?_⟩
  rw [packetHeader_packet, hm]
  exact BitVec.and_allOnes

/-- A packet with a padding count, which the mask leaves out. -/
theorem padded (opc : BitVec 8) (pad : BitVec 2) (a b c : Word) (m : BitVec 16) (h : (m, 0xFCFF) ∈ opcodeRows)
    (hm : ∀ pad : BitVec 2, ((0 : BitVec 6) ++ pad ++ opc : BitVec 16) &&& 0xFCFF = m) :
    packetRsv (packet opc pad a b c) = 0 ∧
      ∃ mask, (m, mask) ∈ opcodeRows ∧ packetHeader (packet opc pad a b c) &&& mask = m := by
  refine ⟨packetRsv_packet _ _ _ _ _, 0xFCFF, h, ?_⟩
  rw [packetHeader_packet]
  exact hm pad

theorem status : Statement .status :=
  plain _ _ _ _ 0x0000 (by decide) (by decide)

theorem beginEncode : Statement .beginEncode :=
  plain _ _ _ _ 0x0001 (by decide) (by decide)

theorem beginDecode : Statement .beginDecode :=
  plain _ _ _ _ 0x0002 (by decide) (by decide)

theorem endEncode : Statement .endEncode :=
  plain _ _ _ _ 0x0003 (by decide) (by decide)

theorem endDecode : Statement .endDecode :=
  plain _ _ _ _ 0x0004 (by decide) (by decide)

theorem putByte (v : Byte) (p : BitVec 2) : Statement (.putByte v p) :=
  padded _ _ _ _ _ 0x0008 (by decide) (by decide)

theorem putInt16 (v : BitVec 16) (p : BitVec 2) : Statement (.putInt16 v p) :=
  padded _ _ _ _ _ 0x0009 (by decide) (by decide)

theorem putInt32 (v : BitVec 32) (p : BitVec 2) : Statement (.putInt32 v p) :=
  padded _ _ _ _ _ 0x000A (by decide) (by decide)

theorem putInt64 (v : BitVec 64) (p : BitVec 2) : Statement (.putInt64 v p) :=
  padded _ _ _ _ _ 0x000B (by decide) (by decide)

theorem getByte : Statement .getByte :=
  plain _ _ _ _ 0x000C (by decide) (by decide)

theorem getInt16 : Statement .getInt16 :=
  plain _ _ _ _ 0x000D (by decide) (by decide)

theorem getInt32 : Statement .getInt32 :=
  plain _ _ _ _ 0x000E (by decide) (by decide)

theorem getInt64 : Statement .getInt64 :=
  plain _ _ _ _ 0x000F (by decide) (by decide)

theorem isPrime (n : Word) : Statement (.isPrime n) :=
  plain _ _ _ _ 0x0010 (by decide) (by decide)

theorem gcd (a : Word) (b : Word) : Statement (.gcd a b) :=
  plain _ _ _ _ 0x0011 (by decide) (by decide)

theorem modInverse (a : Word) (n : Word) : Statement (.modInverse a n) :=
  plain _ _ _ _ 0x0012 (by decide) (by decide)

theorem modExp (base : Word) (exponent : Word) (modulus : Word) : Statement (.modExp base exponent modulus) :=
  plain _ _ _ _ 0x0013 (by decide) (by decide)

theorem keygen : Statement .keygen :=
  plain _ _ _ _ 0x0018 (by decide) (by decide)

theorem encrypt (n : Word) (e : Word) : Statement (.encrypt n e) :=
  plain _ _ _ _ 0x0019 (by decide) (by decide)

theorem decrypt (n : Word) (d : Word) : Statement (.decrypt n d) :=
  plain _ _ _ _ 0x001A (by decide) (by decide)

end Sys2Proof.Laws.Header
end

