-- ==== Sys2Proof/Laws/Text.lean ====
section
/-! SUPPORT. What the encoder makes of a whole byte string (rule R79): the bytes of a group, and a session's bytes put
one after another. -/

namespace Sys2Proof.Machine

/-! ### Groups -/

/-- The three bytes of a group, first byte most significant (rules R13, R36). -/
theorem pushByte_group (a b c : Byte) :
    pushByte (pushByte (pushByte 0 a) b) c = (a ++ b ++ c : BitVec 24) := by
  apply BitVec.eq_of_toNat_eq
  have ha := a.isLt
  have hb := b.isLt
  have hc := c.isLt
  have h256 : (256 : BitVec 24).toNat = 256 := rfl
  have h0 : (0 : BitVec 24).toNat = 0 := rfl
  simp only [pushByte, BitVec.toNat_add, BitVec.toNat_mul, BitVec.toNat_setWidth, BitVec.toNat_append,
    Nat.shiftLeft_eq, h256, h0]
  rw [← Nat.shiftLeft_eq, ← Nat.shiftLeft_add_eq_or_of_lt (by omega), ← Nat.shiftLeft_eq,
    ← Nat.shiftLeft_add_eq_or_of_lt (by omega)]
  simp only [Nat.shiftLeft_eq]
  omega

theorem groupSextet_eq (g : BitVec 24) (i : Nat) :
    groupSextet g i = g.extractLsb' (18 - 6 * i) 6 := by
  apply BitVec.eq_of_toNat_eq
  simp [groupSextet]

/-- A group sent without padding is its four symbols (rules R72, R79). -/
theorem groupSymbols_zero (a b c : Byte) :
    groupSymbols (pushByte (pushByte (pushByte 0 a) b) c) 0 = groupText a b c := by
  rw [pushByte_group]
  simp [groupSymbols, groupSymbol, groupSextet_eq, groupText, groupFields]

/-- A group of one data byte, padded (rules R78, R79). -/
theorem groupSymbols_one (a : Byte) :
    groupSymbols (pushByte (pushByte (pushByte 0 a) 0) 0) 2 =
      (groupText a 0 0).take 2 ++ [padChar, padChar] := by
  rw [pushByte_group]
  simp [groupSymbols, groupSymbol, groupSextet_eq, groupText, groupFields]

/-- A group of two data bytes, padded (rules R78, R79). -/
theorem groupSymbols_two (a b : Byte) :
    groupSymbols (pushByte (pushByte (pushByte 0 a) b) 0) 1 =
      (groupText a b 0).take 3 ++ [padChar] := by
  rw [pushByte_group]
  simp [groupSymbols, groupSymbol, groupSextet_eq, groupText, groupFields]

/-! ### Sessions -/

/-- The state after raw bytes have been put without padding. -/
def putBytes (s : State) (bytes : List Byte) : State :=
  bytes.foldl (fun s b => putState s b 0) s

@[simp] theorem putBytes_nil (s : State) : putBytes s [] = s := rfl

theorem putBytes_cons (s : State) (b : Byte) (bytes : List Byte) :
    putBytes s (b :: bytes) = putBytes (putState s b 0) bytes := rfl

theorem putBytes_append (s : State) (xs ys : List Byte) :
    putBytes s (xs ++ ys) = putBytes (putBytes s xs) ys := by
  simp [putBytes, List.foldl_append]

@[simp] theorem putBytes_resetIn (s : State) (bytes : List Byte) :
    (putBytes s bytes).resetIn = s.resetIn := by
  induction bytes generalizing s with
  | nil => rfl
  | cons b bs ih => rw [putBytes_cons, ih, putState_resetIn]

@[simp] theorem putBytes_mode (s : State) (bytes : List Byte) :
    (putBytes s bytes).mode = s.mode := by
  induction bytes generalizing s with
  | nil => rfl
  | cons b bs ih => rw [putBytes_cons, ih, putState_mode]

theorem putState_byteCount {s : State} (h : s.byteCount ≠ 3) (v : Byte) (p : BitVec 2) :
    (putState s v p).byteCount ≠ 3 := by
  have key : ∀ c : BitVec 2, c ≠ 3 → c ≠ 2 → c + 1 ≠ 3 := by decide
  unfold putState
  split
  · simp [flushed]
  · next hc => exact key _ h hc

/-- The byte count stays steady (rule R13). -/
theorem putBytes_byteCount {s : State} (h : s.byteCount ≠ 3) (bytes : List Byte) :
    (putBytes s bytes).byteCount ≠ 3 := by
  induction bytes generalizing s with
  | nil => exact h
  | cons b bs ih => rw [putBytes_cons]; exact ih (putState_byteCount h b 0)

/-- Nothing is pending in the encoder. -/
def Empty (s : State) : Prop := s.byteCount = 0 ∧ s.bitBuffer = 0

theorem emitted_empty {s : State} (h : Empty s) (xs : List Byte) : Empty (emitted s xs) := h

/-- Three bytes put with nothing pending are sent at once (rule R72). -/
theorem putBytes_group {s : State} (h : Empty s) (a b c : Byte) (more : List Byte) :
    putBytes s (a :: b :: c :: more) = putBytes (emitted s (groupText a b c)) more := by
  obtain ⟨h1, h2⟩ := h
  simp only [putBytes_cons]
  congr 1
  have e1 : putState s a 0 = buffered s a := by simp [putState, h1]
  have e2 : putState (buffered s a) b 0 = buffered (buffered s a) b := by
    simp [putState, buffered, h1]
  have e3 : putState (buffered (buffered s a) b) c 0
      = flushed (buffered (buffered (buffered s a) b) c) 0 := by
    simp [putState, buffered, h1]
  rw [e1, e2, e3]
  have hg : (buffered (buffered (buffered s a) b) c).bitBuffer
      = pushByte (pushByte (pushByte 0 a) b) c := by simp [buffered, h2]
  unfold flushed
  rw [hg, groupSymbols_zero]
  simp [buffered, emitted, h1, h2]

/-- Bytes put with nothing pending, then the end of the session: their whole text is sent (rule R79). -/
theorem encodeEnded_putBytes {s : State} (h : Empty s) (bytes : List Byte) :
    encodeEnded (putBytes s bytes) =
      { emitted s (radixSymbols bytes) with
        txtOut := sinkDetached (emitted s (radixSymbols bytes)).txtOut
        mode := .idle } := by
  induction bytes using radixSymbols.induct generalizing s with
  | case1 =>
    obtain ⟨h1, h2⟩ := h
    simp [encodeEnded, lastSymbols, h1, radixSymbols]
  | case2 a =>
    obtain ⟨h1, h2⟩ := h
    have e1 : putBytes s [a] = buffered s a := by simp [putBytes, putState, h1]
    rw [e1, radixSymbols, ← groupSymbols_one]
    simp [encodeEnded, lastSymbols, buffered, emitted, h1, h2]
  | case3 a b =>
    obtain ⟨h1, h2⟩ := h
    have e1 : putBytes s [a, b] = buffered (buffered s a) b := by
      simp [putBytes, putState, buffered, h1]
    rw [e1, radixSymbols, ← groupSymbols_two]
    simp [encodeEnded, lastSymbols, buffered, emitted, h1, h2]
  | case4 a b c more ih =>
    rw [putBytes_group h, ih (emitted_empty h _), emitted_emitted]
    rw [radixSymbols]

/-! ### Integers -/

theorem lowHalf_natByte8 (v : BitVec 16) : lowHalf (w := 8) v = natByte v.toNat 0 := by
  apply BitVec.eq_of_toNat_eq
  simp [lowHalf, natByte, BitVec.extractLsb'_toNat]

theorem putState16_eq (s : State) (v : BitVec 16) :
    putState16 s v 0 = putBytes s [natByte v.toNat 0, natByte v.toNat 1] := by
  have h2 : highHalf (w := 8) v = natByte v.toNat 1 := by
    apply BitVec.eq_of_toNat_eq
    simp [highHalf, natByte, BitVec.extractLsb'_toNat, Nat.shiftRight_eq_div_pow]
  rw [putState16, lowHalf_natByte8, h2]
  rfl

/-- An integer put without padding is its four bytes, least significant first (rule R75). -/
theorem putState32_eq (s : State) (v : BitVec 32) :
    putState32 s v 0 = putBytes s (le32 v.toNat) := by
  have hl : (lowHalf (w := 16) v).toNat = v.toNat % 65536 := by
    simp [lowHalf, BitVec.extractLsb'_toNat]
  have hh : (highHalf (w := 16) v).toNat = v.toNat / 65536 % 65536 := by
    simp [highHalf, BitVec.extractLsb'_toNat, Nat.shiftRight_eq_div_pow]
  rw [putState32, putState16_eq, putState16_eq, ← putBytes_append, hl, hh]
  have e0 : natByte (v.toNat % 65536) 0 = natByte v.toNat 0 := by
    apply BitVec.eq_of_toNat_eq; simp [natByte]
  have e1 : natByte (v.toNat % 65536) 1 = natByte v.toNat 1 := by
    apply BitVec.eq_of_toNat_eq; simp [natByte]; omega
  have e2 : natByte (v.toNat / 65536 % 65536) 0 = natByte v.toNat 2 := by
    apply BitVec.eq_of_toNat_eq; simp [natByte]
  have e3 : natByte (v.toNat / 65536 % 65536) 1 = natByte v.toNat 3 := by
    apply BitVec.eq_of_toNat_eq; simp [natByte]; omega
  rw [e0, e1, e2, e3]
  rfl

end Sys2Proof.Machine
end

