-- ==== Sys2Proof/Laws/Pipeline.lean ====
section
/-! SUPPORT. What ENCRYPT and DECRYPT do where no reset is coming, in terms of whole streams (rules R140 to R148). -/

namespace Sys2Proof.Machine

/-! ### ENCRYPT -/

/-- The state with the unread bytes of `PT_IN` replaced. -/
def plainLeft (s : State) (rest : List Byte) : State := { s with ptIn := { s.ptIn with rest := rest } }

@[simp] theorem plainLeft_resetIn (s : State) (r : List Byte) : (plainLeft s r).resetIn = s.resetIn := rfl
@[simp] theorem plainLeft_mode (s : State) (r : List Byte) : (plainLeft s r).mode = s.mode := rfl
@[simp] theorem plainLeft_params (s : State) (r : List Byte) : (plainLeft s r).params = s.params := rfl
@[simp] theorem plainLeft_rest (s : State) (r : List Byte) : (plainLeft s r).ptIn.rest = r := rfl
@[simp] theorem plainLeft_plainLeft (s : State) (r q : List Byte) :
    plainLeft (plainLeft s r) q = plainLeft s q := rfl
@[simp] theorem plainLeft_same (s : State) : plainLeft s s.ptIn.rest = s := rfl

theorem putState_plainLeft (s : State) (r : List Byte) (v : Byte) (p : BitVec 2) :
    putState (plainLeft s r) v p = plainLeft (putState s v p) r := by
  unfold putState
  by_cases h : s.byteCount = 2
  · rw [if_pos h, if_pos (show (plainLeft s r).byteCount = 2 from h)]; rfl
  · rw [if_neg h, if_neg (show ¬(plainLeft s r).byteCount = 2 from h)]; rfl

theorem putBytes_plainLeft (s : State) (r bytes : List Byte) :
    putBytes (plainLeft s r) bytes = plainLeft (putBytes s bytes) r := by
  induction bytes generalizing s with
  | nil => rfl
  | cons b bs ih => rw [putBytes_cons, putBytes_cons, putState_plainLeft, ih]

@[simp] theorem putState_ptIn (s : State) (v : Byte) (p : BitVec 2) : (putState s v p).ptIn = s.ptIn := by
  unfold putState; split <;> rfl

@[simp] theorem putBytes_ptIn (s : State) (bytes : List Byte) : (putBytes s bytes).ptIn = s.ptIn := by
  induction bytes generalizing s with
  | nil => rfl
  | cons b bs ih => rw [putBytes_cons, ih, putState_ptIn]

@[simp] theorem putBytes_params (s : State) (bytes : List Byte) : (putBytes s bytes).params = s.params := by
  induction bytes generalizing s with
  | nil => rfl
  | cons b bs ih => rw [putBytes_cons, ih, putState_params]

theorem readPlain_true_run {s : State} (h : s.resetIn = []) {b : Byte} {more : List Byte}
    (hr : s.ptIn.rest = b :: more) : (readPlain true).run s = .ok b (plainLeft s more) := by
  unfold readPlain
  rw [if_pos rfl, bind_of_ok (memRead_run h .ptIn)]
  simp only [sourceOf_ptIn, withSource_ptIn, hr, List.head?_cons, List.tail_cons, Option.getD_some,
    EStateM.run_pure]
  rfl

theorem readPlain_false_run (s : State) : (readPlain false).run s = .ok 0 s := rfl

/-- Reading a block takes the next value off the plaintext (rule R142). -/
theorem readBlock_run {s : State} (h : s.resetIn = []) {len i : Nat} (hi : i < len)
    (hl : s.ptIn.rest.length = len - i) :
    ∃ v vs, blockValues s.ptIn.rest = v :: vs ∧ blockValues (s.ptIn.rest.drop 3) = vs ∧
      (readBlock len i).run s = .ok v (plainLeft s (s.ptIn.rest.drop 3)) := by
  unfold readBlock
  match hr : s.ptIn.rest with
  | [] => rw [hr, List.length_nil] at hl; omega
  | [a] =>
    rw [hr] at hl
    refine ⟨blockValue a 0 0, [], by simp [blockValues], by simp [blockValues], ?_⟩
    simp only [List.length_singleton] at hl
    rw [bind_of_ok (readPlain_true_run h hr), decide_eq_false (by omega),
      bind_of_ok (readPlain_false_run _), decide_eq_false (by omega),
      bind_of_ok (readPlain_false_run _)]
    rfl
  | [a, b] =>
    rw [hr] at hl
    refine ⟨blockValue a b 0, [], by simp [blockValues], by simp [blockValues], ?_⟩
    simp only [List.length_cons, List.length_nil] at hl
    rw [bind_of_ok (readPlain_true_run h hr), decide_eq_true (by omega),
      bind_of_ok (readPlain_true_run (s := plainLeft s [b]) h rfl), decide_eq_false (by omega),
      bind_of_ok (readPlain_false_run _)]
    rfl
  | a :: b :: c :: more =>
    rw [hr] at hl
    refine ⟨blockValue a b c, blockValues more, by simp [blockValues], by simp, ?_⟩
    simp only [List.length_cons] at hl
    rw [bind_of_ok (readPlain_true_run h hr), decide_eq_true (by omega),
      bind_of_ok (readPlain_true_run (s := plainLeft s (b :: c :: more)) h rfl),
      decide_eq_true (by omega),
      bind_of_ok (readPlain_true_run (s := plainLeft (plainLeft s (b :: c :: more)) (c :: more)) h rfl)]
    rfl

/-- The cipher blocks ENCRYPT writes for the block values of its plaintext, and the status it ends with: with the
check set, the first value not below `n` ends it (rules R141, R143). -/
def cipherBlocks (strict : Bool) (n e : Nat) : List Nat → Status × List Nat
  | [] => (.ok, [])
  | v :: more =>
    if (strict && v ≥ n) = true then (.blockRange, [])
    else ((cipherBlocks strict n e more).1, powMod v e n :: (cipherBlocks strict n e more).2)

/-- No block is refused where the check is unset or every value is below `n`. -/
theorem cipherBlocks_ok {strict : Bool} {n e : Nat} {values : List Nat}
    (h : strict = false ∨ ∀ v ∈ values, v < n) :
    cipherBlocks strict n e values = (.ok, values.map fun v => powMod v e n) := by
  induction values with
  | nil => rfl
  | cons v vs ih =>
    have hv : ¬ (strict && decide (v ≥ n)) = true := by
      rcases h with h | h
      · simp [h]
      · have := h v (by simp)
        simp; omega
    rw [cipherBlocks, if_neg hv, ih (h.imp id fun h x hx => h x (by simp [hx]))]
    rfl

/-- The first value not below `n` is refused where the check is set (rule R143). -/
theorem cipherBlocks_refused {n e v : Nat} {values more : List Nat} (h : ∀ v ∈ values, v < n) (hv : n ≤ v) :
    cipherBlocks true n e (values ++ v :: more) = (.blockRange, values.map fun v => powMod v e n) := by
  induction values with
  | nil => simp [cipherBlocks, hv]
  | cons w ws ih =>
    have := h w (by simp)
    rw [List.cons_append, cipherBlocks, if_neg (by simp; omega), ih fun x hx => h x (by simp [hx])]
    rfl

theorem putInt32_zero_run {s : State} (h : s.resetIn = []) (hm : s.mode = .encoding) {v : Nat}
    (hv : v < 2 ^ 32) : (putInt32 (BitVec.ofNat 32 v) 0).run s = .ok () (putBytes s (le32 v)) := by
  rw [putInt32_run h hm, putState32_eq, BitVec.toNat_ofNat, Nat.mod_eq_of_lt hv]

/-- The block loop of ENCRYPT (rules R141, R143). -/
theorem encryptLoop_run {n e len : Nat} (hn0 : n ≠ 0) (hn : n ≤ 2 ^ 32) (turns i blocks : Nat) (s : State)
    (h : s.resetIn = []) (hm : s.mode = .encoding) (hl : s.ptIn.rest.length = len - i)
    (ht : len - i ≤ turns) :
    ∃ left,
      (encryptLoop n e len turns i blocks).run s =
        .ok ((cipherBlocks s.params.strictBlockCheck n e (blockValues s.ptIn.rest)).1,
            blocks + (cipherBlocks s.params.strictBlockCheck n e (blockValues s.ptIn.rest)).2.length)
          (plainLeft (putBytes s
            ((cipherBlocks s.params.strictBlockCheck n e (blockValues s.ptIn.rest)).2.flatMap le32)) left) := by
  induction turns generalizing i blocks s with
  | zero =>
    have hnil : s.ptIn.rest = [] := List.eq_nil_of_length_eq_zero (by omega)
    refine ⟨[], ?_⟩
    rw [hnil]
    simp only [encryptLoop, blockValues, cipherBlocks, List.length_nil, List.flatMap_nil, putBytes_nil,
      Nat.add_zero, EStateM.run_pure]
    rw [← hnil]
    rfl
  | succ turns ih =>
    unfold encryptLoop
    by_cases hi : i < len
    · rw [if_pos hi]
      obtain ⟨v, vs, hv, hvs, hrun⟩ := readBlock_run h hi hl
      rw [bind_of_ok hrun, getState_bind, hv, cipherBlocks]
      unfold blockRefused
      by_cases hc : (s.params.strictBlockCheck && decide (v ≥ n)) = true
      · rw [if_pos hc, if_pos (show ((plainLeft s (s.ptIn.rest.drop 3)).params.strictBlockCheck && decide (v ≥ n)) = true from hc)]
        exact ⟨s.ptIn.rest.drop 3, rfl⟩
      · rw [if_neg hc, if_neg (show ¬((plainLeft s (s.ptIn.rest.drop 3)).params.strictBlockCheck && decide (v ≥ n)) = true from hc),
          modExp_eq, bind_of_ok (putInt32_zero_run (s := plainLeft s (s.ptIn.rest.drop 3)) h hm (powMod_lt hn0 hn))]
        obtain ⟨left, hrun'⟩ := ih (i + 3) (blocks + 1)
          (putBytes (plainLeft s (s.ptIn.rest.drop 3)) (le32 (powMod v e n)))
          (by simpa using h) (by simpa using hm) (by simp [List.length_drop]; omega) (by omega)
        refine ⟨left, ?_⟩
        rw [hrun']
        simp only [plainLeft_rest, putBytes_params, plainLeft_params, hvs,
          List.length_cons, List.flatMap_cons, putBytes_append, putBytes_plainLeft, plainLeft_plainLeft]
        congr 2
        omega
    · have hnil : s.ptIn.rest = [] := List.eq_nil_of_length_eq_zero (by omega)
      rw [if_neg hi, hnil]
      refine ⟨[], ?_⟩
      simp only [blockValues, cipherBlocks, List.length_nil, List.flatMap_nil, putBytes_nil,
        Nat.add_zero, EStateM.run_pure]
      rw [← hnil]
      rfl

/-- The state ENCRYPT leaves once both ports are open: the text of a raw byte string is on `TXT_OUT` (rules R79, R141). -/
def encryptedState (s : State) (raw : List Byte) : State :=
  { s with
    mode := .idle
    bitBuffer := 0
    byteCount := 0
    column := BitVec.ofNat 6 (radixSymbols raw).length
    txtOut :=
      { attached := false
        events := (sessionClosed s).txtOut.events ++
          (.opened :: byteEvents (radixText s.params.newline raw) ++ [.closed])
        opens := restAnswers s.txtOut.opens }
    txtIn := (sessionClosed s).txtIn
    ptIn := { attached := false, rest := [], opens := restAnswers s.ptIn.opens } }

/-- The state once `PT_IN` is open on a resource. -/
def plainOpened (s : State) (data : List Byte) : State :=
  { s with ptIn := { attached := true, rest := data, opens := restAnswers s.ptIn.opens } }

theorem openPlain_run {s : State} (h : s.resetIn = []) {data : List Byte}
    (hd : resource s.ptIn = some data) : (openSource .ptIn).run s = .ok true (plainOpened s data) := by
  unfold resource at hd
  rw [openSource_run h]
  simp [sourceAttached, hd, plainOpened]

/-- ENCRYPT with both opens granted (rules R141, R143). -/
theorem encryptBody_run {s : State} {n e : Nat} {data : List Byte} (h : s.resetIn = []) (hn0 : n ≠ 0)
    (hn : n ≤ 2 ^ 32) (hd : resource s.ptIn = some data) (hl : data.length < 2 ^ 32)
    (ho : grants s.txtOut = true) :
    (encryptBody n e).run s =
      .ok { status := (cipherBlocks s.params.strictBlockCheck n e (blockValues data)).1
            r0 := BitVec.ofNat 64 (cipherBlocks s.params.strictBlockCheck n e (blockValues data)).2.length
            r1 := BitVec.ofNat 64 data.length }
        (encryptedState s (cipherStream data.length
          (cipherBlocks s.params.strictBlockCheck n e (blockValues data)).2)) := by
  unfold encryptBody
  have hr : modulusRefused n = false := by
    simp [modulusRefused, maxModulus]; omega
  rw [if_neg (by simp [hr])]
  unfold encryptOpen
  rw [bind_of_ok (openPlain_run h hd), if_pos rfl]
  unfold encryptOpened
  rw [getState_bind, if_neg (by simp [plainOpened, lengthLimit]; omega)]
  unfold encryptBegin
  have ho' : nextAnswer (plainOpened s data).txtOut.opens = true := ho
  rw [bind_of_ok (beginEncode_run (s := plainOpened s data) h), ho', if_pos rfl]
  unfold encryptStream
  have hm : (encodeBegun (plainOpened s data)).mode = .encoding := by simp [encodeBegun, ho']
  have hempty : Empty (encodeBegun (plainOpened s data)) := ⟨rfl, rfl⟩
  have hrest : (encodeBegun (plainOpened s data)).ptIn.rest = data := rfl
  have hpar : (encodeBegun (plainOpened s data)).params = s.params := rfl
  rw [show (plainOpened s data).ptIn.rest.length = data.length from rfl,
    bind_of_ok (putInt32_zero_run (by exact h) hm hl)]
  obtain ⟨left, hloop⟩ := encryptLoop_run (e := e) (len := data.length) hn0 hn data.length 0 0
    (putBytes (encodeBegun (plainOpened s data)) (le32 data.length)) (by rw [putBytes_resetIn]; exact h)
    (by rw [putBytes_mode]; exact hm) (by rw [putBytes_ptIn, hrest]; simp) (by omega)
  rw [putBytes_ptIn, putBytes_params, hrest, hpar] at hloop
  rw [bind_of_ok hloop]
  generalize cipherBlocks s.params.strictBlockCheck n e (blockValues data) = out
  obtain ⟨st, ciphers⟩ := out
  unfold encryptFinish
  rw [← putBytes_append, show le32 data.length ++ ciphers.flatMap le32 = cipherStream data.length ciphers from rfl]
  generalize hraw : cipherStream data.length ciphers = raw
  have hc0 : (encodeBegun (plainOpened s data)).byteCount ≠ 3 := by rw [hempty.1]; decide
  have hc3 := putBytes_byteCount hc0 raw
  rw [bind_of_ok (endEncode_run (s := plainLeft (putBytes (encodeBegun (plainOpened s data)) raw) left)
      (by rw [plainLeft_resetIn, putBytes_resetIn]; exact h)
      (by rw [plainLeft_mode, putBytes_mode]; exact hm) hc3),
    bind_of_ok (closeSource_run (by
      show (putBytes (encodeBegun (plainOpened s data)) raw).resetIn = []
      rw [putBytes_resetIn]; exact h) .ptIn)]
  have hfin : encodeEnded (plainLeft (putBytes (encodeBegun (plainOpened s data)) raw) left)
      = plainLeft (encodeEnded (putBytes (encodeBegun (plainOpened s data)) raw)) left := rfl
  rw [hfin, encodeEnded_putBytes hempty]
  rw [encodeBegun_granted ho']
  simp only [Nat.zero_add, EStateM.run_pure]
  congr 1
  simp [encryptedState, plainLeft, emitted, radixText, sourceDetached, plainOpened, sinkDetached, addEvent,
    sessionClosed]
  exact ⟨rfl, rfl⟩

/-! ### DECRYPT -/

/-- The state with bytes written to `PT_OUT`. -/
def plainWritten (s : State) (bytes : List Byte) : State :=
  { s with ptOut := { s.ptOut with events := s.ptOut.events ++ byteEvents bytes } }

theorem plainWritten_plainWritten (s : State) (xs ys : List Byte) :
    plainWritten (plainWritten s xs) ys = plainWritten s (xs ++ ys) := by
  simp [plainWritten]

theorem writePlain_true_run {s : State} (h : s.resetIn = []) (v : Byte) (count : Nat) :
    (writePlain true v count).run s = .ok (count + 1) (plainWritten s [v]) := by
  unfold writePlain
  rw [if_pos rfl, bind_of_ok (memWrite_run h .ptOut v)]
  rfl

theorem writePlain_false_run (s : State) (v : Byte) (count : Nat) :
    (writePlain false v count).run s = .ok count s := rfl

/-- Writing a block writes its first bytes, as many as are left of the length (rules R146, R147). -/
theorem writeBlock_run {s : State} (h : s.resetIn = []) {len i : Nat} (hi : i < len) (v count : Nat) :
    (writeBlock len i v count).run s =
      .ok (count + min 3 (len - i)) (plainWritten s ((plainBytes v).take (len - i))) := by
  unfold writeBlock
  rw [bind_of_ok (writePlain_true_run h _ _)]
  have h1 : (plainWritten s [natByte v 0]).resetIn = [] := h
  rcases Nat.lt_or_ge (i + 1) len with hb | hb
  · rw [decide_eq_true hb, bind_of_ok (writePlain_true_run h1 _ _), plainWritten_plainWritten]
    have h2 : (plainWritten s ([natByte v 0] ++ [natByte v 1])).resetIn = [] := h
    rcases Nat.lt_or_ge (i + 2) len with hc | hc
    · rw [decide_eq_true hc, writePlain_true_run h2, plainWritten_plainWritten]
      obtain ⟨k, hk⟩ : ∃ k, len - i = k + 3 := ⟨len - i - 3, by omega⟩
      rw [hk, show min 3 (k + 3) = 3 by omega, List.take_of_length_le (by simp [plainBytes])]
      rfl
    · rw [decide_eq_false (by omega), writePlain_false_run, show len - i = 2 by omega]
      rfl
  · rw [decide_eq_false (by omega), bind_of_ok (writePlain_false_run _ _ _), decide_eq_false (by omega),
      writePlain_false_run, show len - i = 1 by omega]
    rfl

theorem upcoming_plainWritten (s : State) (xs : List Byte) : upcoming (plainWritten s xs) = upcoming s := rfl

theorem plainWritten_served (s : State) (g : BitVec 24) (c : BitVec 2) (r xs : List Byte) :
    plainWritten (served s g c r) xs = served (plainWritten s xs) g c r := rfl

@[simp] theorem le32_length (v : Nat) : (le32 v).length = 4 := rfl

theorem littleEndian_le32 {v : Nat} (h : v < 2 ^ 32) : littleEndian (le32 v) = v := by
  simp only [le32, littleEndian, natByte, BitVec.toNat_ofNat]
  norm_num
  omega

theorem getInt32_next {s : State} (h : s.resetIn = []) (hm : s.mode = .decoding) {v : Nat} (hv : v < 2 ^ 32)
    {more : List Byte} (hu : upcoming s = le32 v ++ more) :
    ∃ g c rest, getInt32.run s = .ok (.ok (BitVec.ofNat 32 v)) (served s g c rest) ∧
      upcoming (served s g c rest) = more ∧ Serves s 4 g c rest := by
  obtain ⟨g, c, rest, h1, h2, h3, _⟩ := (getInt32_reads s h hm).1 (by simp [hu])
  refine ⟨g, c, rest, ?_, ?_, h3⟩
  · rw [h1, hu, List.take_left' (le32_length v), littleEndian_le32 hv]
  · rw [h2, hu, List.drop_left' (le32_length v)]

/-- The plaintext of cipher values (rules R146, R147). -/
def plainOf (n d : Nat) (ciphers : List Nat) : List Byte :=
  ciphers.flatMap fun c => plainBytes (powMod c d n)

theorem plainOf_length (n d : Nat) (ciphers : List Nat) : (plainOf n d ciphers).length = 3 * ciphers.length := by
  induction ciphers with
  | nil => rfl
  | cons c cs ih => simp [plainOf, plainBytes] at ih ⊢; omega

theorem plainOf_cons_take (n d c : Nat) (cs : List Nat) (k : Nat) :
    (plainOf n d (c :: cs)).take k =
      (plainBytes (powMod c d n)).take k ++ (plainOf n d cs).take (k - 3) := by
  simp only [plainOf, List.flatMap_cons, List.take_append]
  rfl

/-- The block loop of DECRYPT over a stream that has all its blocks (rule R146). -/
theorem decryptLoop_run {n d len : Nat} (turns i count : Nat) (s : State) (ciphers : List Nat)
    (extra : List Byte) (h : s.resetIn = []) (hm : s.mode = .decoding)
    (hu : upcoming s = ciphers.flatMap le32 ++ extra) (hc : ∀ c ∈ ciphers, c < 2 ^ 32)
    (hb : ciphers.length = blockCount (len - i)) (ht : len - i ≤ turns) :
    ∃ g c rest,
      (decryptLoop n d len turns i count).run s =
        .ok (.ok, count + (len - i))
          (served (plainWritten s ((plainOf n d ciphers).take (len - i))) g c rest) ∧
      Serves s (4 * ciphers.length) g c rest := by
  induction turns generalizing i count s ciphers with
  | zero =>
    have hz : len - i = 0 := by omega
    refine ⟨s.bitBuffer, s.byteCount, s.txtIn.rest, ?_, ?_⟩
    · rw [hz]
      simp [decryptLoop, plainWritten, served, unread]
    · rw [hb, hz]; exact .none s
  | succ turns ih =>
    unfold decryptLoop
    by_cases hi : i < len
    · rw [if_pos hi]
      match ciphers, hb with
      | [], hb => unfold blockCount at hb; simp at hb; omega
      | v :: vs, hb =>
        obtain ⟨g, c, rest, hrun, hup, hsv⟩ := getInt32_next h hm (hc v (by simp))
          (more := vs.flatMap le32 ++ extra) (by rw [hu]; simp)
        rw [bind_of_ok hrun]
        dsimp only
        rw [BitVec.toNat_ofNat, Nat.mod_eq_of_lt (hc v (by simp)), modExp_eq,
          bind_of_ok (writeBlock_run (s := served s g c rest) h hi _ _)]
        obtain ⟨g', c', rest', hrun', hsv'⟩ := ih (i + 3) (count + min 3 (len - i))
          (plainWritten (served s g c rest) ((plainBytes (powMod v d n)).take (len - i))) vs h hm
          (by rw [upcoming_plainWritten, hup]) (fun x hx => hc x (by simp [hx]))
          (by unfold blockCount at hb ⊢; simp at hb; omega) (by omega)
        refine ⟨g', c', rest', ?_, ?_⟩
        swap
        · have := hsv.trans (n := 4 * vs.length) (g' := g') (c' := c') (r' := rest')
            ⟨hsv'.group, hsv'.count, hsv'.bytes, hsv'.taken, hsv'.ends⟩
          rwa [show 4 + 4 * vs.length = 4 * (v :: vs).length by simp; omega] at this
        rw [hrun', plainWritten_served, plainWritten_served, served_served, plainWritten_plainWritten,
          plainOf_cons_take, show len - (i + 3) = len - i - 3 by omega]
        congr 2
        omega
    · have hz : len - i = 0 := by omega
      rw [if_neg hi, hz]
      refine ⟨s.bitBuffer, s.byteCount, s.txtIn.rest, ?_, ?_⟩
      · simp [plainWritten, served, unread]
      · rw [hb, hz]; exact .none s

/-- The block loop of DECRYPT over a stream that ends too early (rule R148). -/
theorem decryptLoop_short_run {n d len : Nat} (turns i count : Nat) (s : State) (ciphers : List Nat)
    (extra : List Byte) (h : s.resetIn = []) (hm : s.mode = .decoding)
    (hu : upcoming s = ciphers.flatMap le32 ++ extra) (hc : ∀ c ∈ ciphers, c < 2 ^ 32)
    (hb : ciphers.length < blockCount (len - i)) (he : extra.length < 4) (ht : len - i ≤ turns) :
      (decryptLoop n d len turns i count).run s =
        .ok (textEnd s.params.skip s.txtIn.rest, count + 3 * ciphers.length)
          (served (plainWritten s (plainOf n d ciphers)) (lastGroup s.bitBuffer (textBytes s.params.skip s.txtIn.rest)) 0
            (textScan s.params.skip [] s.txtIn.rest).2.2) := by
  induction turns generalizing i count s ciphers with
  | zero => unfold blockCount at hb; omega
  | succ turns ih =>
    unfold decryptLoop
    have hi : i < len := by unfold blockCount at hb; omega
    rw [if_pos hi]
    match ciphers, hb with
    | [], hb =>
      have hrun := (getInt32_reads s h hm).2 (by rw [hu]; simpa using he)
      rw [bind_of_ok hrun]
      simp [plainWritten, plainOf]
    | v :: vs, hb =>
      obtain ⟨g, c, rest, hrun, hup, hsv⟩ := getInt32_next h hm (hc v (by simp))
        (more := vs.flatMap le32 ++ extra) (by rw [hu]; simp)
      rw [bind_of_ok hrun]
      dsimp only
      have hfull : 3 ≤ len - i := by unfold blockCount at hb; simp at hb; omega
      rw [BitVec.toNat_ofNat, Nat.mod_eq_of_lt (hc v (by simp)), modExp_eq,
        bind_of_ok (writeBlock_run (s := served s g c rest) h hi _ _)]
      have hrun' := ih (i + 3) (count + min 3 (len - i))
        (plainWritten (served s g c rest) ((plainBytes (powMod v d n)).take (len - i))) vs h hm
        (by rw [upcoming_plainWritten, hup]) (fun x hx => hc x (by simp [hx]))
        (by unfold blockCount at hb ⊢; simp at hb; omega) (by omega)
      have e1 : (plainWritten (served s g c rest) ((plainBytes (powMod v d n)).take (len - i))).txtIn.rest
          = rest := rfl
      have e2 : (plainWritten (served s g c rest) ((plainBytes (powMod v d n)).take (len - i))).params.skip
          = s.params.skip := rfl
      have e3 : (plainWritten (served s g c rest) ((plainBytes (powMod v d n)).take (len - i))).bitBuffer
          = g := rfl
      rw [hrun', e1, e2, e3, textEnd, hsv.ends, hsv.bytes, hsv.group, lastGroup_append, plainWritten_served, plainWritten_served, served_served,
        plainWritten_plainWritten, List.take_of_length_le (by simp [plainBytes]; omega), Nat.min_eq_left hfull]
      simp only [List.length_cons, plainOf, List.flatMap_cons, textEnd]
      congr 2
      omega

/-- The state DECRYPT leaves once both ports are open: plaintext bytes are on `PT_OUT` (rules R146, R148). -/
def decryptedState (s : State) (bytes : List Byte) (g : BitVec 24) (c : BitVec 2) : State :=
  { s with
    mode := .idle
    bitBuffer := g
    byteCount := c
    column := 0
    txtOut := (sessionClosed s).txtOut
    txtIn := { attached := false, rest := [], opens := restAnswers s.txtIn.opens }
    ptOut :=
      { attached := false
        events := s.ptOut.events ++ (.opened :: byteEvents bytes ++ [.closed])
        opens := restAnswers s.ptOut.opens } }

/-- The state of DECRYPT once both ports are open. -/
def decryptBegun (s : State) (text : List Byte) : State :=
  { sessionClosed s with
    mode := .decoding
    bitBuffer := 0
    byteCount := 0
    column := 0
    txtIn := { attached := true, rest := text, opens := restAnswers s.txtIn.opens }
    ptOut := { attached := true, events := s.ptOut.events ++ [.opened], opens := restAnswers s.ptOut.opens } }

theorem upcoming_decryptBegun (s : State) (text : List Byte) :
    upcoming (decryptBegun s text) = textBytes s.params.skip text := rfl

/-- DECRYPT up to its stream, with both opens granted. -/
theorem decryptBody_opened {s : State} {n d : Nat} {text : List Byte} (h : s.resetIn = []) (hn0 : n ≠ 0)
    (hn : n ≤ 2 ^ 32) (ht : resource s.txtIn = some text) (ho : grants s.ptOut = true) :
    (decryptBody n d).run s = (decryptStream n d).run (decryptBegun s text) := by
  unfold resource at ht
  unfold decryptBody
  have hr : modulusRefused n = false := by
    simp [modulusRefused, maxModulus]; omega
  rw [if_neg (by simp [hr])]
  unfold decryptOpen
  rw [bind_of_ok (beginDecode_run h), ht, Option.isSome_some, if_pos rfl]
  unfold decryptOpened
  have ho' : nextAnswer (decodeBegun s).ptOut.opens = true := ho
  rw [bind_of_ok (openSink_run (s := decodeBegun s) h .ptOut)]
  simp only [sinkOf_ptOut, withSink_ptOut, ho', sinkAttached_granted, if_true]
  rw [decodeBegun_granted ht]
  rfl

theorem decryptFinish_run {s : State} {text bytes rest : List Byte} {g : BitVec 24} {c : BitVec 2}
    (h : s.resetIn = []) (st : Status) (count len : Nat) :
    (decryptFinish st count len).run (served (plainWritten (decryptBegun s text) bytes) g c rest) =
      .ok { status := st, r0 := BitVec.ofNat 64 count, r1 := BitVec.ofNat 64 len } (decryptedState s bytes g c) := by
  unfold decryptFinish
  rw [bind_of_ok (endDecode_run (by exact h)), bind_of_ok (closeSink_run (by exact h) .ptOut)]
  simp only [EStateM.run_pure]
  congr 1
  simp [decryptedState, served, unread, plainWritten, decryptBegun, sourceDetached, sinkDetached, addEvent,
    sessionClosed]

/-- DECRYPT of a stream that has its header and all its blocks (rule R146). -/
theorem decryptBody_run {s : State} {n d len : Nat} {text : List Byte} {ciphers : List Nat} {extra : List Byte}
    (h : s.resetIn = []) (hn0 : n ≠ 0) (hn : n ≤ 2 ^ 32) (ht : resource s.txtIn = some text)
    (ho : grants s.ptOut = true) (hlen : len < 2 ^ 32) (hc : ∀ c ∈ ciphers, c < 2 ^ 32)
    (hb : ciphers.length = blockCount len)
    (hs : textBytes s.params.skip text = cipherStream len ciphers ++ extra) :
    ∃ c : BitVec 2, c.toNat + (4 + 4 * ciphers.length) = 3 * groupsFilled 0 (4 + 4 * ciphers.length) ∧
      (decryptBody n d).run s =
        .ok { status := .ok, r0 := BitVec.ofNat 64 len, r1 := BitVec.ofNat 64 len }
          (decryptedState s ((plainOf n d ciphers).take len)
            (lastGroup 0 ((textBytes s.params.skip text).take (3 * groupsFilled 0 (4 + 4 * ciphers.length)))) c) := by
  rw [decryptBody_opened h hn0 hn ht ho]
  unfold decryptStream
  obtain ⟨g, c, rest, hrun, hup, hsv⟩ := getInt32_next (s := decryptBegun s text) h rfl hlen
    (more := ciphers.flatMap le32 ++ extra)
    (by rw [upcoming_decryptBegun, hs]; simp [cipherStream])
  rw [bind_of_ok hrun]
  dsimp only
  unfold decryptBlocks
  rw [BitVec.toNat_ofNat, Nat.mod_eq_of_lt hlen]
  obtain ⟨g', c', rest', hloop, hsv'⟩ := decryptLoop_run (n := n) (d := d) (len := len) len 0 0
    (served (decryptBegun s text) g c rest) ciphers extra h rfl hup hc (by simpa using hb) (by omega)
  rw [bind_of_ok hloop, plainWritten_served, served_served]
  have hall := hsv.trans hsv'
  refine ⟨c', by simpa [decryptBegun] using hall.count, ?_⟩
  dsimp only
  rw [decryptFinish_run h, Nat.zero_add, Nat.sub_zero, hall.group]
  rfl

/-- DECRYPT of a stream that ends before its last block (rule R148). -/
theorem decryptBody_short_run {s : State} {n d len : Nat} {text : List Byte} {ciphers : List Nat}
    {extra : List Byte} (h : s.resetIn = []) (hn0 : n ≠ 0) (hn : n ≤ 2 ^ 32)
    (ht : resource s.txtIn = some text) (ho : grants s.ptOut = true) (hlen : len < 2 ^ 32)
    (hc : ∀ c ∈ ciphers, c < 2 ^ 32) (hb : ciphers.length < blockCount len) (he : extra.length < 4)
    (hs : textBytes s.params.skip text = cipherStream len ciphers ++ extra) :
    (decryptBody n d).run s =
      .ok { status := textEnd s.params.skip text
            r0 := BitVec.ofNat 64 (3 * ciphers.length)
            r1 := BitVec.ofNat 64 len }
        (decryptedState s (plainOf n d ciphers) (lastGroup 0 (textBytes s.params.skip text)) 0) := by
  rw [decryptBody_opened h hn0 hn ht ho]
  unfold decryptStream
  obtain ⟨g, c, rest, hrun, hup, hsv⟩ := getInt32_next (s := decryptBegun s text) h rfl hlen
    (more := ciphers.flatMap le32 ++ extra)
    (by rw [upcoming_decryptBegun, hs]; simp [cipherStream])
  rw [bind_of_ok hrun]
  dsimp only
  unfold decryptBlocks
  rw [BitVec.toNat_ofNat, Nat.mod_eq_of_lt hlen]
  have hloop := decryptLoop_short_run (n := n) (d := d) (len := len) len 0 0
    (served (decryptBegun s text) g c rest) ciphers extra h rfl hup hc (by simpa using hb) he (by omega)
  rw [bind_of_ok hloop, plainWritten_served, served_served]
  dsimp only
  rw [decryptFinish_run h, Nat.zero_add]
  have hend' : (textScan s.params.skip [] rest).2 = (textScan s.params.skip [] text).2 := hsv.ends
  have : textEnd (served (decryptBegun s text) g c rest).params.skip (served (decryptBegun s text) g c rest).txtIn.rest
      = textEnd s.params.skip text := by
    show textEnd s.params.skip rest = _
    rw [textEnd, hend', textEnd]
  have hg : lastGroup (served (decryptBegun s text) g c rest).bitBuffer
      (textBytes (served (decryptBegun s text) g c rest).params.skip (served (decryptBegun s text) g c rest).txtIn.rest)
      = lastGroup 0 (textBytes s.params.skip text) := by
    show lastGroup g (textBytes (decryptBegun s text).params.skip rest) = _
    rw [hsv.bytes, hsv.group, lastGroup_append]
    rfl
  rw [this, hg]

/-- DECRYPT of a stream too short for its header (rule R148). -/
theorem decryptBody_headless_run {s : State} {n d : Nat} {text : List Byte} (h : s.resetIn = []) (hn0 : n ≠ 0)
    (hn : n ≤ 2 ^ 32) (ht : resource s.txtIn = some text) (ho : grants s.ptOut = true)
    (hs : (textBytes s.params.skip text).length < 4) :
    (decryptBody n d).run s =
      .ok { status := textEnd s.params.skip text }
        (decryptedState s [] (lastGroup 0 (textBytes s.params.skip text)) 0) := by
  rw [decryptBody_opened h hn0 hn ht ho]
  unfold decryptStream
  have hrun := (getInt32_reads (decryptBegun s text) h rfl).2 hs
  rw [bind_of_ok hrun]
  dsimp only
  have := decryptFinish_run (s := s) (text := text) (bytes := [])
    (g := lastGroup 0 (textBytes s.params.skip text)) (c := 0)
    (rest := (textScan s.params.skip [] text).2.2) h (textEnd s.params.skip text) 0 0
  have hw : plainWritten (decryptBegun s text) [] = decryptBegun s text := by simp [plainWritten]
  rw [hw] at this
  exact this

end Sys2Proof.Machine
end

