-- ==== Sys2Proof/Laws/Recover.lean ====
section
/-! SUPPORT. What the decoder finds in a text of the encoder (rules R79, R93, R94, R102). -/

namespace Sys2Proof.Machine

/-- A text scanned past a byte that is skipped (rule R93). -/
theorem textScan_skip {skip : List Byte} {b : Byte} (h : skip.contains b = true) (pre : List Sextet)
    (more : List Byte) : textScan skip pre (b :: more) = textScan skip pre more := by
  conv_lhs => unfold textScan
  rw [if_pos h]

/-- A text scanned past a symbol that does not complete a group (rule R94). -/
theorem textScan_symbol {skip : List Byte} {b : Byte} {v : Sextet} (h : skip.contains b = false)
    (hv : symbolValue b = some v) {pre : List Sextet} (hp : pre.length < 3) (more : List Byte) :
    textScan skip pre (b :: more) = textScan skip (pre ++ [v]) more := by
  conv_lhs => unfold textScan
  rw [if_neg (by rw [h]; exact Bool.false_ne_true), hv]
  match pre, hp with
  | [], _ => rfl
  | [_], _ => rfl
  | [_, _], _ => rfl

/-- A text scanned past the symbol that completes a group (rules R94, R95). -/
theorem textScan_full {skip : List Byte} {b : Byte} {v : Sextet} (h : skip.contains b = false)
    (hv : symbolValue b = some v) (v0 v1 v2 : Sextet) (more : List Byte) :
    textScan skip [v0, v1, v2] (b :: more) =
      (unserved (v0 ++ v1 ++ v2 ++ v : BitVec 24) 3 ++ (textScan skip [] more).1,
        (textScan skip [] more).2) := by
  conv_lhs => unfold textScan
  rw [if_neg (by rw [h]; exact Bool.false_ne_true), hv]
  rfl

/-- A line break changes nothing of what a text holds (rule R93). -/
theorem textScan_wrapLines {skip : List Byte} {nl : Byte} (hnl : skip.contains nl = true)
    (xs : List Byte) (hx : ∀ x ∈ xs, skip.contains x = false ∧ (symbolValue x).isSome = true)
    (pre : List Sextet) (hp : pre.length ≤ 3) (c : Nat) :
    textScan skip pre (wrapLines nl c xs) = textScan skip pre xs := by
  induction xs generalizing pre c with
  | nil => rw [wrapLines_nil]
  | cons x xs ih =>
    obtain ⟨hs, hv⟩ := hx x (by simp)
    obtain ⟨v, hv⟩ := Option.isSome_iff_exists.mp hv
    have ih' := fun pre hp c => ih (fun y hy => hx y (by simp [hy])) pre hp c
    rw [wrapLines_cons]
    rcases Nat.lt_or_ge pre.length 3 with hlt | hge
    · split
      · rw [textScan_symbol hs hv hlt, textScan_symbol hs hv hlt, textScan_skip hnl,
          ih' _ (by simp; omega)]
      · rw [textScan_symbol hs hv hlt, textScan_symbol hs hv hlt, ih' _ (by simp; omega)]
    · match pre, hp, hge with
      | [v0, v1, v2], _, _ =>
        split
        · rw [textScan_full hs hv, textScan_full hs hv, textScan_skip hnl, ih' _ (by simp)]
        · rw [textScan_full hs hv, textScan_full hs hv, ih' _ (by simp)]

/-- Four symbols give the three bytes of their group. -/
theorem textScan_four {skip : List Byte} {x0 x1 x2 x3 : Byte} {v0 v1 v2 v3 : Sextet}
    (h : ∀ x ∈ [x0, x1, x2, x3], skip.contains x = false)
    (h0 : symbolValue x0 = some v0) (h1 : symbolValue x1 = some v1) (h2 : symbolValue x2 = some v2)
    (h3 : symbolValue x3 = some v3) (more : List Byte) :
    textScan skip [] ([x0, x1, x2, x3] ++ more) =
      (unserved (v0 ++ v1 ++ v2 ++ v3 : BitVec 24) 3 ++ (textScan skip [] more).1,
        (textScan skip [] more).2) := by
  simp only [List.mem_cons, List.not_mem_nil, or_false, forall_eq_or_imp, forall_eq] at h
  obtain ⟨g0, g1, g2, g3⟩ := h
  simp only [List.cons_append, List.nil_append]
  rw [textScan_symbol g0 h0 (by simp), textScan_symbol g1 h1 (by simp),
    textScan_symbol g2 h2 (by simp)]
  exact textScan_full g3 h3 v0 v1 v2 more

/-- The four fields of a group are the group. -/
theorem fields_append (g : BitVec 24) :
    (g.extractLsb' 18 6 ++ g.extractLsb' 12 6 ++ g.extractLsb' 6 6 ++ g.extractLsb' 0 6 : BitVec 24) = g := by
  apply BitVec.eq_of_getLsbD_eq
  intro i hi
  show BitVec.getLsbD (w := 6 + 6 + 6 + 6) (g.extractLsb' 18 6 ++ g.extractLsb' 12 6 ++
    g.extractLsb' 6 6 ++ g.extractLsb' 0 6) i = _
  simp only [BitVec.getLsbD_append, BitVec.getLsbD_extractLsb']
  split
  · next h => simp [h]
  split
  · next h => simp only [h, decide_true, Bool.true_and]; exact congrArg _ (by omega)
  split
  · next h => simp only [h, decide_true, Bool.true_and]; exact congrArg _ (by omega)
  · next h1 h2 h3 =>
    simp only [show i - 6 - 6 - 6 < 6 by omega, decide_true, Bool.true_and]
    exact congrArg _ (by omega)

/-- The three bytes of a group are the group's bytes. -/
theorem unserved_three (a b c : Byte) : unserved (a ++ b ++ c : BitVec 24) 3 = [a, b, c] := by
  have key : ∀ i, (a ++ b ++ c : BitVec 24).getLsbD i =
      if i < 8 then c.getLsbD i else if i - 8 < 8 then b.getLsbD (i - 8)
      else a.getLsbD (i - 8 - 8) := by
    intro i
    show BitVec.getLsbD (w := 8 + 8 + 8) (a ++ b ++ c) i = _
    simp only [BitVec.getLsbD_append]
  simp only [unserved, Nat.sub_self, List.drop_zero, List.cons.injEq, and_true]
  refine ⟨?_, ?_, ?_⟩ <;>
  · apply BitVec.eq_of_getLsbD_eq
    intro i hi
    rw [BitVec.getLsbD_extractLsb', key]
    simp only [hi, decide_true, Bool.true_and]
    first
      | rw [if_pos (by omega)]; exact congrArg _ (by omega)
      | rw [if_neg (by omega), if_pos (by omega)]; exact congrArg _ (by omega)
      | rw [if_neg (by omega), if_neg (by omega)]; exact congrArg _ (by omega)

/-- Low fields of a group whose low bytes are zero. -/
theorem low_fields_zero (a b : Byte) :
    (a ++ b ++ (0 : Byte) : BitVec 24).extractLsb' 0 6 = 0 ∧
      (a ++ (0 : Byte) ++ (0 : Byte) : BitVec 24).extractLsb' 6 6 = 0 := by
  have key : ∀ (a b : Byte) i, (a ++ b ++ (0 : Byte) : BitVec 24).getLsbD i =
      if i < 8 then false else if i - 8 < 8 then b.getLsbD (i - 8)
      else a.getLsbD (i - 8 - 8) := by
    intro a b i
    show BitVec.getLsbD (w := 8 + 8 + 8) (a ++ b ++ (0 : Byte)) i = _
    simp only [BitVec.getLsbD_append, BitVec.getLsbD_zero, BitVec.ofNat_eq_ofNat]
  constructor <;>
  · apply BitVec.eq_of_getLsbD_eq
    intro i hi
    rw [BitVec.getLsbD_extractLsb', key]
    simp only [BitVec.ofNat_eq_ofNat, BitVec.getLsbD_zero]
    split
    · simp
    · split <;> first | (exfalso; omega) | simp

/-- A parameter choice of rule R93: a byte that has a symbol value is not skipped. -/
theorem not_skipped {p : Params} (hp : p.skipOk = true) {x : Byte}
    (hx : (symbolValue x).isSome = true) : p.skip.contains x = false := by
  unfold Params.skipOk at hp
  rw [Bool.and_eq_true, List.all_eq_true] at hp
  by_contra hc
  have hmem : x ∈ p.skip := by simpa using hc
  have := hp.2 x hmem
  simp at this
  simp [this] at hx

theorem symbolValue_symbols (bytes : List Byte) :
    ∀ x ∈ radixSymbols bytes, (symbolValue x).isSome = true := by
  induction bytes using radixSymbols.induct with
  | case1 => simp [radixSymbols]
  | case2 a => simp [radixSymbols, groupText, groupFields, symbolValue_alpha, symbolValue_padChar]
  | case3 a b => simp [radixSymbols, groupText, groupFields, symbolValue_alpha, symbolValue_padChar]
  | case4 a b c more ih =>
    intro x hx
    rw [radixSymbols, List.mem_append] at hx
    rcases hx with hx | hx
    · simp only [groupText, groupFields, List.mem_cons, List.not_mem_nil, or_false] at hx
      rcases hx with rfl | rfl | rfl | rfl <;> simp [symbolValue_alpha]
    · exact ih x hx

/-- The bytes of a byte string with the zero bytes its padding stands for (rules R79, R97). -/
def zeroFilled (bytes : List Byte) : List Byte :=
  bytes ++ List.replicate ((3 - bytes.length % 3) % 3) 0

theorem textScan_radixSymbols {p : Params} (hp : p.skipOk = true) (bytes : List Byte) :
    textScan p.skip [] (radixSymbols bytes) = (zeroFilled bytes, .srcExhausted, []) := by
  have hs : ∀ x, (symbolValue x).isSome = true → p.skip.contains x = false :=
    fun x hx => not_skipped hp hx
  induction bytes using radixSymbols.induct with
  | case1 => rfl
  | case2 a =>
    have := textScan_four (skip := p.skip) (x2 := padChar) (x3 := padChar)
      (v0 := (a ++ (0 : Byte) ++ (0 : Byte) : BitVec 24).extractLsb' 18 6)
      (v1 := (a ++ (0 : Byte) ++ (0 : Byte) : BitVec 24).extractLsb' 12 6)
      (by
        intro x hx
        simp only [List.mem_cons, List.not_mem_nil, or_false] at hx
        rcases hx with rfl | rfl | rfl | rfl <;>
          exact hs _ (by simp [symbolValue_alpha, symbolValue_padChar]))
      (symbolValue_alpha _) (symbolValue_alpha _) symbolValue_padChar symbolValue_padChar []
    rw [show radixSymbols [a] = [alpha _, alpha _, padChar, padChar] ++ [] from rfl, this]
    have h := fields_append (a ++ (0 : Byte) ++ (0 : Byte) : BitVec 24)
    rw [(low_fields_zero a 0).2, (low_fields_zero a 0).1] at h
    rw [h, unserved_three]
    rfl
  | case3 a b =>
    have := textScan_four (skip := p.skip) (x3 := padChar)
      (v0 := (a ++ b ++ (0 : Byte) : BitVec 24).extractLsb' 18 6)
      (v1 := (a ++ b ++ (0 : Byte) : BitVec 24).extractLsb' 12 6)
      (v2 := (a ++ b ++ (0 : Byte) : BitVec 24).extractLsb' 6 6)
      (by
        intro x hx
        simp only [List.mem_cons, List.not_mem_nil, or_false] at hx
        rcases hx with rfl | rfl | rfl | rfl <;>
          exact hs _ (by simp [symbolValue_alpha, symbolValue_padChar]))
      (symbolValue_alpha _) (symbolValue_alpha _) (symbolValue_alpha _) symbolValue_padChar []
    rw [show radixSymbols [a, b] = [alpha _, alpha _, alpha _, padChar] ++ [] from rfl, this]
    have h := fields_append (a ++ b ++ (0 : Byte) : BitVec 24)
    rw [(low_fields_zero a b).1] at h
    rw [h, unserved_three]
    rfl
  | case4 a b c more ih =>
    have := textScan_four (skip := p.skip)
      (v0 := (a ++ b ++ c : BitVec 24).extractLsb' 18 6)
      (v1 := (a ++ b ++ c : BitVec 24).extractLsb' 12 6)
      (v2 := (a ++ b ++ c : BitVec 24).extractLsb' 6 6)
      (v3 := (a ++ b ++ c : BitVec 24).extractLsb' 0 6)
      (by
        intro x hx
        simp only [List.mem_cons, List.not_mem_nil, or_false] at hx
        rcases hx with rfl | rfl | rfl | rfl <;> exact hs _ (by simp [symbolValue_alpha]))
      (symbolValue_alpha _) (symbolValue_alpha _) (symbolValue_alpha _) (symbolValue_alpha _)
      (radixSymbols more)
    rw [radixSymbols, show groupText a b c = [alpha _, alpha _, alpha _, alpha _] from rfl, this,
      fields_append, unserved_three, ih]
    simp only [zeroFilled, List.length_cons, List.cons_append, List.nil_append]
    have : (more.length + 1 + 1 + 1) % 3 = more.length % 3 := by omega
    rw [this]

/-- What the decoder finds in the text of a byte string: the bytes, the zero bytes of its padding, and the end of
the source (rules R79, R93 to R97). -/
theorem textScan_radixText {p : Params} (hp : p.skipOk = true) (bytes : List Byte) :
    textScan p.skip [] (radixText p.newline bytes) = (zeroFilled bytes, .srcExhausted, []) := by
  have hnl : p.skip.contains p.newline = true := by
    unfold Params.skipOk at hp
    rw [Bool.and_eq_true] at hp
    exact hp.1
  unfold radixText
  rw [textScan_wrapLines hnl _
    (fun x hx => ⟨not_skipped hp (symbolValue_symbols bytes x hx), symbolValue_symbols bytes x hx⟩) []
    (by simp), textScan_radixSymbols hp]

end Sys2Proof.Machine
end

