-- ==== Sys2Proof/Tests/Slice0.lean ====
section
/-! SUPPORT. The model's own tests. Every expected value is copied from spec/95_test_vectors.md or worked out by hand
from the rule named; nothing is expected because the model gives it. -/

namespace Sys2Proof.Tests

open Sys2Proof.Machine

/-! ### Helpers -/

/-- The bytes of an ASCII text. -/
def ascii (text : List Char) : List Byte := text.map fun c => BitVec.ofNat 8 c.toNat

/-- The state a command leaves, if it answers one. -/
def after (i : Instr) (s : State) : Option State :=
  match exec i s with
  | .next t => some t
  | _ => none

/-- The state a step leaves, if it answers one. -/
def stepped (s : State) : Option State :=
  match step s with
  | .next t => some t
  | _ => none

/-- The four codec registers, as spec/95_test_vectors.md writes them. -/
structure Codec where
  mode : Mode
  bitBuffer : Nat
  byteCount : Nat
  column : Nat
  deriving DecidableEq, Repr

/-- A response without `R1` and `R2`. -/
structure Answer where
  status : Nat
  mode : Nat
  r0 : Nat
  deriving DecidableEq, Repr

/-- The codec registers of a state. -/
def codec (s : State) : Codec := ⟨s.mode, s.bitBuffer.toNat, s.byteCount.toNat, s.column.toNat⟩

/-- A text sink's bytes. -/
def sunk (k : Sink) : List Byte :=
  k.events.filterMap fun
    | .byte v => some v
    | _ => none

/-- The last response, as status, mode and `R0`. -/
def answer (s : State) : Option Answer :=
  s.rspOut.getLast?.map fun r => ⟨(responseStatus r).toNat, (responseMode r).toNat, (responseR0 r).toNat⟩

/-- `Encoding` mode, right after BEGIN_ENCODE, with some registers. -/
def encoding (buffer : BitVec 24) (count : BitVec 2) (column : BitVec 6) : State :=
  { State.reset with
    mode := .encoding
    bitBuffer := buffer
    byteCount := count
    column := column
    txtOut := { Sink.reset with attached := true, events := [.opened] } }

/-- `Decoding` mode, with some registers and an unread text. -/
def decoding (buffer : BitVec 24) (count : BitVec 2) (text : List Char) : State :=
  { State.reset with
    mode := .decoding
    bitBuffer := buffer
    byteCount := count
    txtIn := { Source.reset with attached := true, rest := ascii text } }

/-- `Idle` mode, with a plaintext behind `PT_IN`. -/
def plain (data : List Byte) : State :=
  { State.reset with ptIn := { Source.reset with opens := { listed := [some data], later := none } } }

/-- `Idle` mode, with a text behind `TXT_IN`. -/
def cipher (text : List Char) : State :=
  { State.reset with
    txtIn := { Source.reset with opens := { listed := [some (ascii text)], later := none } } }

/-- The environment refuses every open. -/
def refusing : State :=
  { State.reset with
    txtOut := { Sink.reset with opens := { listed := [], later := false } }
    ptOut := { Sink.reset with opens := { listed := [], later := false } }
    txtIn := { Source.reset with opens := { listed := [], later := none } }
    ptIn := { Source.reset with opens := { listed := [], later := none } } }

/-- The draws of a KEYGEN. -/
def drawing (draws : List Nat) : State := { State.reset with rnd := draws }

/-- Small parameters that are well-formed. -/
def smallParams : Params :=
  { newline := 0x0A, skip := [0x0A, 0x20], keyLo := 4096, keyHi := 4111, strictBlockCheck := true }

/-! ### Parameters: an ill-formed set for each check (rules R59, R93, R131) -/

theorem test_params_newline : Params.wellFormed { Params.default with newline := 0x41 } = false := by decide

theorem test_params_skip : Params.wellFormed { Params.default with skip := [0x0A, 0x3D] } = false := by decide

theorem test_params_skip_newline : Params.wellFormed { Params.default with skip := [0x20] } = false := by decide

theorem test_params_range : Params.wellFormed { Params.default with keyLo := 1 } = false := by decide

theorem test_params_square : Params.wellFormed { Params.default with keyHi := 65537 } = false := by decide

theorem test_params_prime :
    Params.wellFormed { Params.default with keyLo := 4096, keyHi := 4098 } = false := by decide

theorem test_params_good :
    Params.wellFormed { Params.default with keyLo := 4096, keyHi := 4111 } = true := by decide

/-! ### Decoding: every command's word, written out from rules R50 and R52 (`{C, B, A, RSV, PAD, OPC}`) -/

theorem test_decode_sessions :
    decode 0x0000 = .ok .status ∧ decode 0x0001 = .ok .beginEncode ∧ decode 0x0002 = .ok .beginDecode ∧
      decode 0x0003 = .ok .endEncode ∧ decode 0x0004 = .ok .endDecode := by decide

theorem test_decode_gets :
    decode 0x000C = .ok .getByte ∧ decode 0x000D = .ok .getInt16 ∧ decode 0x000E = .ok .getInt32 ∧
      decode 0x000F = .ok .getInt64 := by decide

theorem test_decode_putByte :
    decode 0x0000000000000000000000000000000000000000000000410008 = .ok (.putByte 0x41 0) ∧
      decode 0x0000000000000000000000000000000000000000000000000208 = .ok (.putByte 0x00 2) ∧
      decode 0x410308 = .ok (.putByte 0x41 3) := by decide

theorem test_decode_putInts :
    decode 0x43420009 = .ok (.putInt16 0x4342 0) ∧ decode 0x01020304010A = .ok (.putInt32 0x01020304 1) ∧
      decode 0x1FFFFFFFF000A = .ok (.putInt32 0xFFFFFFFF 0) ∧
      decode 0x0706050403020100020B = .ok (.putInt64 0x0706050403020100 2) := by decide

theorem test_decode_numbers :
    decode 0x010030010 = .ok (.isPrime 0x1003) ∧
      decode 0x00000000000000000000000000000012FFFFFFFFFFFFFFF40011 = .ok (.gcd 0xFFFFFFFFFFFFFFF4 18) ∧
      decode 0x0000000000000C3000000000000000110012 = .ok (.modInverse 17 3120) ∧
      decode 0x0000000000000CA1000000000000001100000000004342410013 = .ok (.modExp 4407873 17 3233) := by
  decide

theorem test_decode_pipeline :
    decode 0x0018 = .ok .keygen ∧
      decode 0x00000000000000000000000000001001000000000101202D0019 = .ok (.encrypt 16850989 4097) ∧
      decode 0x000000000000000000000000008A6149000000000101202D001A = .ok (.decrypt 16850989 9068873) := by
  decide

/-- V-D43: unused operands are ignored. -/
theorem test_decode_unused_operands :
    decode (0xBEEF * 2 ^ 144 + 0xDEAD * 2 ^ 80 + 7 * 2 ^ 16 + 0x0010) = .ok (.isPrime 7) := by decide +kernel

/-- V-D43: the illegal packets, with why. -/
theorem test_decode_illegal :
    decode 0x0005 = .error .unassignedOpcode ∧ decode 0x0007 = .error .unassignedOpcode ∧
      decode 0x0014 = .error .unassignedOpcode ∧ decode 0x0017 = .error .unassignedOpcode ∧
      decode 0x001B = .error .unassignedOpcode ∧ decode 0x00FF = .error .unassignedOpcode ∧
      decode 0x410408 = .error .reservedBits ∧ decode 0x8000 = .error .reservedBits ∧
      decode 0x010C = .error .padNotAllowed ∧ decode 0x0203 = .error .padNotAllowed ∧
      decode (5 * 2 ^ 144 + 3 * 2 ^ 80 + 2 * 2 ^ 16 + 0x0313) = .error .padNotAllowed := by decide +kernel

/-- Opcode 0x13 beside its unassigned neighbour, and the decoder on a table word. -/
theorem test_decode_table_word :
    decodeTableWord 208 0x0013 = some (.modExp 0 0 0) ∧ decodeTableWord 208 0x0014 = none := by decide +kernel

/-- Rule R61. -/
theorem test_pseudo :
    Pseudo.expand .nop = [.status] ∧ Pseudo.expand (.getBytes 2) = [.getByte, .getByte] ∧
      Pseudo.expand (.putBytes [0x41]) = [.putByte 0x41 0] := by decide

/-- The full-width responses of spec/95_test_vectors.md, section 0. -/
theorem test_responses :
    responseWord .encoding okResult = 0x00000000000000000000000000000000000000000000000010 ∧
      responseWord .idle { status := .ok, r0 := 1816 } =
        0x00000000000000000000000000000000000000000000071800 ∧
      responseWord .idle { status := .ok, r0 := 16850989, r1 := 4097, r2 := 9068873 } =
        0x00000000008A61490000000000001001000000000101202D00 ∧
      responseWord .idle { status := .srcExhausted, r0 := 3, r1 := 6 } =
        0x00000000000000000000000000000006000000000000000303 := by decide

/-- Rule R166. -/
theorem test_status_codes :
    [Status.ok, .notActive, .openFail, .srcExhausted, .badSymbol, .noInverse, .zeroModulus, .operandRange,
        .lengthRange, .blockRange, .illegalCmd].map (fun st => (statusCode st).toNat) =
      [0, 1, 2, 3, 4, 5, 6, 7, 8, 9, 15] := by decide

/-! ### STATUS, sessions, packets -/

/-- V-D42. -/
theorem test_status :
    (after .status State.reset).bind answer = some ⟨0, 0, 0⟩ ∧
      (after .status (encoding 0 0 0)).bind answer = some ⟨0, 1, 5⟩ ∧
      (after .status (decoding 0 0 [])).bind answer = some ⟨0, 2, 6⟩ := by decide

/-- P1, step 1. -/
theorem test_beginEncode :
    (after .beginEncode State.reset).map (fun t => (codec t, t.txtOut.events)) =
      some (⟨.encoding, 0, 0, 0⟩, [.opened]) := by decide

/-- V-D15: a BEGIN in a session drops the pending byte. -/
theorem test_beginEncode_again :
    (after .beginEncode (encoding 0x41 1 0)).map (fun t => (codec t, t.txtOut.events)) =
      some (⟨.encoding, 0, 0, 0⟩, [.opened, .closed, .opened]) := by decide

/-- P1, step 6. -/
theorem test_beginDecode :
    (after .beginDecode (cipher ['Q', 'U', 'J', 'D'])).map (fun t => (codec t, t.txtIn.rest)) =
      some (⟨.decoding, 0, 0, 0⟩, ascii ['Q', 'U', 'J', 'D']) := by decide

/-- V-D15, V-D24: refused opens. -/
theorem test_begin_refused :
    (after .beginEncode refusing).bind answer = some ⟨2, 0, 0⟩ ∧
      (after .beginDecode refusing).bind answer = some ⟨2, 0, 0⟩ := by decide

/-- V-D43: an illegal packet in `Encoding` mode. -/
theorem test_illegal_packet :
    (stepped { encoding 0x41 1 0 with cmdIn := [0x0005] }).map (fun t => (codec t, answer t, t.cmdIn)) =
      some (⟨.encoding, 0x41, 1, 0⟩, some ⟨0xF, 1, 0⟩, []) := by decide

/-- A packet is fetched and run. -/
theorem test_withFetchWord :
    (stepped (State.reset.withFetchWord 208 0x0001)).map codec = some ⟨.encoding, 0, 0, 0⟩ := by decide

/-! ### The encoder -/

/-- V-D2, and V-D4: the third byte sends `QUJD`. -/
theorem test_putByte :
    (after (.putByte 0x41 0) (encoding 0 0 0)).map (fun t => (codec t, sunk t.txtOut)) =
        some (⟨.encoding, 0x41, 1, 0⟩, []) ∧
      (after (.putByte 0x43 0) (encoding 0x4142 2 0)).map (fun t => (codec t, sunk t.txtOut)) =
        some (⟨.encoding, 0, 0, 4⟩, ascii ['Q', 'U', 'J', 'D']) := by decide

/-- V-D10: the padding count on the completing byte; V-D9: the line break after the 64th symbol. -/
theorem test_putByte_pad_and_line :
    (after (.putByte 0x43 3) (encoding 0x4142 2 0)).map (fun t => sunk t.txtOut) =
        some (ascii ['Q', '=', '=', '=']) ∧
      (after (.putByte 0x2F 0) (encoding 0x2D2E 2 60)).map (fun t => (codec t, sunk t.txtOut)) =
        some (⟨.encoding, 0, 0, 0⟩, ascii ['L', 'S', '4', 'v', '\n']) := by decide

/-- V-D11; P1, step 3. -/
theorem test_putInt16 :
    (after (.putInt16 0x1234 0) (encoding 0 0 0)).map codec = some ⟨.encoding, 0x3412, 2, 0⟩ ∧
      (after (.putInt16 0x4342 0) (encoding 0x41 1 0)).map (fun t => (codec t, sunk t.txtOut)) =
        some (⟨.encoding, 0, 0, 4⟩, ascii ['Q', 'U', 'J', 'D']) := by decide

/-- V-D11; V-D12: the padding count of an integer that completes a group. -/
theorem test_putInt32 :
    (after (.putInt32 0xDEADBEEF 0) (encoding 0 0 0)).map (fun t => (codec t, sunk t.txtOut)) =
        some (⟨.encoding, 0xDE, 1, 4⟩, ascii ['7', '7', '6', 't']) ∧
      (after (.putInt32 0x01020304 1) (encoding 0x4142 2 0)).map (fun t => (codec t, sunk t.txtOut)) =
        some (⟨.encoding, 0, 0, 8⟩, ascii ['Q', 'U', 'I', 'E', 'A', 'w', 'I', '=']) := by decide

/-- V-D11; P5, step 7. -/
theorem test_putInt64 :
    (after (.putInt64 0x0807060504030201 0) (encoding 0 0 0)).map (fun t => (codec t, sunk t.txtOut)) =
        some (⟨.encoding, 0x0708, 2, 8⟩, ascii ['A', 'Q', 'I', 'D', 'B', 'A', 'U', 'G']) ∧
      (after (.putInt64 0x2F2E2D2C2B2A2928 0) (encoding 0x27 1 52)).map codec =
        some ⟨.encoding, 0, 0, 0⟩ := by decide

/-- V-D2, V-D3: the last group of a session. -/
theorem test_endEncode :
    (after .endEncode (encoding 0x41 1 0)).map (fun t => (codec t, sunk t.txtOut, t.txtOut.attached)) =
        some (⟨.idle, 0, 0, 4⟩, ascii ['Q', 'Q', '=', '='], false) ∧
      (after .endEncode (encoding 0x4142 2 0)).map (fun t => sunk t.txtOut) =
        some (ascii ['Q', 'U', 'I', '=']) := by decide

/-- V-D7: the `=` that is the 64th symbol is followed by the line break. -/
theorem test_endEncode_line :
    (after .endEncode (encoding 0x2D 1 60)).map (fun t => (codec t, sunk t.txtOut)) =
      some (⟨.idle, 0, 0, 0⟩, ascii ['L', 'Q', '=', '=', '\n']) := by decide

/-- V-D14: outside the mode. -/
theorem test_encoder_off :
    (after (.putByte 0x41 0) State.reset).bind answer = some ⟨1, 0, 0⟩ ∧
      (after (.putInt64 5 0) State.reset).bind answer = some ⟨1, 0, 0⟩ ∧
      (after .endEncode (decoding 0x414243 2 [])).map (fun t => (codec t, answer t)) =
        some (⟨.decoding, 0x414243, 2, 0⟩, some ⟨1, 2, 0⟩) := by decide

/-! ### The decoder -/

/-- V-D16; V-D19: the line break inside a group. -/
theorem test_getByte :
    (after .getByte (decoding 0 0 ['Q', 'U', 'J', 'D'])).map (fun t => (codec t, answer t, t.txtIn.rest)) =
        some (⟨.decoding, 0x414243, 2, 0⟩, some ⟨0, 2, 0x41⟩, []) ∧
      (after .getByte (decoding 0 0 ['Q', 'U', '\n', 'J', 'D'])).bind answer = some ⟨0, 2, 0x41⟩ := by decide

/-- V-D20: a foreign byte; V-D18: a short source; of the response the status, since `R0` is any value. -/
theorem test_getByte_fails :
    (after .getByte (decoding 0 0 ['Q', 'U', '*', 'D'])).map (fun t => (codec t, t.txtIn.rest)) =
        some (⟨.decoding, 0, 0, 0⟩, ascii ['D']) ∧
      (after .getByte (decoding 0 0 ['Q', 'U', '*', 'D'])).map State.rspOut =
        some [responseWord .decoding { status := .badSymbol, r0 := Config.freeResult 0 }] ∧
      (after .getByte (decoding 0 0 ['Q', 'U', 'J'])).map (fun t => (codec t, t.txtIn.rest)) =
        some (⟨.decoding, 0, 0, 0⟩, []) ∧
      (after .getByte (decoding 0 0 ['Q', 'U', 'J'])).map State.rspOut =
        some [responseWord .decoding { status := .srcExhausted, r0 := Config.freeResult 0 }] :=
  ⟨by decide, rfl, by decide, rfl⟩

/-- V-D22, V-D17: `=` decodes as 0; P1, step 8: an integer that straddles two groups. -/
theorem test_getInt16 :
    (after .getInt16 (decoding 0 0 ['N', 'B', 'I', '='])).map (fun t => (codec t, answer t)) =
        some (⟨.decoding, 0x341200, 1, 0⟩, some ⟨0, 2, 0x1234⟩) ∧
      (after .getInt16 (decoding 0x414243 1 ['R', 'A', '=', '='])).map (fun t => (codec t, answer t)) =
        some (⟨.decoding, 0x440000, 2, 0⟩, some ⟨0, 2, 0x4443⟩) := by decide

/-- V-D22; V-D23: an integer that fails part-way. -/
theorem test_getInt32 :
    (after .getInt32 (decoding 0 0 ['7', '7', '6', 't', '3', 'g', '=', '='])).map (fun t => (codec t, answer t)) =
        some (⟨.decoding, 0xDE0000, 2, 0⟩, some ⟨0, 2, 0xDEADBEEF⟩) ∧
      (after .getInt32 (decoding 0 0 ['A', 'w', 'A', 'A', 'A', 'B'])).map
          (fun t => (codec t, t.txtIn.rest)) =
        some (⟨.decoding, 0x030000, 0, 0⟩, []) := by decide

/-- V-D22. -/
theorem test_getInt64 :
    (after .getInt64 (decoding 0 0 ['A', 'Q', 'I', 'D', 'B', 'A', 'U', 'G', 'B', 'w', 'g', '='])).map
        (fun t => (codec t, answer t)) =
      some (⟨.decoding, 0x070800, 1, 0⟩, some ⟨0, 2, 0x0807060504030201⟩) := by decide

/-- V-D16: the end of a session; V-D24: outside the mode. -/
theorem test_endDecode :
    (after .endDecode (decoding 0x414243 0 ['Q'])).map (fun t => (codec t, t.txtIn.attached, t.txtIn.rest)) =
        some (⟨.idle, 0x414243, 0, 0⟩, false, []) ∧
      (after .endDecode (encoding 0x41 1 0)).map (fun t => (codec t, answer t)) =
        some (⟨.encoding, 0x41, 1, 0⟩, some ⟨1, 1, 0⟩) ∧
      (after .getInt32 (encoding 0x41 1 0)).map codec = some ⟨.encoding, 0x41, 1, 0⟩ := by decide

/-! ### Number theory -/

/-- V-D27. -/
theorem test_isPrime :
    (after (.isPrime 9) State.reset).bind answer = some ⟨0, 0, 0⟩ ∧
      (after (.isPrime 2) State.reset).bind answer = some ⟨0, 0, 1⟩ ∧
      (after (.isPrime 65521) State.reset).bind answer = some ⟨0, 0, 1⟩ ∧
      (after (.isPrime 65535) State.reset).bind answer = some ⟨0, 0, 0⟩ := by decide +kernel

/-- V-D28. -/
theorem test_gcd :
    (after (.gcd 0xFFFFFFFFFFFFFFF4 18) State.reset).bind answer = some ⟨0, 0, 6⟩ ∧
      (after (.gcd 0x8000000000000000 0) State.reset).bind answer = some ⟨0, 0, 2 ^ 63⟩ ∧
      (after (.gcd 4096 16842780) State.reset).bind answer = some ⟨0, 0, 4⟩ := by decide +kernel

/-- V-D25. -/
theorem test_modInverse :
    (after (.modInverse 1 1) State.reset).bind answer = some ⟨0, 0, 0⟩ ∧
      (after (.modInverse 17 3120) State.reset).bind answer = some ⟨0, 0, 2753⟩ ∧
      (after (.modInverse 2 0xFFFFFFFFFFFFFFFF) State.reset).bind answer = some ⟨0, 0, 0x8000000000000000⟩ := by
  decide +kernel

/-- V-D25. -/
theorem test_modInverse_fails :
    (after (.modInverse 7 0) State.reset).bind answer = some ⟨6, 0, 0⟩ ∧
      (after (.modInverse 6 9) State.reset).bind answer = some ⟨5, 0, 0⟩ := by decide

/-- V-D29. -/
theorem test_modExp :
    (after (.modExp 5 0 1) State.reset).bind answer = some ⟨0, 0, 1⟩ ∧
      (after (.modExp 5 1 1) State.reset).bind answer = some ⟨0, 0, 0⟩ ∧
      (after (.modExp 10 3 0) State.reset).bind answer = some ⟨6, 0, 0⟩ ∧
      (after (.modExp 0xFFFFFFFFFFFFFFFF 0xFFFFFFFFFFFFFFFF 0xFFFFFFFFFFFFFFC5) State.reset).bind answer =
        some ⟨0, 0, 4959809447704153900⟩ := by decide +kernel

/-! ### KEYGEN and the pipeline -/

/-- V-D30, with a seventh draw that is left. -/
theorem test_keygen :
    (after .keygen (drawing [4096, 4099, 4100, 4111, 4096, 4097, 5000])).map (fun t =>
        (t.rspOut, t.rnd, t.keygen)) =
      some ([0x00000000008A61490000000000001001000000000101202D00], [5000], none) := by decide +kernel

/-- V-D31: equal primes; rule R135: too few draws, and the phase reached. -/
theorem test_keygen_waits :
    (after .keygen (drawing [4099, 4099, 4098, 4099])).map (fun t =>
        t.rspOut.map fun r => ((responseR0 r).toNat, (responseR1 r).toNat, (responseR2 r).toNat)) =
        some [(16801801, 4099, 16789507)] ∧
      (after .keygen (drawing [4096, 4099, 4100])).map (fun t => (t.rspOut, t.rnd, t.keygen)) =
        some ([], [], some (.seekQ 4099)) := by decide +kernel

/-- V-D33: two blocks, the second one byte. -/
theorem test_encrypt :
    (after (.encrypt 16850989 4097) (plain [0x41, 0x42, 0x43, 0x44])).map (fun t =>
        (codec t, sunk t.txtOut, answer t)) =
      some (⟨.idle, 0, 0, 16⟩,
        ascii ['B', 'A', 'A', 'A', 'A', 'B', 'r', 'P', 'i', 'g', 'C', 'H', '2', 'W', 'g', 'A'],
        some ⟨0, 0, 2⟩) := by decide +kernel

/-- V-D39: a refused block; V-D37: a refused modulus, in a session that stays. -/
theorem test_encrypt_fails :
    (after (.encrypt 3233 17)
          { plain [0x01, 0x02, 0x00, 0x41, 0x42, 0x43] with
            params := { Params.default with strictBlockCheck := true } }).map (fun t =>
        (sunk t.txtOut, answer t, t.ptIn.rest)) =
        some (ascii ['B', 'g', 'A', 'A', 'A', 'O', 'A', 'I', 'A', 'A', 'A', '='], some ⟨9, 0, 1⟩, []) ∧
      (after (.encrypt 4294967297 1) (encoding 0x41 1 0)).map (fun t => (codec t, answer t)) =
        some (⟨.encoding, 0x41, 1, 0⟩, some ⟨7, 1, 0⟩) := by decide +kernel

/-- V-D34, P3 step 3. -/
theorem test_decrypt :
    (after (.decrypt 16850989 9068873)
          (cipher ['B', 'A', 'A', 'A', 'A', 'B', 'r', 'P', 'i', 'g', 'C', 'H', '2', 'W', 'g', 'A'])).map (fun t =>
        (codec t, t.ptOut.events, answer t)) =
      some (⟨.idle, 0xD96800, 0, 0⟩, [.opened, .byte 0x41, .byte 0x42, .byte 0x43, .byte 0x44, .closed],
        some ⟨0, 0, 4⟩) := by decide +kernel

/-- V-D35: a truncated stream; V-D41: `PT_OUT` refused. -/
theorem test_decrypt_fails :
    (after (.decrypt 16850989 9068873)
          (cipher ['B', 'g', 'A', 'A', 'A', 'B', 'r', 'P', 'i', 'g', 'C', 'M'])).map (fun t =>
        (codec t, t.ptOut.events, t.rspOut)) =
        some (⟨.idle, 0x8A008C, 0, 0⟩, [.opened, .byte 0x41, .byte 0x42, .byte 0x43, .closed],
          [0x00000000000000000000000000000006000000000000000303]) ∧
      (after (.decrypt 16850989 9068873)
          { cipher ['Q', 'U', 'J', 'D'] with
            ptOut := { Sink.reset with opens := { listed := [], later := false } } }).map (fun t =>
        (codec t, t.txtIn.rest, t.ptOut.events, answer t)) =
        some (⟨.idle, 0, 0, 0⟩, [], [], some ⟨2, 0, 0⟩) := by decide +kernel

/-! ### Reset -/

/-- V-D44 (a): no byte is added to the stream. -/
theorem test_reset_pending :
    (stepped { encoding 0x4142 2 8 with resetIn := [0] }).map (fun t => (codec t, t.txtOut.events, t.rspOut)) =
      some (⟨.idle, 0, 0, 0⟩, [.opened, .closed], []) := by decide

/-- V-D44 (b): reset in a DECRYPT that has written three bytes (its acceptance, two opens, twelve reads and three writes before it);
there is no response. -/
theorem test_reset_in_decrypt :
    (after (.decrypt 16850989 9068873)
        { cipher ['B', 'A', 'A', 'A', 'A', 'B', 'r', 'P', 'i', 'g', 'C', 'H', '2', 'W', 'g', 'A'] with
          resetIn := [18] }).map (fun t => (codec t, t.ptOut.events, t.txtIn.attached, t.rspOut)) =
      some (⟨.idle, 0, 0, 0⟩, [.opened, .byte 0x41, .byte 0x42, .byte 0x43, .closed], false, []) := by decide +kernel

/-- A command that touches no port can be abandoned too (R190): its packet is accepted, and it gives no response. -/
theorem test_reset_in_isPrime :
    (stepped { State.reset with cmdIn := [encode (.isPrime 7)], resetIn := [1] }).map (fun t => (t.cmdIn, t.rspOut)) =
        some ([], []) ∧
      (stepped { State.reset with cmdIn := [encode (.isPrime 7)], resetIn := [2] }).map
        (fun t => (t.cmdIn, t.rspOut.length, t.resetIn)) = some ([], 1, [0]) := by decide +kernel

/-! ### Witnesses: for each statement with hypotheses, states and operands that meet them all. The five lemmas first say
what every helper state meets. -/

theorem encoding_ready (b : BitVec 24) (n : BitVec 2) (c : BitVec 6) :
    (encoding b n c).resetIn = [] ∧ (encoding b n c).keygen = none ∧ (encoding b n c).mode = .encoding ∧
      (encoding b n c).byteCount = n ∧ (encoding b n c).bitBuffer = b := ⟨rfl, rfl, rfl, rfl, rfl⟩

theorem decoding_ready (b : BitVec 24) (n : BitVec 2) (text : List Char) :
    (decoding b n text).resetIn = [] ∧ (decoding b n text).keygen = none ∧ (decoding b n text).mode = .decoding ∧
      (decoding b n text).byteCount = n := ⟨rfl, rfl, rfl, rfl⟩

theorem plain_ready (data : List Byte) :
    (plain data).resetIn = [] ∧ resource (plain data).ptIn = some data ∧ grants (plain data).txtOut = true ∧
      (plain data).params.strictBlockCheck = false := ⟨rfl, rfl, rfl, rfl⟩

theorem cipher_ready (text : List Char) :
    (cipher text).resetIn = [] ∧ resource (cipher text).txtIn = some (ascii text) ∧
      grants (cipher text).ptOut = true ∧ (cipher text).params.skip = [0x0A] := ⟨rfl, rfl, rfl, rfl⟩

theorem drawing_ready (draws : List Nat) :
    (drawing draws).resetIn = [] ∧ (drawing draws).keygen = none ∧ (drawing draws).rnd = draws := ⟨rfl, rfl, rfl⟩

theorem witness_DecodeOfEncode :
    (Instr.putByte 0xFF 3).wellFormed = true ∧
      (Instr.modExp 0xFFFFFFFFFFFFFFFF 0 0xFFFFFFFFFFFFFFFF).wellFormed = true := by decide

theorem witness_HeaderSelectsCommand : decode 0x001A = .ok (.decrypt 0 0) := by decide

/-- The same header and `A[7:0]`, and another bit that PUT_BYTE ignores. -/
theorem witness_UnusedOperandBitsIgnored :
    decode 0x000410008 = .ok (.putByte 0x41 0) ∧
      (0x001410008 : Packet) &&& packetReads (.putByte 0x41 0) =
        0x000410008 &&& packetReads (.putByte 0x41 0) := by decide +kernel

/-- Packets at the ends of the ranges of rule R56 match no row; the opcodes beside them do. -/
theorem witness_IllegalPacketHasNoEffect :
    ([0x0005, 0x0007, 0x0014, 0x0017, 0x001B, 0x00FF, 0x0408, 0x010C].all fun w : Packet =>
        opcodeRows.all fun row => packetHeader w &&& row.2 ≠ row.1) = true ∧
      ([0x0004, 0x0308, 0x030B, 0x0013, 0x0018, 0x001A].all fun w : Packet =>
        opcodeRows.any fun row => packetHeader w &&& row.2 = row.1) = true ∧
      ({ encoding 0x41 1 0 with cmdIn := [0x0005] } : State).cmdIn = 0x0005 :: [] := by decide +kernel

/-- Both ends of every range of the alphabet. -/
theorem witness_AlphabetAndItsInverse :
    [0, 25, 26, 51, 52, 61, 62, 63].map (fun v => alpha (BitVec.ofNat 6 v)) =
      ascii ['A', 'Z', 'a', 'z', '0', '9', '+', '/'] := by decide

theorem witness_StepRunsDecodedInstruction :
    ({ State.reset with cmdIn := [0x0001], resetIn := [1] } : State).resetIn.head? ≠ some 0 ∧
      ({ State.reset with cmdIn := [0x0001], resetIn := [1] } : State).keygen = none ∧
      ({ State.reset with cmdIn := [0x0001], resetIn := [1] } : State).cmdIn = 0x0001 :: [] ∧
      decode 0x0001 = .ok .beginEncode := by decide

theorem witness_WaitingHoldsState :
    (encoding 0x41 1 0).resetIn = [] ∧ (encoding 0x41 1 0).keygen = none ∧ (encoding 0x41 1 0).cmdIn = [] := by
  decide

theorem witness_OneResponsePerCommand :
    (encoding 0x41 1 0).resetIn = [] ∧ Instr.endEncode ≠ .keygen ∧
      (after .endEncode (encoding 0x41 1 0)).isSome = true := by decide

theorem witness_HistoriesOnlyGrow :
    (stepped { encoding 0x41 1 0 with cmdIn := [0x0003] }).isSome = true := by decide

theorem witness_OnlySessionCommandsChangeMode :
    State.reset.resetIn = [] ∧ (after .beginEncode State.reset).map State.mode = some .encoding ∧
      Mode.encoding ≠ State.reset.mode := by decide

/-- A session with a pending byte, and a PUT_BYTE issued. -/
def session : State := { encoding 0x41 1 4 with cmdIn := [0x410008] }

theorem witness_StepKeepsInvariant : session.Inv ∧ (stepped session).isSome = true :=
  ⟨{ txtOutAttached := by decide
     txtInAttached := by decide
     ptInDetached := by decide
     ptOutDetached := by decide
     txtOutHistory := by decide
     ptOutHistory := by decide
     txtInRest := by decide
     ptInRest := by decide
     steadyCount := by decide
     pendingFits := by decide
     lineGroups := by decide
     decodeColumn := by decide
     drawsInRange := by decide
     keygenPhase := trivial }, by decide⟩

/-- `ResetLeavesResetState`, `ResetStepEffect`: with an attached and a detached port. -/
theorem witness_Reset :
    ({ encoding 0x4142 2 8 with resetIn := [0, 3] } : State).resetIn = 0 :: [3] ∧
      ({ encoding 0x4142 2 8 with resetIn := [0, 3] } : State).txtOut.attached = true ∧
      ({ encoding 0x4142 2 8 with resetIn := [0, 3] } : State).ptOut.attached = false := by decide

/-- `ResetCutsOrDelays`: a reset that comes at once, two inside the command (the acceptance, an open and a response), one
after it. -/
theorem witness_ResetCutsOrDelays :
    State.reset.resetIn = [] ∧
      (after .beginEncode { State.reset with resetIn := [0] }).map (fun t => (t.mode, t.resetIn, t.txtOut.events)) =
        some (.idle, [], []) ∧
      (after .beginEncode { State.reset with resetIn := [1, 5] }).map (fun t => (t.mode, t.resetIn, t.txtOut.events)) =
        some (.idle, [5], []) ∧
      (after .beginEncode { State.reset with resetIn := [2] }).map (fun t => (t.mode, t.resetIn, t.txtOut.events)) =
        some (.idle, [], [.opened, .closed]) ∧
      (after .beginEncode { State.reset with resetIn := [3] }).map (fun t => (t.mode, t.resetIn, t.txtOut.events)) =
        some (.encoding, [0], [.opened]) := by decide

/-- `ResetCutsOrDelaysAStep`: an illegal packet, cut and not; a KEYGEN that goes on, cut after one draw of two; a wait. -/
theorem witness_ResetCutsOrDelaysAStep :
    State.reset.resetIn = [] ∧ (State.reset.keygen = none ∧ [(0x05 : Packet)] ≠ []) ∧
      (stepped { State.reset with cmdIn := [0x05], resetIn := [1] }).map (fun t => (t.cmdIn, t.rspOut, t.resetIn)) =
        some ([], [], []) ∧
      (stepped { State.reset with cmdIn := [0x05], resetIn := [2] }).map
        (fun t => (t.cmdIn, t.rspOut.length, t.resetIn)) = some ([], 1, [0]) ∧
      (stepped { State.reset with cmdIn := [0x05], keygen := some .seekP, rnd := [4, 6], resetIn := [1] }).map
        (fun t => (t.cmdIn, t.rnd, t.keygen, t.resetIn)) = some ([0x05], [6], none, []) ∧
      (stepped { State.reset with resetIn := [1] }).map State.resetIn = some [0] := by decide +kernel

/-- `StatusReports`: each mode. -/
theorem witness_StatusReports :
    State.reset.resetIn = [] ∧ State.reset.mode = .idle ∧ (encoding 0 0 0).mode = .encoding ∧
      (decoding 0 0 []).mode = .decoding := by decide

theorem witness_BeginEncode :
    (encoding 0x41 1 0).resetIn = [] ∧ grants (encoding 0x41 1 0).txtOut = true ∧
      refusing.resetIn = [] ∧ grants refusing.txtOut = false := by decide

/-- `PutByte`, `PutIntegers`: each byte count of the clauses. -/
theorem witness_PutByte :
    (encoding 0 0 0).resetIn = [] ∧ (encoding 0 0 0).mode = .encoding ∧ (encoding 0 0 0).byteCount = 0 ∧
      (encoding 0x41 1 0).byteCount = 1 ∧ (encoding 0x4142 2 60).byteCount = 2 := by decide

theorem witness_EncoderCommandsNeedEncoding :
    State.reset.resetIn = [] ∧ State.reset.mode ≠ .encoding ∧ (decoding 0 0 []).resetIn = [] ∧
      (decoding 0 0 []).mode ≠ .encoding := by decide

theorem witness_EndEncode :
    (encoding 0 0 4).byteCount = 0 ∧
      ((encoding 0x41 1 0).byteCount = 1 ∧ (0x410000 : BitVec 24) = (encoding 0x41 1 0).bitBuffer * 65536) ∧
      ((encoding 0x4142 2 0).byteCount = 2 ∧ (0x414200 : BitVec 24) = (encoding 0x4142 2 0).bitBuffer * 256) := by
  decide

theorem witness_EncodedTextIsRadix64 :
    State.reset.resetIn = [] ∧ grants State.reset.txtOut = true ∧
      [Instr.putByte 0x41 0, .putInt16 0x4342 0].mapM putBytesOf = some [[0x41], [0x42, 0x43]] := by decide

theorem witness_BeginDecode :
    (cipher ['Q']).resetIn = [] ∧ resource (cipher ['Q']).txtIn = some (ascii ['Q']) ∧ refusing.resetIn = [] ∧
      resource refusing.txtIn = none := by decide

/-- `GetServesNextBytes`, `GetBeyondTextFails`: a GET that takes all there is, and one that takes one byte more. -/
theorem witness_Gets :
    (decoding 0x414243 1 ['R', 'A', '=', '=']).mode = .decoding ∧ getWidthOf .getInt32 = some 4 ∧
      (upcoming (decoding 0x414243 1 ['R', 'A', '=', '='])).length = 4 ∧
      (upcoming (decoding 0x414243 0 ['R', 'A', '=', '='])).length = 3 := by decide

theorem witness_GetByteFromGroup :
    (decoding 0x414243 3 []).byteCount = 3 ∧ (decoding 0x414243 2 []).byteCount = 2 ∧
      (decoding 0x414243 1 []).byteCount = 1 ∧ (decoding 0x414243 1 []).resetIn = [] := by decide

theorem witness_GetsNeedDecoding :
    (encoding 0 0 0).resetIn = [] ∧ (encoding 0 0 0).mode ≠ .decoding ∧ getWidthOf .getInt64 = some 8 := by decide

/-- `GetBeyondTextFails`: a GET_INT32 that fills one group ("QUJD" holds 41 42 43) and fails at the next leaves that group; a
GET_BYTE that fills none leaves `bitBuffer`. `GetServesNextBytes`: two bytes of a group of which three are unserved read
nothing. -/
theorem witness_GroupAfterGet :
    (after .getInt32 (decoding 0xABCDEF 0 ['Q', 'U', 'J', 'D'])).map codec = some ⟨.decoding, 0x414243, 0, 0⟩ ∧
      (after .getByte (decoding 0xABCDEF 0 [])).map codec = some ⟨.decoding, 0xABCDEF, 0, 0⟩ ∧
      (after .getInt16 (decoding 0xABCDEF 3 ['Q'])).map (fun t => (codec t, t.txtIn.rest)) =
        some (⟨.decoding, 0xABCDEF, 1, 0⟩, ascii ['Q']) := by decide +kernel

theorem witness_EndDecode : (decoding 0 0 ['Q']).mode = .decoding ∧ (decoding 0 0 ['Q']).resetIn = [] := by decide

/-- Four bytes, read as one byte, one integer of 16 bits and one byte more. -/
theorem witness_CodecRoundTrip :
    let s : State := { cipher ['Q', 'U', 'J', 'D', 'R', 'A', '=', '='] with params := smallParams }
    s.resetIn = [] ∧ s.params.wellFormed = true ∧
      resource s.txtIn = some (radixText s.params.newline [0x41, 0x42, 0x43, 0x44]) ∧
      [Instr.getByte, .getInt16, .getByte].mapM getWidthOf = some [1, 2, 1] ∧
      [1, 2, 1].sum = [0x41, 0x42, 0x43, (0x44 : Byte)].length := by decide

/-- `IsPrimeIsPrimality`, `ModInverseIsTheInverse`, `ModExpIsThePower`: each clause, at the edges. -/
theorem witness_NumberTheory :
    Nat.Prime (2 : Word).toNat ∧ ¬ Nat.Prime (1 : Word).toNat ∧ Nat.gcd (6 : Word).toNat (9 : Word).toNat ≠ 1 ∧
      Nat.gcd (1 : Word).toNat (1 : Word).toNat = 1 ∧ (1 : Word) ≠ 0 := by
  refine ⟨Nat.prime_two, Nat.not_prime_one, ?_⟩
  decide

/-- Small draws: the primes 5 and 7, `f = 24`, `e = 5`, one draw rejected before each, one left. -/
theorem witness_KeygenAnswersTheKey :
    KeyDraws (drawing [4, 5, 6, 7, 9, 5, 8]).rnd [4] 5 [6] 7 [9] 5 [8] where
  draws_eq := rfl
  notP := by decide
  primeP := by decide
  notQ := by decide
  primeQ := by decide
  notE := by decide
  coprimeE := by decide

/-- `KeygenWaitsForDraws`, `KeygenDelayInvisible`: no draws hold no key; and a KEYGEN that has taken its draws and waits. -/
theorem witness_KeygenWaitsForDraws :
    (∀ xs p ys q zs e left, ¬ KeyDraws State.reset.rnd xs p ys q zs e left) ∧
      (after .keygen (drawing [4096, 4099])).map State.keygen = some (some (.seekQ 4099)) ∧
      (after .keygen (drawing [4096, 4099])).map State.rnd = some [] ∧
      (after .keygen (drawing [4096, 4099])).map State.resetIn = some [] :=
  ⟨fun xs p ys q zs e left h => by simpa [State.reset] using h.draws_eq, by decide +kernel, by decide +kernel,
    by decide +kernel⟩

/-- A KEYGEN that answers, in a state that meets the invariant, with well-formed parameters. -/
theorem witness_KeygenGuarantees :
    ({ drawing [4099, 4111, 4097] with params := smallParams } : State).Inv ∧
      smallParams.wellFormed = true ∧
      (after .keygen { drawing [4099, 4111, 4097] with params := smallParams }).map (fun t => t.rspOut.length) =
        some 1 :=
  ⟨{ txtOutAttached := by decide
     txtInAttached := by decide
     ptInDetached := by decide
     ptOutDetached := by decide
     txtOutHistory := by decide
     ptOutHistory := by decide
     txtInRest := by decide
     ptInRest := by decide
     steadyCount := by decide
     pendingFits := by decide
     lineGroups := by decide
     decodeColumn := by decide
     drawsInRange := by decide
     keygenPhase := trivial }, by decide, by decide +kernel⟩

/-- The ends of the range of the modulus, on both sides. -/
theorem witness_ModulusOutOfRangeRefused :
    ((4294967297 : Word).toNat > 2 ^ 32) ∧ (4294967296 : Word) ≠ 0 ∧ (4294967296 : Word).toNat ≤ 2 ^ 32 ∧
      (1 : Word).toNat ≤ 2 ^ 32 := by decide

/-- The check unset; and the check set, with every block value below the modulus. -/
theorem witness_EncryptWritesCipherText :
    (16850989 : Word) ≠ 0 ∧ (16850989 : Word).toNat ≤ 2 ^ 32 ∧
      resource (plain [0x41, 0x42, 0x43, 0x44]).ptIn = some [0x41, 0x42, 0x43, 0x44] ∧
      [0x41, 0x42, 0x43, (0x44 : Byte)].length < 2 ^ 32 ∧ grants (plain [0x41, 0x42, 0x43, 0x44]).txtOut = true ∧
      (plain [0x41, 0x42, 0x43, 0x44]).params.strictBlockCheck = false ∧
      (∀ v ∈ blockValues [0x41, 0x0C], v < (3233 : Word).toNat) := by decide

/-- V-D39. -/
theorem witness_EncryptStopsAtLargeBlock :
    let s : State := { plain [0x01, 0x02, 0x00, 0x41, 0x42, 0x43] with params := smallParams }
    s.resetIn = [] ∧ (3233 : Word) ≠ 0 ∧ (3233 : Word).toNat ≤ 2 ^ 32 ∧
      resource s.ptIn = some [0x01, 0x02, 0x00, 0x41, 0x42, 0x43] ∧ grants s.txtOut = true ∧
      s.params.strictBlockCheck = true ∧
      blockValues [0x01, 0x02, 0x00, 0x41, 0x42, 0x43] = [513] ++ 4407873 :: [] ∧
      (∀ u ∈ [513], u < (3233 : Word).toNat) ∧ (3233 : Word).toNat ≤ 4407873 := by decide

theorem plaintext_of_length (n : Nat) :
    ∃ data : List Byte, n ≤ data.length ∧ resource (plain data).ptIn = some data :=
  ⟨List.replicate n 0, by simp, rfl⟩

/-- Each clause, with the shortest plaintext that is too long. -/
theorem witness_EncryptOpenFailures :
    refusing.resetIn = [] ∧ resource refusing.ptIn = none ∧
      (∃ data : List Byte, 2 ^ 32 ≤ data.length ∧ resource (plain data).ptIn = some data) ∧
      grants { (plain []).txtOut with opens := { listed := [false], later := true } } = false :=
  ⟨by decide, by decide, plaintext_of_length _, by decide⟩

/-- V-D33, V-D34: one byte; its text holds one raw byte more. -/
theorem witness_DecryptWritesPlaintext :
    let s : State := cipher ['A', 'Q', 'A', 'A', 'A', 'D', 'L', 'H', 'Z', 'g', 'A', '=']
    s.resetIn = [] ∧ (16850989 : Word) ≠ 0 ∧ (16850989 : Word).toNat ≤ 2 ^ 32 ∧ grants s.ptOut = true ∧
      (∀ c ∈ [6735666], c < 2 ^ 32) ∧ [6735666].length = blockCount 1 ∧
      textBytes s.params.skip (ascii ['A', 'Q', 'A', 'A', 'A', 'D', 'L', 'H', 'Z', 'g', 'A', '=']) =
        cipherStream 1 [6735666] ++ [0] := by decide +kernel

/-- V-D35: the second block cut short; half a header. -/
theorem witness_DecryptAborts :
    let s : State := cipher ['B', 'g', 'A', 'A', 'A', 'B', 'r', 'P', 'i', 'g', 'C', 'M']
    s.resetIn = [] ∧ grants s.ptOut = true ∧ (∀ c ∈ [9096986], c < 2 ^ 32) ∧
      [9096986].length < blockCount 6 ∧ [(0x8C : Byte)].length < 4 ∧
      textBytes s.params.skip (ascii ['B', 'g', 'A', 'A', 'A', 'B', 'r', 'P', 'i', 'g', 'C', 'M']) =
        cipherStream 6 [9096986] ++ [0x8C] ∧
      (textBytes s.params.skip (ascii ['B', 'g', 'A', 'A'])).length < 4 := by decide +kernel

theorem witness_DecryptOpenFailures :
    refusing.resetIn = [] ∧ resource refusing.txtIn = none ∧
      resource { refusing.txtIn with opens := { listed := [some [0x51]], later := none } } = some [0x51] ∧
      grants refusing.ptOut = false := by decide

theorem witness_EmptyInput :
    ({ plain [] with params := smallParams } : State).params.wellFormed = true ∧
      resource (plain []).ptIn = some [] ∧
      resource (cipher ['A', 'A', 'A', 'A', 'A', 'A', '=', '=']).txtIn =
        some [0x41, 0x41, 0x41, 0x41, 0x41, 0x41, 0x3D, 0x3D] := by decide

/-- `ModExpInvertsModExp`, `PipelineRoundTrip`: the source's key `n = 53 * 61`, and a plaintext of one block below it. -/
theorem witness_RoundTrips :
    let s : State := { plain [0x41, 0x0C] with params := smallParams }
    Nat.Prime 53 ∧ Nat.Prime 61 ∧ (53 : Nat) ≠ 61 ∧ (3233 : Word).toNat = 53 * 61 ∧
      (17 : Word).toNat * (2753 : Word).toNat % ((53 - 1) * (61 - 1)) = 1 ∧ (3137 : Word).toNat < (3233 : Word).toNat ∧
      s.resetIn = [] ∧ s.params.wellFormed = true ∧ (∀ v ∈ blockValues [0x41, 0x0C], v < (3233 : Word).toNat) ∧
      resource s.ptIn = some [0x41, 0x0C] ∧ grants s.txtOut = true ∧
      resource (cipher ['A', 'g', 'A', 'A', 'A', 'L', 'M', 'K', 'A', 'A', 'A', '=']).txtIn =
        some (ascii ['A', 'g', 'A', 'A', 'A', 'L', 'M', 'K', 'A', 'A', 'A', '=']) :=
  ⟨by norm_num, by norm_num, by decide⟩

end Sys2Proof.Tests
end

section
/-! SUPPORT. The state statements: what a step does, what the invariant needs of it, what a command leaves of `mode`,
what a GET and a DECRYPT leave. -/

namespace Sys2Proof.Machine

/-! ### What a step does -/

/-- Where reset is due, the step is the reset (rule R190). -/
theorem step_of_due {s : State} (h : s.resetIn.head? = some 0) : step s = .next (resetBlock s) := by
  simp [step, advance, resetDue, h]

/-- Where no reset is due, a KEYGEN in progress goes on (rules R40, R135). -/
theorem step_of_keygen {s : State} {phase : KeygenPhase} (h : s.resetIn.head? ≠ some 0)
    (hk : s.keygen = some phase) : step s = settle (keygenRun phase) s := by
  simp [step, advance, resetDue, h, proceed, hk, resumeKeygen]

/-- Where no reset is due and no command is in progress, the next packet is accepted (rule R40). -/
theorem step_of_packet {s : State} {w : Packet} {later : List Packet} (h : s.resetIn.head? ≠ some 0)
    (hk : s.keygen = none) (hc : s.cmdIn = w :: later) : step s = accept w { s with cmdIn := later } := by
  simp [step, advance, resetDue, h, proceed, hk, hc]

/-- Where nothing is to be done, the block waits (rule R176). -/
theorem step_of_waiting {s : State} (h : s.resetIn.head? ≠ some 0) (hk : s.keygen = none) (hc : s.cmdIn = []) :
    step s = settle unit s := by
  simp [step, advance, resetDue, h, proceed, hk, hc, idleStep]

/-! ### The invariant -/

/-- The invariant does not speak of the packets issued or of the reset to come. -/
theorem State.Inv.withInputs {s : State} (h : s.Inv) (packets : List Packet) (resets : List Nat) :
    State.Inv { s with cmdIn := packets, resetIn := resets } :=
  { h with }

/-- Waiting keeps the invariant. -/
theorem keeps_waiting : Keeps (fun s => s.Inv) unit (fun _ s => s.Inv) :=
  keeps_unit (fun s h => ((inv_iff_at s).mp h).legal) fun s l h => h.withInputs s.cmdIn l

/-- Accepting a packet, a command's or an illegal one, keeps the invariant (rules R40, R56). -/
theorem accept_keeps_inv {w : Packet} {s t : State} (h : s.Inv) (ht : accept w s = .next t) : t.Inv := by
  unfold accept at ht
  cases hd : decode w with
  | ok i =>
    rw [hd] at ht
    exact settle_keeps (keeps_accepted (keeps_commandRun i s)) h ((exec_eq_settle i s).symm.trans ht)
  | error e =>
    rw [hd] at ht
    exact settle_keeps (keeps_accepted (keeps_command (keeps_pure _))) h ht

/-- Every step keeps the invariant, whatever it does. -/
theorem step_keeps_inv {s t : State} (h : s.Inv) (ht : step s = .next t) : t.Inv := by
  by_cases hr : s.resetIn.head? = some 0
  · rw [step_of_due hr] at ht
    cases ht
    exact ((inv_iff_at s).mp h).legal.resetBlock_inv
  cases hk : s.keygen with
  | some phase =>
    have hphase : phaseOk s.params (some phase) := hk ▸ h.keygenPhase
    rw [step_of_keygen hr hk] at ht
    exact settle_ensures (keeps_keygenRun_inv phase) ⟨h, hphase⟩ (fun _ hu => hu.resetBlock_inv) ht
  | none =>
    cases hc : s.cmdIn with
    | cons w later =>
      rw [step_of_packet hr hk hc] at ht
      exact accept_keeps_inv (h.withInputs later s.resetIn) ht
    | nil =>
      rw [step_of_waiting hr hk hc] at ht
      exact settle_keeps keeps_waiting h ht

/-! ### GET commands -/

/-- A GET of `n` bytes is the command of a read of `n` bytes, into a value of just that width (rules R97 to R100). -/
theorem exec_of_getWidth {i : Instr} {n : Nat} (hi : getWidthOf i = some n) :
    ∃ (w : Nat) (get : Proc (Except Status (BitVec w))), 2 ^ w = 256 ^ n ∧ w ≤ 64 ∧ Reads get n ∧
      (∀ s : State, s.mode ≠ .decoding → get.run s = .ok (.error .notActive) s) ∧
      ∀ s, exec i s = runCommand (getCommand get) s := by
  cases i with
  | getByte =>
    cases hi
    exact ⟨8, getByte, by norm_num, by norm_num, getByte_reads, fun _ => getByte_off, fun _ => rfl⟩
  | getInt16 =>
    cases hi
    exact ⟨16, getInt16, by norm_num, by norm_num, getInt16_reads, fun _ => getInt16_off, fun _ => rfl⟩
  | getInt32 =>
    cases hi
    exact ⟨32, getInt32, by norm_num, by norm_num, getInt32_reads, fun _ => getInt32_off, fun _ => rfl⟩
  | getInt64 =>
    cases hi
    exact ⟨64, getInt64, by norm_num, by norm_num, getInt64_reads, fun _ => getInt64_off, fun _ => rfl⟩
  | _ => cases hi

/-- The little-endian value of bytes that fit a width is the same in `R0` (rules R35, R54). -/
theorem zeroExtend_littleEndian {w : Nat} {bytes : List Byte} (hw : 2 ^ w = 256 ^ bytes.length) (h64 : w ≤ 64) :
    (BitVec.ofNat w (littleEndian bytes)).zeroExtend 64 = BitVec.ofNat 64 (littleEndian bytes) := by
  have hlt : littleEndian bytes < 2 ^ w := hw ▸ littleEndian_lt bytes
  have hle : 2 ^ w ≤ 2 ^ 64 := Nat.pow_le_pow_right (by norm_num) h64
  apply BitVec.eq_of_toNat_eq
  simp only [BitVec.toNat_setWidth, BitVec.toNat_ofNat, Nat.mod_eq_of_lt hlt]

/-- A GET whose bytes the session still has to give answers their value (rules R97 to R100). -/
theorem exec_get_ok {i : Instr} {n : Nat} {s : State} (hi : getWidthOf i = some n) (h : s.resetIn = [])
    (hm : s.mode = .decoding) (hn : n ≤ (upcoming s).length) :
    ∃ g c rest,
      exec i s = .next (answered (served s g c rest)
        { status := .ok, r0 := BitVec.ofNat 64 (littleEndian ((upcoming s).take n)) }) ∧
      upcoming (served s g c rest) = (upcoming s).drop n ∧ Serves s n g c rest := by
  obtain ⟨w, get, hw, h64, hreads, -, hexec⟩ := exec_of_getWidth hi
  obtain ⟨g, c, rest, hrun, hup, hserves, -⟩ := (hreads s h hm).1 hn
  have hlen : ((upcoming s).take n).length = n := List.length_take_of_le hn
  refine ⟨g, c, rest, ?_, hup, hserves⟩
  rw [hexec, runCommand_of_ok h (getCommand_ok_run hrun) h, zeroExtend_littleEndian (by rw [hlen, hw]) h64]

/-- A read that the group alone serves leaves the group and the text as they are (rules R14, R95). -/
theorem Serves.of_group {s : State} {n : Nat} {g : BitVec 24} {c : BitVec 2} {rest : List Byte}
    (h : Serves s n g c rest) (hn : n ≤ s.byteCount.toNat) : g = s.bitBuffer ∧ rest = s.txtIn.rest := by
  have hgroups : groupsFilled s.byteCount.toNat n = 0 := by unfold groupsFilled; omega
  obtain ⟨taken, htext, htaken⟩ := h.taken
  have hgroup := h.group
  rw [hgroups] at hgroup htaken
  rw [htaken.eq_nil] at htext
  exact ⟨hgroup, htext.symm⟩

/-- From a group that is not empty, `GetByte()` serves its next byte and reads nothing (rules R14, R95). -/
theorem getByte_run_group {s : State} (hm : s.mode = .decoding) (hc : s.byteCount ≠ 0) :
    getByte.run s = .ok (.ok (servedByte s.bitBuffer s.byteCount)) { s with byteCount := s.byteCount - 1 } := by
  unfold getByte
  rw [getState_bind, if_pos (by simp [decActive, hm]), if_neg hc, serveByte_run]

/-- GET_BYTE from a group that is not empty (rules R14, R95, R97). -/
theorem exec_getByte_group {s : State} (h : s.resetIn = []) (hm : s.mode = .decoding) (hc : s.byteCount ≠ 0) :
    exec .getByte s = .next (answered { s with byteCount := s.byteCount - 1 }
      { status := .ok, r0 := (servedByte s.bitBuffer s.byteCount).zeroExtend 64 }) :=
  runCommand_of_ok h (getCommand_ok_run (getByte_run_group hm hc)) h

/-- The byte served, as a field of the group (rule R14). -/
theorem servedByte_eq_extract (g : BitVec 24) (c : BitVec 2) :
    servedByte g c = g.extractLsb' (8 * (c.toNat - 1)) 8 := by
  apply BitVec.eq_of_toNat_eq
  simp [servedByte]

/-! ### Which commands change `mode` -/

/-- A command's body that ends in the mode it began in. -/
def KeepsMode (body : Proc Result) (s : State) : Prop :=
  ∃ r t, body.run s = .ok r t ∧ t.resetIn = [] ∧ t.mode = s.mode

/-- Giving the response does not change `mode` (rule R54). -/
theorem runCommand_mode {body : Proc Result} {s t : State} (h : s.resetIn = []) (hb : KeepsMode body s)
    (ht : runCommand body s = .next t) : t.mode = s.mode := by
  obtain ⟨r, u, hrun, hu, hmode⟩ := hb
  rw [runCommand_of_ok h hrun hu] at ht
  cases ht
  exact hmode

/-- A command that only answers (rules R56, R111 to R117, R160). -/
theorem keepsMode_pure {s : State} (h : s.resetIn = []) (r : Result) : KeepsMode (pure r) s :=
  ⟨r, s, rfl, h, rfl⟩

/-- The PUT commands, given that their serialiser stays in `Encoding` mode (rules R73 to R76). -/
theorem keepsMode_put {put : Proc Unit} {s : State} (h : s.resetIn = [])
    (hput : s.mode = .encoding → ∃ t, put.run s = .ok () t ∧ t.resetIn = s.resetIn ∧ t.mode = s.mode) :
    KeepsMode (putCommand put) s := by
  by_cases hm : s.mode = .encoding
  · obtain ⟨t, hrun, hreset, hmode⟩ := hput hm
    exact ⟨_, t, putCommand_run hm hrun, hreset.trans h, hmode⟩
  · exact ⟨_, s, putCommand_off hm, h, rfl⟩

/-- The GET commands, whether their read succeeds, fails or is refused (rules R97 to R100). -/
theorem keepsMode_get {w n : Nat} {get : Proc (Except Status (BitVec w))} {s : State} (h : s.resetIn = [])
    (hreads : Reads get n) (hoff : ∀ s : State, s.mode ≠ .decoding → get.run s = .ok (.error .notActive) s) :
    KeepsMode (getCommand get) s := by
  by_cases hm : s.mode = .decoding
  · by_cases hn : n ≤ (upcoming s).length
    · obtain ⟨g, c, rest, hrun, -⟩ := (hreads s h hm).1 hn
      exact ⟨_, _, getCommand_ok_run hrun, h, rfl⟩
    · exact ⟨_, _, getCommand_error_run ((hreads s h hm).2 (Nat.lt_of_not_le hn)), h, rfl⟩
  · exact ⟨_, _, getCommand_error_run (hoff s hm), h, rfl⟩

/-- No GET changes `mode` (rule R17). -/
theorem exec_get_mode {i : Instr} {n : Nat} {s t : State} (hi : getWidthOf i = some n) (h : s.resetIn = [])
    (ht : exec i s = .next t) : t.mode = s.mode := by
  obtain ⟨w, get, -, -, hreads, hoff, hexec⟩ := exec_of_getWidth hi
  rw [hexec] at ht
  exact runCommand_mode h (keepsMode_get h hreads hoff) ht

/-- KEYGEN, answered or waiting (rules R130, R135). -/
theorem exec_keygen_mode {s t : State} (h : s.resetIn = []) (ht : exec .keygen s = .next t) : t.mode = s.mode := by
  have hrun : exec .keygen s = .next (keygenLeft s (keygenSearch .seekP s.rnd)) :=
    (exec_of_none .keygen h).trans (settle_keygenRun h .seekP)
  rw [hrun] at ht
  cases ht
  cases keygenSearch .seekP s.rnd <;> rfl

/-! ### The obligations -/

/-- Settles O16: a step is a reset of legal ports, or a procedure that keeps the invariant up to the reset that may cut
it short. -/
theorem stepKeepsInvariant : Obligations.StepKeepsInvariant :=
  fun _ _ h ht => step_keeps_inv h ht

/-- Settles O14, command by command: one that is not of the six ends in the mode it began in. -/
theorem onlySessionCommandsChangeMode : Obligations.OnlySessionCommandsChangeMode := by
  intro i s t h ht hm
  cases i with
  | beginEncode => exact .inl rfl
  | beginDecode => exact .inr (.inl rfl)
  | endEncode => exact .inr (.inr (.inl rfl))
  | endDecode => exact .inr (.inr (.inr (.inl rfl)))
  | encrypt n e => exact .inr (.inr (.inr (.inr (.inl ⟨n, e, rfl⟩))))
  | decrypt n d => exact .inr (.inr (.inr (.inr (.inr ⟨n, d, rfl⟩))))
  | putByte v p =>
    exact absurd (runCommand_mode h (keepsMode_put h fun hm =>
      ⟨_, putByte_run h hm v p, putState_resetIn s v p, putState_mode s v p⟩) ht) hm
  | putInt16 v p =>
    exact absurd (runCommand_mode h (keepsMode_put h fun hm =>
      ⟨_, putInt16_run h hm v p, putState16_resetIn s v p, putState16_mode s v p⟩) ht) hm
  | putInt32 v p =>
    exact absurd (runCommand_mode h (keepsMode_put h fun hm =>
      ⟨_, putInt32_run h hm v p, putState32_resetIn s v p, putState32_mode s v p⟩) ht) hm
  | putInt64 v p =>
    exact absurd (runCommand_mode h (keepsMode_put h fun hm =>
      ⟨_, putInt64_run h hm v p, putState64_resetIn s v p, putState64_mode s v p⟩) ht) hm
  | getByte | getInt16 | getInt32 | getInt64 => exact absurd (exec_get_mode rfl h ht) hm
  | keygen => exact absurd (exec_keygen_mode h ht) hm
  | status | isPrime | gcd | modInverse | modExp =>
    exact absurd (runCommand_mode h (keepsMode_pure h _) ht) hm

/-- Settles O29, by what a read of `n` bytes leaves of a session (`Serves`). -/
theorem getServesNextBytes : Obligations.GetServesNextBytes := by
  intro s i n h hm hi hn
  obtain ⟨g, c, rest, hexec, hup, hserves⟩ := exec_get_ok hi h hm hn
  obtain ⟨taken, htext, htaken⟩ := hserves.taken
  refine ⟨served s g c rest, c, taken, rest, hexec, ?_, hup, hserves.count, htext, htaken, hserves.of_group,
    hserves.ends⟩
  rw [← hserves.group]
  rfl

/-- Settles O47, by the run of DECRYPT's body over a stream that has its header and all its blocks. -/
theorem decryptWritesPlaintext : Obligations.DecryptWritesPlaintext := by
  intro s n d text len ciphers extra h hn0 hn htext hopen hlen hciphers hblocks hstream
  have hn0' : n.toNat ≠ 0 := fun hz => hn0 (BitVec.eq_of_toNat_eq hz)
  obtain ⟨count, hcount, hrun⟩ :=
    decryptBody_run (d := d.toNat) h hn0' hn htext hopen hlen hciphers hblocks hstream
  exact ⟨count, hcount, runCommand_of_ok h hrun h⟩

/-- Settles O15: the state after reset is a reset of legal ports, which hold no history and no bytes. -/
theorem resetMeetsInvariant : Obligations.ResetMeetsInvariant :=
  Legal.resetBlock_inv (s := State.reset)
    { txtOut := rfl
      ptOut := rfl
      txtIn := fun _ => rfl
      ptIn := fun _ => rfl
      draws := fun _ hv => absurd hv (List.not_mem_nil)
      phase := trivial }

/-- Settles O17: the fields of the state after reset. -/
theorem afterReset : Obligations.AfterReset :=
  ⟨rfl, rfl, rfl, rfl, rfl, rfl, rfl, rfl, rfl, rfl⟩

/-- Settles O18: the step is the reset, which closes what is attached. -/
theorem resetLeavesResetState : Obligations.ResetLeavesResetState := fun s h =>
  ⟨resetBlock s, step_of_due h, rfl, rfl, rfl, rfl, sinkReset_attached _, sourceReset_attached _,
    sourceReset_attached _, sinkReset_attached _, rfl, rfl⟩

/-- Settles O31: the byte served is the field of the group that the count names. -/
theorem getByteFromGroup : Obligations.GetByteFromGroup := by
  intro s h hm
  refine ⟨fun hc => ?_, fun hc => ?_, fun hc => ?_⟩ <;>
    rw [exec_getByte_group h hm (by rw [hc]; decide), servedByte_eq_extract, hc] <;> rfl

end Sys2Proof.Machine
end

section
/-! SUPPORT. The memory statements, on steps: the procedure a step runs, what it never undoes, and what a reset to come does
to it. -/

namespace Sys2Proof.Machine

/-! ### The procedure of a step -/

/-- The procedure an accepted packet sets going, after its acceptance: a command's, or the answer to an illegal packet
(rules R54, R56). -/
def packetRun (w : Packet) (s : State) : Proc Unit :=
  match decode w with
  | .ok i => commandRun i s
  | .error _ => pure (raiseResult .illegalCmd) >>= respond

theorem packetRun_of_ok {w : Packet} {i : Instr} (h : decode w = .ok i) (s : State) :
    packetRun w s = commandRun i s := by
  simp only [packetRun, h]

theorem packetRun_of_error {w : Packet} {e : Illegal} (h : decode w = .error e) (s : State) :
    packetRun w s = pure (raiseResult .illegalCmd) >>= respond := by
  simp only [packetRun, h]

theorem accept_of_ok {w : Packet} {i : Instr} (h : decode w = .ok i) (s : State) : accept w s = exec i s := by
  simp only [accept, h]

theorem accept_of_error {w : Packet} {e : Illegal} (h : decode w = .error e) (s : State) :
    accept w s = runIllegal s := by
  simp only [accept, h]

theorem accept_eq_settle (w : Packet) (s : State) : accept w s = settle (accepted (packetRun w s)) s := by
  cases h : decode w with
  | ok i => rw [accept_of_ok h, packetRun_of_ok h, exec_eq_settle]
  | error e => rw [accept_of_error h, packetRun_of_error h]; rfl

/-- The procedure does not read the reset to come. -/
theorem packetRun_due (w : Packet) (s : State) (l : List Nat) : packetRun w (due s l) = packetRun w s := by
  cases h : decode w with
  | ok i => rw [packetRun_of_ok h, packetRun_of_ok h, commandRun_due]
  | error e => rw [packetRun_of_error h, packetRun_of_error h]

theorem follows_packetRun (w : Packet) (s : State) : Follows false (packetRun w s) := by
  cases h : decode w with
  | ok i => rw [packetRun_of_ok h]; exact follows_commandRun i s
  | error e => rw [packetRun_of_error h]; exact follows_command (follows_pure _)

theorem works_packetRun (w : Packet) (s : State) : Works (packetRun w s) := by
  cases h : decode w with
  | ok i => rw [packetRun_of_ok h]; exact works_commandRun i s
  | error e => rw [packetRun_of_error h]; exact works_bind_right (follows_pure _) works_respond

/-- The packets a step leaves in `cmdIn`: it accepts the first of them where no KEYGEN is in progress (rule R40). -/
def packetsLeft (s : State) : List Packet := if s.keygen = none then s.cmdIn.tail else s.cmdIn

/-- The state a step works on: the packet it accepts is taken. -/
def begun (s : State) : State := { s with cmdIn := packetsLeft s }

/-- The procedure a step runs where no reset is due (rules R40, R135, R176). -/
def stepRun (s : State) : Proc Unit :=
  match s.keygen, s.cmdIn with
  | some phase, _ => keygenRun phase
  | none, w :: _ => accepted (packetRun w (begun s))
  | none, [] => unit

section step
variable {s : State}

theorem stepRun_of_keygen {phase : KeygenPhase} (hk : s.keygen = some phase) : stepRun s = keygenRun phase := by
  simp only [stepRun, hk]

theorem stepRun_of_packet {w : Packet} {later : List Packet} (hk : s.keygen = none) (hc : s.cmdIn = w :: later) :
    stepRun s = accepted (packetRun w (begun s)) := by
  simp only [stepRun, hk, hc]

theorem stepRun_of_waiting (hk : s.keygen = none) (hc : s.cmdIn = []) : stepRun s = unit := by
  simp only [stepRun, hk, hc]

theorem packetsLeft_of_keygen {phase : KeygenPhase} (hk : s.keygen = some phase) : packetsLeft s = s.cmdIn :=
  if_neg (by rw [hk]; exact Option.some_ne_none phase)

theorem packetsLeft_of_none (hk : s.keygen = none) : packetsLeft s = s.cmdIn.tail := if_pos hk

theorem begun_of_keygen {phase : KeygenPhase} (hk : s.keygen = some phase) : begun s = s := by
  rw [begun, packetsLeft_of_keygen hk]

theorem begun_of_packet {w : Packet} {later : List Packet} (hk : s.keygen = none) (hc : s.cmdIn = w :: later) :
    begun s = { s with cmdIn := later } := by
  rw [begun, packetsLeft_of_none hk, hc, List.tail_cons]

theorem begun_of_waiting (hk : s.keygen = none) (hc : s.cmdIn = []) : begun s = s := by
  rw [begun, packetsLeft_of_none hk, hc, List.tail_nil, ← hc]

/-- Where no reset is due, a step runs one procedure (rules R40, R190). -/
theorem step_eq_settle (h : s.resetIn.head? ≠ some 0) : step s = settle (stepRun s) (begun s) := by
  cases hk : s.keygen with
  | some phase => rw [step_of_keygen h hk, stepRun_of_keygen hk, begun_of_keygen hk]
  | none =>
    cases hc : s.cmdIn with
    | cons w later =>
      rw [step_of_packet h hk hc, accept_eq_settle, stepRun_of_packet hk hc, begun_of_packet hk hc]
    | nil => rw [step_of_waiting h hk hc, stepRun_of_waiting hk hc, begun_of_waiting hk hc]

/-- What a step runs does not depend on the reset to come. -/
theorem stepRun_due (s : State) (l : List Nat) : stepRun (due s l) = stepRun s := by
  cases hk : s.keygen with
  | some phase => rw [stepRun_of_keygen hk, stepRun_of_keygen (s := due s l) hk]
  | none =>
    cases hc : s.cmdIn with
    | cons w later =>
      rw [stepRun_of_packet hk hc, stepRun_of_packet (s := due s l) hk hc]
      exact congrArg accepted (packetRun_due w (begun s) l)
    | nil => rw [stepRun_of_waiting hk hc, stepRun_of_waiting (s := due s l) hk hc]

theorem follows_stepRun (s : State) : Follows false (stepRun s) := by
  cases hk : s.keygen with
  | some phase => rw [stepRun_of_keygen hk]; exact follows_keygenRun phase
  | none =>
    cases hc : s.cmdIn with
    | cons w later => rw [stepRun_of_packet hk hc]; exact follows_accepted (follows_packetRun w _)
    | nil => rw [stepRun_of_waiting hk hc]; exact follows_unit

theorem works_stepRun (s : State) : Works (stepRun s) := by
  cases hk : s.keygen with
  | some phase => rw [stepRun_of_keygen hk]; exact works_keygenRun phase
  | none =>
    cases hc : s.cmdIn with
    | cons w later => rw [stepRun_of_packet hk hc]; exact works_bind_left works_unit
    | nil => rw [stepRun_of_waiting hk hc]; exact works_unit

/-- With a reset to come that is not due, a step runs what it runs with none coming. -/
theorem step_due_eq_settle {n : Nat} (h : 0 < n) (s : State) (later : List Nat) :
    step (due s (n :: later)) = settle (stepRun s) (due (begun s) (n :: later)) := by
  have hn : (due s (n :: later)).resetIn.head? ≠ some 0 := fun h0 => by simp at h0; omega
  rw [step_eq_settle hn, stepRun_due]
  rfl

end step

/-! ### Histories -/

/-- Every step leaves the packets it does not accept, undoes nothing, and adds at most one response (rules R40, R54). -/
theorem step_grows {s t : State} (ht : step s = .next t) :
    (t.cmdIn = s.cmdIn ∨ t.cmdIn = s.cmdIn.tail) ∧ State.Grows { s with cmdIn := t.cmdIn } t ∧
      (t.rspOut = s.rspOut ∨ ∃ r, t.rspOut = s.rspOut ++ [r]) := by
  by_cases hr : s.resetIn.head? = some 0
  · rw [step_of_due hr] at ht
    cases ht
    exact ⟨.inl rfl, grows_resetBlock s, .inl rfl⟩
  · rw [step_eq_settle hr] at ht
    obtain ⟨hgrow, hrsp⟩ := settle_grows (follows_stepRun s) ht
    have hcmd : t.cmdIn = packetsLeft s := hgrow.cmdIn
    refine ⟨?_, hcmd ▸ hgrow, hrsp⟩
    rw [hcmd, packetsLeft]
    split
    · exact .inr rfl
    · exact .inl rfl

/-! ### Units of work -/

/-- A run that a reset in `n` units cuts short takes more than `n` units: else it would end with that reset still to come,
and the run cut short ends with it gone. -/
theorem lt_work_of_cut {run : Host.Outcome State Fault Refusal} {full cut : State} {n work : Nat} {later : List Nat}
    (hdelay : work ≤ n → run = .next (due full ((n - work) :: later))) (hcut : run = .next (resetBlock cut))
    (hdue : cut.resetIn = 0 :: later) : n < work := by
  by_contra hn
  have heq : resetBlock cut = due full ((n - work) :: later) :=
    Host.Outcome.next.inj (hcut.symm.trans (hdelay (by omega)))
  have hresets := congrArg State.resetIn heq
  rw [resetBlock_resetIn, hdue, due_resetIn, List.tail_cons] at hresets
  exact List.cons_ne_self _ _ hresets.symm

/-- A step of a procedure that takes a unit of work is cut short by a reset that is due. -/
theorem settle_works_due {m : Proc Unit} (hm : Works m) (s : State) (later : List Nat) :
    ∃ cut, settle m (due s (0 :: later)) = .next (resetBlock cut) ∧ cut.resetIn = 0 :: later := by
  obtain ⟨u, hu, hr⟩ := hm (due s (0 :: later)) later rfl
  exact ⟨u, by unfold settle; rw [hu], hr⟩

/-- With any resets to come, a command runs what it runs with none coming. -/
theorem exec_due_eq_settle (i : Instr) (s : State) (l : List Nat) :
    exec i (due s l) = settle (accepted (commandRun i s)) (due s l) := by
  rw [exec_eq_settle, commandRun_due]

/-! ### The obligations -/

/-- Settles O13: a step undoes nothing (`step_grows`), whether it is a reset or runs its procedure. -/
theorem historiesOnlyGrow : Obligations.HistoriesOnlyGrow := by
  intro s t ht
  obtain ⟨hcmd, hgrow, hrsp⟩ := step_grows ht
  refine ⟨hgrow.params, hgrow.txtOut, hgrow.ptOut, ?_, hgrow.rnd, ?_⟩
  · rcases hrsp with h | ⟨r, h⟩
    · exact h ▸ List.prefix_rfl
    · exact h ▸ List.prefix_append _ _
  · rcases hcmd with h | h
    · exact h ▸ List.suffix_rfl
    · exact h ▸ List.tail_suffix _

/-- Settles O20: a command is its accepted procedure, which a reset one unit away cuts short, so that it takes two units at
least. -/
theorem resetCutsOrDelays : Obligations.ResetCutsOrDelays := by
  intro i s h
  obtain ⟨full, work, hrun, hnone, hgrow, -, hwork⟩ :=
    settle_follows (follows_accepted (follows_commandRun i s)) h
  refine ⟨full, work, (exec_eq_settle i s).trans hrun, hnone, hgrow, ?_, fun n later => ⟨fun hn => ?_, fun hn => ?_⟩⟩
  · obtain ⟨cut, hcut, hdue⟩ := settle_accepted_soon (works_commandRun i s) s []
    exact lt_work_of_cut (hwork 1 []).1 hcut hdue
  · exact (exec_due_eq_settle i s _).trans ((hwork n later).1 hn)
  · obtain ⟨cut, hcut, hdue, hfrom, hto, hrsp⟩ := (hwork n later).2 hn
    exact ⟨cut, (exec_due_eq_settle i s _).trans hcut, hdue, hrsp, hfrom.params, hfrom.cmdIn, hfrom, hto⟩

/-- Settles O53: a step is one procedure on the state without the packet it accepts, of at least one unit of work, and two
where it accepts a packet. -/
theorem resetCutsOrDelaysAStep : Obligations.ResetCutsOrDelaysAStep := by
  intro s h
  obtain ⟨full, work, hrun, hnone, hgrow, -, hwork⟩ := settle_follows (follows_stepRun s) (s := begun s) h
  have hcmd : full.cmdIn = packetsLeft s := hgrow.cmdIn
  have hbegun : ({ s with cmdIn := full.cmdIn } : State) = begun s := by rw [hcmd]; rfl
  refine ⟨full, work, (step_eq_settle (by simp [h])).trans hrun, hnone, ?_, fun hk hc => ?_, hcmd, hbegun ▸ hgrow,
    fun n later hpos => ⟨fun hn => ?_, fun hn => ?_⟩⟩
  · obtain ⟨cut, hcut, hdue⟩ := settle_works_due (works_stepRun s) (begun s) []
    exact lt_work_of_cut (hwork 0 []).1 hcut hdue
  · obtain ⟨w, later, hw⟩ := List.exists_cons_of_ne_nil hc
    obtain ⟨cut, hcut, hdue⟩ := settle_accepted_soon (works_packetRun w (begun s)) (begun s) []
    rw [← stepRun_of_packet hk hw] at hcut
    exact lt_work_of_cut (hwork 1 []).1 hcut hdue
  · exact (step_due_eq_settle hpos s later).trans ((hwork n later).1 hn)
  · obtain ⟨cut, hcut, hdue, hfrom, hto, hrsp⟩ := (hwork n later).2 hn
    exact ⟨cut, (step_due_eq_settle hpos s later).trans hcut, hdue, hrsp, hfrom.params,
      hfrom.cmdIn.trans hcmd.symm, hbegun ▸ hfrom, hto⟩

/-- Settles O9: the packet is accepted, and an accepted command is run. -/
theorem stepRunsDecodedInstruction : Obligations.StepRunsDecodedInstruction := by
  intro s w later i h hk hc hd
  rw [step_of_packet h hk hc, accept_of_ok hd]

/-- Settles O19: the step is the reset of the block, which closes the attached ports. -/
theorem resetStepEffect : Obligations.ResetStepEffect := by
  intro s later h
  rw [step_of_due (by rw [h]; rfl), resetBlock, h]
  rfl

end Sys2Proof.Machine
end

section
/-! SUPPORT. The memory statements, on the ports: what the PUT commands write, and what KEYGEN makes of the draws. -/

namespace Sys2Proof.Machine

/-! ### PUT commands -/

/-- The four symbols of a group as the encoder picks them are the group's symbols with the last of them padded (rule R72). -/
theorem groupSymbols_eq_paddedGroup (g : BitVec 24) (p : BitVec 2) : groupSymbols g p = paddedGroup g p.toNat := by
  have hp : p = 0 ∨ p = 1 ∨ p = 2 ∨ p = 3 := by revert p; decide
  rcases hp with rfl | rfl | rfl | rfl <;>
    simp [groupSymbols, groupSymbol, groupSextet_eq, paddedGroup, groupFields, List.replicate]

/-- PUT_BYTE in `Encoding` mode (rule R73). -/
theorem exec_putByte {s : State} (h : s.resetIn = []) (hm : s.mode = .encoding) (v : Byte) (p : BitVec 2) :
    exec (.putByte v p) s = .next (answered (putState s v p) okResult) :=
  runCommand_of_ok h (putCommand_run hm (putByte_run h hm v p)) ((putState_resetIn s v p).trans h)

/-- A byte put on an incomplete group only joins it (rule R77). -/
theorem putState_of_incomplete {s : State} (hc : s.byteCount = 0 ∨ s.byteCount = 1) (v : Byte) (p : BitVec 2) :
    putState s v p = buffered s v := by
  have hne : s.byteCount ≠ 2 := by rcases hc with hc | hc <;> rw [hc] <;> decide
  exact if_neg hne

/-- The byte that completes a group sends it (rule R72). -/
theorem putState_of_complete {s : State} (hc : s.byteCount = 2) (v : Byte) (p : BitVec 2) :
    putState s v p = flushed (buffered s v) p := if_pos hc

/-- The responses given have no effect on what a byte put does. -/
theorem putState_responses (s : State) (v : Byte) (p : BitVec 2) (l : List Response) :
    putState { s with rspOut := l } v p = { putState s v p with rspOut := l } := by
  by_cases hc : s.byteCount = 2
  · rw [putState_of_complete hc, putState_of_complete (s := { s with rspOut := l }) hc]; rfl
  · rw [putState, putState, if_neg hc, if_neg (by exact hc)]; rfl

/-! ### Several bytes -/

/-- The state after bytes have been put, each with its padding count. -/
def putPadded (s : State) (puts : List (Byte × BitVec 2)) : State :=
  puts.foldl (fun s x => putState s x.1 x.2) s

theorem putPadded_cons (s : State) (x : Byte × BitVec 2) (puts : List (Byte × BitVec 2)) :
    putPadded s (x :: puts) = putPadded (putState s x.1 x.2) puts := rfl

theorem putPadded_append (s : State) (xs ys : List (Byte × BitVec 2)) :
    putPadded s (xs ++ ys) = putPadded (putPadded s xs) ys := List.foldl_append

@[simp] theorem putPadded_resetIn (s : State) (puts : List (Byte × BitVec 2)) :
    (putPadded s puts).resetIn = s.resetIn := by
  induction puts generalizing s with
  | nil => rfl
  | cons x puts ih => rw [putPadded_cons, ih, putState_resetIn]

@[simp] theorem putPadded_mode (s : State) (puts : List (Byte × BitVec 2)) :
    (putPadded s puts).mode = s.mode := by
  induction puts generalizing s with
  | nil => rfl
  | cons x puts ih => rw [putPadded_cons, ih, putState_mode]

theorem putPadded_responses (s : State) (puts : List (Byte × BitVec 2)) (l : List Response) :
    putPadded { s with rspOut := l } puts = { putPadded s puts with rspOut := l } := by
  induction puts generalizing s with
  | nil => rfl
  | cons x puts ih => rw [putPadded_cons, putPadded_cons, putState_responses, ih]

@[simp] theorem putPadded_rspOut (s : State) (puts : List (Byte × BitVec 2)) :
    (putPadded s puts).rspOut = s.rspOut := by
  have h := congrArg State.rspOut (putPadded_responses s puts s.rspOut)
  exact h

/-- PUT_BYTEs in `Encoding` mode leave what their bytes leave, but for one response each (rule R73). -/
theorem runCommands_putBytes {s : State} (h : s.resetIn = []) (hm : s.mode = .encoding)
    (puts : List (Byte × BitVec 2)) :
    ∃ l, runCommands (puts.map fun x => .putByte x.1 x.2) s = some { putPadded s puts with rspOut := l } := by
  induction puts generalizing s with
  | nil => exact ⟨s.rspOut, rfl⟩
  | cons x puts ih =>
    obtain ⟨l, hl⟩ := ih (s := answered (putState s x.1 x.2) okResult)
      ((putState_resetIn s x.1 x.2).trans h) ((putState_mode s x.1 x.2).trans hm)
    refine ⟨l, ?_⟩
    rw [List.map_cons, runCommands, exec_putByte h hm]
    refine hl.trans ?_
    rw [answered, putPadded_responses, putPadded_cons]

/-- A PUT whose serialiser puts some bytes leaves what PUT_BYTEs of them leave, but answers once (rules R74 to R76). -/
theorem put_eq_putBytes {s u : State} {put : Proc Unit} {puts : List (Byte × BitVec 2)} (h : s.resetIn = [])
    (hm : s.mode = .encoding) (hput : put.run s = .ok () u) (hu : u = putPadded s puts) :
    ∃ t, runCommands (puts.map fun x => .putByte x.1 x.2) s = some t ∧
      runCommand (putCommand put) s = .next
        { t with rspOut := s.rspOut ++ [responseWord .encoding { status := .ok }] } := by
  subst hu
  obtain ⟨l, hl⟩ := runCommands_putBytes h hm puts
  refine ⟨_, hl, ?_⟩
  rw [runCommand_of_ok h (putCommand_run hm hput) (by rw [putPadded_resetIn, h]), answered, putPadded_mode, hm,
    putPadded_rspOut]
  rfl

/-! ### Integers as bytes -/

/-- A field of a field of a word is a field of the word. -/
theorem extractLsb'_of_extractLsb' {n : Nat} (v : BitVec n) {i a j b : Nat} (h : j + b ≤ a) :
    (v.extractLsb' i a).extractLsb' j b = v.extractLsb' (i + j) b := by
  apply BitVec.eq_of_getLsbD_eq
  intro k hk
  have hlt : j + k < a := by omega
  simp only [BitVec.getLsbD_extractLsb', hk, hlt, decide_true, Bool.true_and, Nat.add_assoc]

/-- The bytes `PutInt16` puts (rule R74). -/
theorem putState16_eq_putPadded (s : State) (v : BitVec 16) (p : BitVec 2) :
    putState16 s v p = putPadded s [(v.extractLsb' 0 8, 0), (v.extractLsb' 8 8, p)] := rfl

/-- The bytes `PutInt32` puts (rule R75). -/
theorem putState32_eq_putPadded (s : State) (v : BitVec 32) (p : BitVec 2) :
    putState32 s v p = putPadded s [(v.extractLsb' 0 8, 0), (v.extractLsb' 8 8, 0), (v.extractLsb' 16 8, 0),
      (v.extractLsb' 24 8, p)] := by
  rw [putState32, putState16_eq_putPadded, putState16_eq_putPadded, ← putPadded_append, lowHalf, highHalf]
  simp (disch := decide) only [extractLsb'_of_extractLsb', List.cons_append, List.nil_append, Nat.reduceAdd]

/-- The bytes `PutInt64` puts (rule R76). -/
theorem putState64_eq_putPadded (s : State) (v : BitVec 64) (p : BitVec 2) :
    putState64 s v p = putPadded s [(v.extractLsb' 0 8, 0), (v.extractLsb' 8 8, 0), (v.extractLsb' 16 8, 0),
      (v.extractLsb' 24 8, 0), (v.extractLsb' 32 8, 0), (v.extractLsb' 40 8, 0), (v.extractLsb' 48 8, 0),
      (v.extractLsb' 56 8, p)] := by
  rw [putState64, putState32_eq_putPadded, putState32_eq_putPadded, ← putPadded_append, lowHalf, highHalf]
  simp (disch := decide) only [extractLsb'_of_extractLsb', List.cons_append, List.nil_append, Nat.reduceAdd]

/-! ### KEYGEN -/

/-- KEYGEN, where no reset is coming, is the search over the draws there are (rule R130). -/
theorem exec_keygen {s : State} (h : s.resetIn = []) :
    exec .keygen s = .next (keygenLeft s (keygenSearch .seekP s.rnd)) :=
  (exec_of_none .keygen h).trans (settle_keygenRun h .seekP)

/-- A KEYGEN in progress, where no reset is coming, is the search from its phase on (rules R130, R135). -/
theorem step_keygen {s : State} (h : s.resetIn = []) {phase : KeygenPhase} (hk : s.keygen = some phase) :
    step s = .next (keygenLeft s (keygenSearch phase s.rnd)) :=
  (step_of_keygen (by simp [h]) hk).trans (settle_keygenRun h phase)

/-- What KEYGEN leaves does not depend on the draws and the phase it began with, beyond the outcome of its search. -/
theorem keygenLeft_inputs (s : State) (draws : List Nat) (k : Option KeygenPhase)
    (outcome : KeygenPhase ⊕ (Result × List Nat)) :
    keygenLeft { s with rnd := draws, keygen := k } outcome = keygenLeft s outcome := by
  cases outcome <;> rfl

/-- A KEYGEN that waits has found no key in the draws it took (rule R135). -/
theorem search_of_waiting {s : State} {outcome : KeygenPhase ⊕ (Result × List Nat)} {phase : KeygenPhase}
    (h : (keygenLeft s outcome).keygen = some phase) : outcome = .inl phase := by
  cases outcome with
  | inl phase' => exact congrArg Sum.inl (Option.some.inj h)
  | inr answer => exact absurd h.symm (Option.some_ne_none phase)

/-- A KEYGEN that has given a response has found a key (rule R130). -/
theorem search_of_response {s : State} {outcome : KeygenPhase ⊕ (Result × List Nat)} {r : Response}
    (h : (keygenLeft s outcome).rspOut = s.rspOut ++ [r]) :
    ∃ answer left, outcome = .inr (answer, left) ∧ r = responseWord s.mode answer := by
  cases outcome with
  | inl phase => exact absurd (List.append_right_eq_self.mp h.symm) (List.cons_ne_nil r [])
  | inr found =>
    obtain ⟨answer, left⟩ := found
    exact ⟨answer, left, rfl, (List.cons.inj (List.append_cancel_left h)).1.symm⟩

/-- A number in the key range of some parameters. -/
def InKeyRange (params : Params) (v : Nat) : Prop := params.keyLo ≤ v ∧ v ≤ params.keyHi

/-- Only a draw for `e` that is coprime to `f` ends a search (rule R133). -/
theorem keygenTurn_answer {phase : KeygenPhase} {v : Nat} {answer : Result} (h : keygenTurn phase v = .inr answer) :
    ∃ p q, phase = .seekE p q ∧ Nat.gcd v (keyTotient p q) = 1 ∧ answer = keyResult p q v := by
  cases phase with
  | seekP => rw [keygenTurn] at h; split at h <;> cases h
  | seekQ p => rw [keygenTurn] at h; split at h <;> cases h
  | seekE p q =>
    rw [keygenTurn] at h
    split at h
    · next hg => exact ⟨p, q, rfl, (gcd_natCast _ _).symm.trans hg, (Sum.inr.inj h).symm⟩
    · cases h

/-- The answer of a search is a key of two primes and an exponent of the key range (rules R130, R132, R133). -/
theorem search_answer {params : Params} {phase : KeygenPhase} {draws left : List Nat} {answer : Result}
    (hphase : phaseOk params (some phase)) (hdraws : ∀ v ∈ draws, InKeyRange params v)
    (h : keygenSearch phase draws = .inr (answer, left)) :
    ∃ p q e, p.Prime ∧ q.Prime ∧ InKeyRange params p ∧ InKeyRange params q ∧ InKeyRange params e ∧
      Nat.gcd e (keyTotient p q) = 1 ∧ answer = keyResult p q e := by
  induction draws generalizing phase with
  | nil => cases h
  | cons v draws ih =>
    have hv : InKeyRange params v := hdraws v List.mem_cons_self
    rw [keygenSearch] at h
    cases hturn : keygenTurn phase v with
    | inl phase' =>
      rw [hturn] at h
      exact ih (keygenTurn_phase hphase hv hturn) (fun u hu => hdraws u (List.mem_cons_of_mem v hu)) h
    | inr result =>
      rw [hturn] at h
      cases h
      obtain ⟨p, q, rfl, hcoprime, hkey⟩ := keygenTurn_answer hturn
      obtain ⟨⟨hp, hpRange⟩, hq, hqRange⟩ := hphase
      exact ⟨p, q, v, (isPrime_iff p).mp hp, (isPrime_iff q).mp hq, hpRange, hqRange, hv, hcoprime, hkey⟩

/-- No number of the key range of well-formed parameters is greater than `2^16` (rule R131). -/
theorem InKeyRange.le {params : Params} (hw : params.wellFormed = true) {v : Nat} (h : InKeyRange params v) :
    v ≤ 2 ^ 16 := by
  have hsquare : params.keyHi ^ 2 ≤ (2 ^ 16) ^ 2 := by
    simp only [Params.wellFormed, Params.keyRangeOk, Bool.and_eq_true, decide_eq_true_eq] at hw
    obtain ⟨⟨-, -, hsquare⟩, -⟩ := hw
    exact hsquare
  exact h.2.trans ((Nat.pow_le_pow_iff_left two_ne_zero).mp hsquare)

/-- The fields of a key of the key range hold its numbers whole, and `d` is the inverse of `e` (rules R130, R133, R134). -/
theorem keyResult_fields {p q e : Nat} (hp : p.Prime) (hq : q.Prime) (hp16 : p ≤ 2 ^ 16) (hq16 : q ≤ 2 ^ 16)
    (he16 : e ≤ 2 ^ 16) (hcoprime : Nat.gcd e (keyTotient p q) = 1) :
    (keyResult p q e).r0.toNat = p * q ∧ (keyResult p q e).r1.toNat = e ∧
      (keyResult p q e).r2.toNat < keyTotient p q ∧
      (keyResult p q e).r2.toNat * e % keyTotient p q = 1 % keyTotient p q := by
  have hpq : p * q ≤ 2 ^ 16 * 2 ^ 16 := Nat.mul_le_mul hp16 hq16
  have hf : keyTotient p q ≤ p * q := Nat.mul_le_mul (Nat.sub_le p 1) (Nat.sub_le q 1)
  have hf1 : 1 ≤ keyTotient p q :=
    Nat.mul_pos (Nat.sub_pos_of_lt hp.one_lt) (Nat.sub_pos_of_lt hq.one_lt)
  obtain ⟨d, hd, hdlt, hinverse⟩ := modInverse_spec hf1 hcoprime
  have hr2 : (keyResult p q e).r2.toNat = d := by
    rw [keyResult, hd, Option.getD_some]
    exact Nat.mod_eq_of_lt (by omega)
  refine ⟨Nat.mod_eq_of_lt (by rw [keyModulus]; omega), Nat.mod_eq_of_lt (by omega), hr2 ▸ hdlt, ?_⟩
  rw [hr2, Nat.mul_comm, hinverse]

/-- A KEYGEN that answers, from a phase it can be in: the response is a key, in range (rule R134). -/
theorem keygen_response {s : State} {phase : KeygenPhase} {r : Response} (hinv : s.Inv)
    (hphase : phaseOk s.params (some phase))
    (hr : (keygenLeft s (keygenSearch phase s.rnd)).rspOut = s.rspOut ++ [r]) :
    ∃ p q e, p.Prime ∧ q.Prime ∧ InKeyRange s.params p ∧ InKeyRange s.params q ∧ InKeyRange s.params e ∧
      Nat.gcd e (keyTotient p q) = 1 ∧ r = responseWord s.mode (keyResult p q e) := by
  obtain ⟨answer, left, hsearch, hanswer⟩ := search_of_response hr
  obtain ⟨p, q, e, hp, hq, hpRange, hqRange, heRange, hcoprime, rfl⟩ :=
    search_answer hphase hinv.drawsInRange hsearch
  exact ⟨p, q, e, hp, hq, hpRange, hqRange, heRange, hcoprime, hanswer⟩

/-! ### The obligations -/

/-- Settles O23: PUT_BYTE's state is the byte buffered, or the full group flushed, whose symbols are the padded group. -/
theorem putByteObligation : Obligations.PutByte := by
  intro s v p h hm
  refine ⟨fun hc => ?_, fun hc => ?_⟩
  · rw [exec_putByte h hm, putState_of_incomplete hc]
    rfl
  · rw [exec_putByte h hm, putState_of_complete hc, ← groupSymbols_eq_paddedGroup]
    rfl

/-- Settles O24: each serialiser puts the bytes of its integer one after another. -/
theorem putIntegers : Obligations.PutIntegers := by
  intro s p h hm
  exact ⟨fun v => (put_eq_putBytes h hm (putInt16_run h hm v p) (putState16_eq_putPadded s v p) :),
    fun v => (put_eq_putBytes h hm (putInt32_run h hm v p) (putState32_eq_putPadded s v p) :),
    fun v => (put_eq_putBytes h hm (putInt64_run h hm v p) (putState64_eq_putPadded s v p) :)⟩

/-- Settles O41: searching the draws in two parts is searching them all (`search_append`). -/
theorem keygenDelayInvisible : Obligations.KeygenDelayInvisible := by
  intro s t first others phase h _ ht hphase
  rw [exec_keygen (s := { s with rnd := first }) h] at ht
  cases ht
  have hfirst : keygenSearch .seekP first = .inl phase := search_of_waiting hphase
  rw [exec_keygen (s := { s with rnd := first ++ others }) h, search_append, hfirst,
    step_keygen (phase := phase) (by exact h) rfl]
  exact congrArg _ ((keygenLeft_inputs s (first ++ others) s.keygen _).trans
    (keygenLeft_inputs s others (some phase) _).symm)

/-- Settles O42: an answer is the key of a search (`search_answer`), and its fields hold it whole (`keyResult_fields`). -/
theorem keygenGuarantees : Obligations.KeygenGuarantees := by
  intro s t r hinv hw h ht hr
  obtain ⟨phase, hphase, rfl⟩ : ∃ phase, phaseOk s.params (some phase) ∧
      t = keygenLeft s (keygenSearch phase s.rnd) := by
    rcases ht with ht | ⟨hk, ht⟩
    · exact ⟨.seekP, trivial, Host.Outcome.next.inj (ht.symm.trans (exec_keygen h))⟩
    · obtain ⟨phase, hphase⟩ := Option.ne_none_iff_exists'.mp hk
      exact ⟨phase, hphase ▸ hinv.keygenPhase, Host.Outcome.next.inj (ht.symm.trans (step_keygen h hphase))⟩
  obtain ⟨p, q, e, hp, hq, hpRange, hqRange, heRange, hcoprime, rfl⟩ := keygen_response hinv hphase hr
  obtain ⟨hn, he, hd, hinverse⟩ :=
    keyResult_fields hp hq (hpRange.le hw) (hqRange.le hw) (heRange.le hw) hcoprime
  rw [responseStatus_responseWord, responseR0_responseWord, responseR1_responseWord, responseR2_responseWord, he]
  exact ⟨rfl, p, q, hp, hq, hpRange.1, hpRange.2, hqRange.1, hqRange.2, hn, hcoprime, heRange.1, heRange.2, hd,
    hinverse⟩

end Sys2Proof.Machine
end

section
/-! SUPPORT. The encoding statements: the opcodes of the opcode map, when a packet is a command and when it is illegal, the
bits of a packet its command reads, the response of a command, the alphabet. -/

namespace Sys2Proof.Machine

/-! ### The opcode map -/

/-- The opcodes of the rows that take a padding count (rule R52). -/
def putOpcodes : List (BitVec 8) := [0x08, 0x09, 0x0A, 0x0B]

/-- The opcodes of the rows that take none (rule R52). -/
def plainOpcodes : List (BitVec 8) :=
  [0x00, 0x01, 0x02, 0x03, 0x04, 0x0C, 0x0D, 0x0E, 0x0F, 0x10, 0x11, 0x12, 0x13, 0x18, 0x19, 0x1A]

/-- The header of an opcode, with reserved bits and padding count 0 (rule R50). -/
def headerOf (opc : BitVec 8) : BitVec 16 := (0 : BitVec 6) ++ (0 : BitVec 2) ++ opc

/-- The rows of the opcode map are those of the two lists of opcodes, each with its mask (rule R52). -/
theorem mem_opcodeRows_iff (row : BitVec 16 × BitVec 16) :
    row ∈ opcodeRows ↔ (∃ k ∈ putOpcodes, (headerOf k, 0xFCFF) = row) ∨
      ∃ k ∈ plainOpcodes, (headerOf k, 0xFFFF) = row := by
  have hperm : opcodeRows.Perm
      (putOpcodes.map (fun k => (headerOf k, 0xFCFF)) ++ plainOpcodes.map (fun k => (headerOf k, 0xFFFF))) := by
    decide
  rw [hperm.mem_iff, List.mem_append, List.mem_map, List.mem_map]

/-- A packet matches a row when its reserved bits are 0 and its opcode and padding count are those of a row (rules R50,
R52). -/
theorem exists_row_iff (w : Packet) :
    (∃ row ∈ opcodeRows, packetHeader w &&& row.2 = row.1) ↔
      packetRsv w = 0 ∧ (packetOpc w ∈ putOpcodes ∨ packetPad w = 0 ∧ packetOpc w ∈ plainOpcodes) := by
  constructor
  · rintro ⟨row, hrow, hmatch⟩
    rcases (mem_opcodeRows_iff row).mp hrow with ⟨k, hk, rfl⟩ | ⟨k, hk, rfl⟩
    · obtain ⟨hrsv, rfl⟩ := (row_padded w k rfl).mp hmatch
      exact ⟨hrsv, .inl hk⟩
    · obtain ⟨hrsv, hpad, rfl⟩ := (row_plain w k rfl).mp hmatch
      exact ⟨hrsv, .inr ⟨hpad, hk⟩⟩
  · rintro ⟨hrsv, hk | ⟨hpad, hk⟩⟩
    · exact ⟨_, (mem_opcodeRows_iff _).mpr (.inl ⟨_, hk, rfl⟩), (row_padded w _ rfl).mpr ⟨hrsv, rfl⟩⟩
    · exact ⟨_, (mem_opcodeRows_iff _).mpr (.inr ⟨_, hk, rfl⟩), (row_plain w _ rfl).mpr ⟨hrsv, hpad, rfl⟩⟩

theorem mem_putOpcodes_iff (opc : BitVec 8) : opc ∈ putOpcodes ↔ 0x08 ≤ opc.toNat ∧ opc.toNat ≤ 0x0B := by
  simp only [putOpcodes, List.mem_cons, List.not_mem_nil, or_false, BitVec.toNat_eq, BitVec.ofNat_eq_ofNat,
    BitVec.toNat_ofNat]
  omega

theorem mem_plainOpcodes_iff (opc : BitVec 8) :
    opc ∈ plainOpcodes ↔
      opc.toNat ≤ 0x04 ∨ (0x0C ≤ opc.toNat ∧ opc.toNat ≤ 0x13) ∨ (0x18 ≤ opc.toNat ∧ opc.toNat ≤ 0x1A) := by
  simp only [plainOpcodes, List.mem_cons, List.not_mem_nil, or_false, BitVec.toNat_eq, BitVec.ofNat_eq_ofNat,
    BitVec.toNat_ofNat]
  omega

/-! ### Decoding by opcode -/

/-- A command with a padding count has an opcode of its list, the one of its row (rule R52). -/
theorem decodePut_row {opc : BitVec 8} {pad : BitVec 2} {a : Word} {i : Instr} (h : decodePut opc pad a = some i) :
    opc ∈ putOpcodes ∧ headerMatch i = headerOf opc := by
  rcases decodePut_cases h with ⟨rfl, rfl⟩ | ⟨rfl, rfl⟩ | ⟨rfl, rfl⟩ | ⟨rfl, rfl⟩ <;> exact ⟨by decide, rfl⟩

/-- A command without a padding count has an opcode of its list, the one of its row (rule R52). -/
theorem decodePlain_row {opc : BitVec 8} {a b c : Word} {i : Instr} (h : decodePlain opc a b c = some i) :
    opc ∈ plainOpcodes ∧ headerMatch i = headerOf opc := by
  rcases decodePlain_cases h with ⟨rfl, rfl⟩ | ⟨rfl, rfl⟩ | ⟨rfl, rfl⟩ | ⟨rfl, rfl⟩ | ⟨rfl, rfl⟩ | ⟨rfl, rfl⟩ |
    ⟨rfl, rfl⟩ | ⟨rfl, rfl⟩ | ⟨rfl, rfl⟩ | ⟨rfl, rfl⟩ | ⟨rfl, rfl⟩ | ⟨rfl, rfl⟩ | ⟨rfl, rfl⟩ | ⟨rfl, rfl⟩ |
    ⟨rfl, rfl⟩ | ⟨rfl, rfl⟩ <;> exact ⟨by decide, rfl⟩

theorem exists_decodePut_iff (opc : BitVec 8) (pad : BitVec 2) (a : Word) :
    (∃ i, decodePut opc pad a = some i) ↔ opc ∈ putOpcodes := by
  refine ⟨fun ⟨_, h⟩ => (decodePut_row h).1, fun h => ?_⟩
  simp only [putOpcodes, List.mem_cons, List.not_mem_nil, or_false] at h
  rcases h with rfl | rfl | rfl | rfl <;> exact ⟨_, rfl⟩

theorem exists_decodePlain_iff (opc : BitVec 8) (a b c : Word) :
    (∃ i, decodePlain opc a b c = some i) ↔ opc ∈ plainOpcodes := by
  refine ⟨fun ⟨_, h⟩ => (decodePlain_row h).1, fun h => ?_⟩
  simp only [plainOpcodes, List.mem_cons, List.not_mem_nil, or_false] at h
  rcases h with rfl | rfl | rfl | rfl | rfl | rfl | rfl | rfl | rfl | rfl | rfl | rfl | rfl | rfl | rfl | rfl <;>
    exact ⟨_, rfl⟩

/-- No opcode is in both lists, so an opcode of a command without a padding count is none of one that takes it. -/
theorem decodePut_eq_none_of_plain {opc : BitVec 8} (h : opc ∈ plainOpcodes) (pad : BitVec 2) (a : Word) :
    decodePut opc pad a = none := by
  refine Option.eq_none_iff_forall_ne_some.mpr fun i hi => ?_
  have hput := (mem_putOpcodes_iff opc).mp (decodePut_row hi).1
  have hplain := (mem_plainOpcodes_iff opc).mp h
  omega

/-- When a packet is a command, and which one (rule R62). -/
theorem decode_eq_ok_iff {w : Packet} {i : Instr} :
    decode w = .ok i ↔ packetRsv w = 0 ∧
      (decodePut (packetOpc w) (packetPad w) (packetA w) = some i ∨
        packetPad w = 0 ∧ decodePlain (packetOpc w) (packetA w) (packetB w) (packetC w) = some i) := by
  constructor
  · intro h
    obtain ⟨hrsv, hput | ⟨hpad, -, hplain⟩⟩ := decode_cases h
    · exact ⟨hrsv, .inl hput⟩
    · exact ⟨hrsv, .inr ⟨hpad, hplain⟩⟩
  · rintro ⟨hrsv, hput | ⟨hpad, hplain⟩⟩
    · simp [decode, hrsv, hput]
    · simp [decode, hrsv, decodePut_eq_none_of_plain (decodePlain_row hplain).1, hpad, hplain]

/-- A packet is a command exactly when it matches a row (rule R52). -/
theorem exists_decode_iff (w : Packet) :
    (∃ i, decode w = .ok i) ↔ ∃ row ∈ opcodeRows, packetHeader w &&& row.2 = row.1 := by
  simp only [decode_eq_ok_iff, exists_and_left, exists_or, exists_decodePut_iff, exists_decodePlain_iff,
    exists_row_iff]

/-- A packet that matches no row is refused (rule R56). -/
theorem decode_eq_error_of_no_row {w : Packet} (h : ∀ row ∈ opcodeRows, packetHeader w &&& row.2 ≠ row.1) :
    ∃ e, decode w = .error e := by
  cases hd : decode w with
  | ok i =>
    obtain ⟨row, hrow, hmatch⟩ := (exists_decode_iff w).mp ⟨i, hd⟩
    exact absurd hmatch (h row hrow)
  | error e => exact ⟨e, rfl⟩

/-! ### The packet of a command -/

theorem decode_packet_put {opc : BitVec 8} {pad : BitVec 2} {a : Word} {i : Instr} (h : decodePut opc pad a = some i)
    (b c : Word) : decode (packet opc pad a b c) = .ok i := by
  rw [decode_eq_ok_iff, packetRsv_packet, packetOpc_packet, packetPad_packet, packetA_packet]
  exact ⟨rfl, .inl h⟩

theorem decode_packet_plain {opc : BitVec 8} {a b c : Word} {i : Instr} (h : decodePlain opc a b c = some i) :
    decode (packet opc 0 a b c) = .ok i := by
  rw [decode_eq_ok_iff, packetRsv_packet, packetOpc_packet, packetPad_packet, packetA_packet, packetB_packet,
    packetC_packet]
  exact ⟨rfl, .inr ⟨rfl, h⟩⟩

/-- An operand narrower than its field is the low bits of the field (rules R51, R60). -/
theorem extract_zeroExtend {n : Nat} (hn : n ≤ 64) (v : BitVec n) : (v.zeroExtend 64).extractLsb' 0 n = v := by
  rw [BitVec.zeroExtend, BitVec.extractLsb'_setWidth_of_le (by omega), BitVec.extractLsb'_eq_self]

/-! ### The bits a command reads -/

/-- How many bits a command reads of its packet, from the lowest (rule R51). -/
def readWidth : Instr → Nat
  | .status | .beginEncode | .beginDecode | .endEncode | .endDecode => 16
  | .getByte | .getInt16 | .getInt32 | .getInt64 | .keygen => 16
  | .putByte _ _ => 24
  | .putInt16 _ _ => 32
  | .putInt32 _ _ => 48
  | .putInt64 _ _ | .isPrime _ => 80
  | .gcd _ _ | .modInverse _ _ | .encrypt _ _ | .decrypt _ _ => 144
  | .modExp _ _ _ => 208

theorem packetReads_eq (i : Instr) : packetReads i = BitVec.ofNat 208 (2 ^ readWidth i - 1) := by
  cases i <;> rfl

theorem header_le_readWidth (i : Instr) : 16 ≤ readWidth i := by
  cases i <;> simp [readWidth]

section agree
variable {v w : Packet} {i : Instr}

/-- Packets that agree on what a command reads agree on every field within it. -/
theorem extract_eq_of_agree {start len : Nat} (h : v &&& packetReads i = w &&& packetReads i)
    (hread : start + len ≤ readWidth i) : v.extractLsb' start len = w.extractLsb' start len := by
  rw [packetReads_eq] at h
  apply BitVec.eq_of_getLsbD_eq
  intro j hj
  have hbit := congrArg (fun x : Packet => x.getLsbD (start + j)) h
  simp only [BitVec.getLsbD_and, BitVec.getLsbD_ofNat, Nat.testBit_two_pow_sub_one,
    show start + j < readWidth i by omega, decide_true, Bool.and_true] at hbit
  simp only [BitVec.getLsbD_extractLsb', hj, decide_true, Bool.true_and]
  by_cases hw : start + j < 208
  · simpa [hw] using hbit
  · rw [BitVec.getLsbD_of_ge v _ (by omega), BitVec.getLsbD_of_ge w _ (by omega)]

/-- Every command reads the whole header (rules R51, R62). -/
theorem header_fields_of_agree (h : v &&& packetReads i = w &&& packetReads i) :
    packetRsv v = packetRsv w ∧ packetPad v = packetPad w ∧ packetOpc v = packetOpc w := by
  have hi := header_le_readWidth i
  exact ⟨extract_eq_of_agree h (by omega), extract_eq_of_agree h (by omega), extract_eq_of_agree h (by omega)⟩

/-- The low bits of `A` are bits of the packet (rule R50). -/
theorem packetA_low (w : Packet) {len : Nat} (hlen : len ≤ 64) :
    (packetA w).extractLsb' 0 len = w.extractLsb' 16 len := by
  apply BitVec.eq_of_getLsbD_eq
  intro j hj
  simp [packetA, hj, show j < 64 by omega]

/-- The low bits of `A`, where the command reads them. -/
theorem packetA_low_of_agree {len : Nat} (h : v &&& packetReads i = w &&& packetReads i) (hlen : len ≤ 64)
    (hread : 16 + len ≤ readWidth i) : (packetA v).extractLsb' 0 len = (packetA w).extractLsb' 0 len := by
  rw [packetA_low v hlen, packetA_low w hlen, extract_eq_of_agree h hread]

/-- Of `A` a PUT reads just the bits of its value (rule R51). -/
theorem decodePut_of_agree (hw : decodePut (packetOpc w) (packetPad w) (packetA w) = some i)
    (h : v &&& packetReads i = w &&& packetReads i) :
    decodePut (packetOpc w) (packetPad w) (packetA v) = some i := by
  rcases decodePut_cases hw with ⟨hopc, rfl⟩ | ⟨hopc, rfl⟩ | ⟨hopc, rfl⟩ | ⟨hopc, rfl⟩ <;> rw [hopc]
  · rw [← packetA_low_of_agree h (by omega) (Nat.le_refl 24)]; rfl
  · rw [← packetA_low_of_agree h (by omega) (Nat.le_refl 32)]; rfl
  · rw [← packetA_low_of_agree h (by omega) (Nat.le_refl 48)]; rfl
  · have hA : packetA v = packetA w := extract_eq_of_agree h (Nat.le_refl 80)
    rw [hA]; rfl

/-- Of `A`, `B` and `C` the other commands read those they have as operands (rule R51). -/
theorem decodePlain_of_agree (hw : decodePlain (packetOpc w) (packetA w) (packetB w) (packetC w) = some i)
    (h : v &&& packetReads i = w &&& packetReads i) :
    decodePlain (packetOpc w) (packetA v) (packetB v) (packetC v) = some i := by
  have hA (hread : 80 ≤ readWidth i) : packetA v = packetA w := extract_eq_of_agree h hread
  have hB (hread : 144 ≤ readWidth i) : packetB v = packetB w := extract_eq_of_agree h hread
  have hC (hread : 208 ≤ readWidth i) : packetC v = packetC w := extract_eq_of_agree h hread
  rcases decodePlain_cases hw with ⟨hopc, rfl⟩ | ⟨hopc, rfl⟩ | ⟨hopc, rfl⟩ | ⟨hopc, rfl⟩ | ⟨hopc, rfl⟩ |
    ⟨hopc, rfl⟩ | ⟨hopc, rfl⟩ | ⟨hopc, rfl⟩ | ⟨hopc, rfl⟩ | ⟨hopc, rfl⟩ | ⟨hopc, rfl⟩ | ⟨hopc, rfl⟩ |
    ⟨hopc, rfl⟩ | ⟨hopc, rfl⟩ | ⟨hopc, rfl⟩ | ⟨hopc, rfl⟩ <;> rw [hopc]
  iterate 9 · rfl -- STATUS to GET_INT64 have no operands
  · rw [hA (Nat.le_refl 80)]; rfl
  · rw [hA (by simp [readWidth]), hB (Nat.le_refl 144)]; rfl
  · rw [hA (by simp [readWidth]), hB (Nat.le_refl 144)]; rfl
  · rw [hA (by simp [readWidth]), hB (by simp [readWidth]), hC (Nat.le_refl 208)]; rfl
  · rfl
  · rw [hA (by simp [readWidth]), hB (Nat.le_refl 144)]; rfl
  · rw [hA (by simp [readWidth]), hB (Nat.le_refl 144)]; rfl

end agree

/-! ### The response of a command -/

/-- Where no reset is coming, a command other than KEYGEN ends in its one response (rules R54, R165). -/
theorem exec_answers {i : Instr} {s : State} (h : s.resetIn = []) (hi : i ≠ .keygen) :
    ∃ r t, exec i s = .next (answered t r) ∧ t.rspOut = s.rspOut := by
  obtain ⟨body, hbody, hrun⟩ := commandRun_body i hi s
  obtain ⟨r, t, -, hok, hnone, -, hrsp, -⟩ := hbody s h
  refine ⟨r, t, ?_, by simpa using hrsp⟩
  rw [exec_eq_settle, hrun]
  exact runCommand_of_ok h hok hnone

/-- No status has a code from 0xA to 0xE (rule R166). -/
theorem statusCode_range (st : Status) : (statusCode st).toNat < 0xA ∨ statusCode st = 0xF := by
  cases st <;> decide

/-- Bits 7:6 of a response are 0 (rule R54). -/
theorem responseWord_zeroBits (m : Mode) (r : Result) : (responseWord m r).extractLsb' 6 2 = 0 := by
  apply BitVec.eq_of_getLsbD_eq
  intro j hj
  simp only [BitVec.getLsbD_extractLsb', responseWord_getLsbD, hj, decide_true, Bool.true_and]
  rw [if_neg (by omega), if_neg (by omega), if_pos (by omega)]
  simp

/-! ### The alphabet -/

/-- The ranges of the alphabet, value by value (rule R58; G1). -/
theorem alpha_ranges : ∀ v ∈ (List.range 64).map (BitVec.ofNat 6),
    (v.toNat ≤ 25 → (alpha v).toNat = 0x41 + v.toNat) ∧
    (26 ≤ v.toNat ∧ v.toNat ≤ 51 → (alpha v).toNat = 0x61 + (v.toNat - 26)) ∧
    (52 ≤ v.toNat ∧ v.toNat ≤ 61 → (alpha v).toNat = 0x30 + (v.toNat - 52)) ∧
    (v.toNat = 62 → alpha v = 0x2B) ∧
    (v.toNat = 63 → alpha v = 0x2F) := by decide

/-- Only the byte of a value has that value (rule R58). -/
theorem eq_alpha_of_alphaValue {b : Byte} {v : Sextet} (h : alphaValue b = some v) : b = alpha v := by
  obtain ⟨k, hfind, rfl⟩ := Option.map_eq_some_iff.mp h
  obtain ⟨hk, hbyte, -⟩ := List.findIdx?_eq_some_iff_getElem.mp hfind
  have h64 : k < 64 := hk
  have hget : alphabet.getD k padChar = alphabet[k] := List.getD_eq_getElem _ _ hk
  rw [alpha, BitVec.toNat_ofNat, Nat.mod_eq_of_lt h64, hget]
  exact (eq_of_beq hbyte).symm

/-! ### The obligations -/

/-- Settles O1, command by command: the fields of its packet are its operands and select it. -/
theorem decodeOfEncode : Obligations.DecodeOfEncode := by
  intro i _
  cases i with
  | putByte | putInt16 | putInt32 => exact decode_packet_put (by simp [decodePut, extract_zeroExtend]) _ _
  | putInt64 => exact decode_packet_put rfl _ _
  | status | beginEncode | beginDecode | endEncode | endDecode => exact decode_packet_plain rfl
  | getByte | getInt16 | getInt32 | getInt64 => exact decode_packet_plain rfl
  | isPrime | gcd | modInverse | modExp => exact decode_packet_plain rfl
  | keygen | encrypt | decrypt => exact decode_packet_plain rfl

/-- Settles O2: the rows are the two lists of opcodes, and an opcode's command is that of its row. -/
theorem headerSelectsCommand : Obligations.HeaderSelectsCommand := by
  refine ⟨exists_decode_iff, fun w i h => ?_⟩
  obtain ⟨hrsv, hput | ⟨hpad, hplain⟩⟩ := decode_eq_ok_iff.mp h
  · obtain ⟨hk, hm⟩ := decodePut_row hput
    exact ⟨0xFCFF, (mem_opcodeRows_iff _).mpr (.inl ⟨_, hk, by rw [hm]⟩), (row_padded w _ hm).mpr ⟨hrsv, rfl⟩⟩
  · obtain ⟨hk, hm⟩ := decodePlain_row hplain
    exact ⟨0xFFFF, (mem_opcodeRows_iff _).mpr (.inr ⟨_, hk, by rw [hm]⟩), (row_plain w _ hm).mpr ⟨hrsv, hpad, rfl⟩⟩

/-- Settles O3: the header and the operands the command has are within the bits it reads. -/
theorem unusedOperandBitsIgnored : Obligations.UnusedOperandBitsIgnored := by
  intro w v i hw h
  obtain ⟨hrsv, hpad, hopc⟩ := header_fields_of_agree h
  rw [decode_eq_ok_iff] at hw ⊢
  rw [hrsv, hpad, hopc]
  exact hw.imp_right (Or.imp (decodePut_of_agree · h) (And.imp_right (decodePlain_of_agree · h)))

/-- Settles O5: the illegal packets are those that match no row (`exists_row_iff`), by the ranges of the opcodes; one is
refused by the decoder and only answered. -/
theorem illegalPacketHasNoEffect : Obligations.IllegalPacketHasNoEffect := by
  refine ⟨fun w => ?_, fun s w later h hk hc hno => ?_⟩
  · have hrow := exists_row_iff w
    rw [mem_putOpcodes_iff, mem_plainOpcodes_iff] at hrow
    have hno : (∀ row ∈ opcodeRows, packetHeader w &&& row.2 ≠ row.1) ↔
        ¬ ∃ row ∈ opcodeRows, packetHeader w &&& row.2 = row.1 := by simp only [ne_eq, not_exists, not_and]
    rw [hno, hrow]
    by_cases hrsv : packetRsv w = 0 <;> by_cases hpad : packetPad w = 0 <;>
      simp only [hrsv, hpad, ne_eq, not_true_eq_false, not_false_eq_true, true_and, false_and, true_or, false_or,
        or_false] <;> omega
  · obtain ⟨e, he⟩ := decode_eq_error_of_no_row hno
    rw [step_of_packet (by simp [h]) hk hc, accept_of_error he]
    exact runCommand_pure (s := { s with cmdIn := later }) h _

/-- Settles O12: the command's one response is given in the state it leaves (`exec_answers`), so it has that state's mode. -/
theorem oneResponsePerCommand : Obligations.OneResponsePerCommand := by
  intro i s t h hi ht
  obtain ⟨r, u, hexec, hrsp⟩ := exec_answers h hi
  obtain rfl : answered u r = t := Host.Outcome.next.inj (hexec.symm.trans ht)
  refine ⟨responseWord u.mode r, congrArg (· ++ [_]) hrsp, responseMode_responseWord _ _, ?_⟩
  rw [responseStatus_responseWord]
  exact statusCode_range r.status

/-- Settles O4: ten closed words, each decoded. -/
theorem writtenWordsDecode : Obligations.WrittenWordsDecode := by
  unfold Obligations.WrittenWordsDecode
  decide

/-- Settles O6, field by field. -/
theorem responseFormat : Obligations.ResponseFormat := fun m r =>
  ⟨responseStatus_responseWord m r, responseMode_responseWord m r, responseWord_zeroBits m r,
    responseR0_responseWord m r, responseR1_responseWord m r, responseR2_responseWord m r⟩

/-- Settles O8: the table in its ranges, and `VALUE` in both directions. -/
theorem alphabetAndItsInverse : Obligations.AlphabetAndItsInverse :=
  ⟨fun v => alpha_ranges v (sextet_cases v), fun _ v =>
    ⟨eq_alpha_of_alphaValue, fun h => h ▸ alphaValue_alpha v⟩⟩

end Sys2Proof.Machine
end

section
/-! SUPPORT. The statements of the encoder's sessions: what BEGIN_ENCODE and END_ENCODE leave, the text a whole session
writes and what GETs read back from it, and how ENCRYPT fails before it writes. -/

namespace Sys2Proof.Machine

/-! ### Several commands -/

theorem answered_rspOut (s : State) (r : Result) :
    (answered s r).rspOut = s.rspOut ++ [responseWord s.mode r] := rfl

/-- A command that is answered, before others. -/
theorem runCommands_cons {i : Instr} {s t : State} (h : exec i s = .next t) (more : List Instr) :
    runCommands (i :: more) s = runCommands more t := by
  rw [runCommands, h]

theorem runCommands_append {xs : List Instr} {s t : State} (h : runCommands xs s = some t) (ys : List Instr) :
    runCommands (xs ++ ys) s = runCommands ys t := by
  induction xs generalizing s with
  | nil => rw [List.nil_append, Option.some.inj h]
  | cons i xs ih =>
    rw [runCommands] at h
    cases hi : exec i s with
    | next u =>
      rw [hi] at h
      rw [List.cons_append, runCommands_cons hi]
      exact ih h
    | fault => rw [hi] at h; cases h
    | refused => rw [hi] at h; cases h

/-! ### Beginning and ending a session -/

/-- What BEGIN_ENCODE and BEGIN_DECODE answer, given how their opening ends (rules R70, R90). -/
theorem beginCommand_run {begin : Proc Bool} {s t : State} {granted : Bool} (h : begin.run s = .ok granted t) :
    (beginCommand begin).run s = .ok (if granted then okResult else raiseResult .openFail) t := by
  unfold beginCommand
  rw [bind_of_ok h]
  rfl

/-- BEGIN_ENCODE (rule R70). -/
theorem exec_beginEncode {s : State} (h : s.resetIn = []) :
    exec .beginEncode s =
      .next (answered (encodeBegun s) (if grants s.txtOut then okResult else raiseResult .openFail)) :=
  runCommand_of_ok h (beginCommand_run (beginEncode_run h)) h

/-- END_ENCODE in `Encoding` mode (rule R78). -/
theorem exec_endEncode {s : State} (h : s.resetIn = []) (hm : s.mode = .encoding) (hc : s.byteCount ≠ 3) :
    exec .endEncode s = .next (answered (encodeEnded s) okResult) := by
  refine runCommand_of_ok h ?_ h
  unfold endEncodeCommand
  rw [getState_bind, if_pos (by simp [encActive, hm]), bind_of_ok (endEncode_run h hm hc)]
  rfl

/-- END_ENCODE outside `Encoding` mode (rule R78). -/
theorem exec_endEncode_off {s : State} (h : s.resetIn = []) (hm : s.mode ≠ .encoding) :
    exec .endEncode s = .next (answered s (raiseResult .notActive)) := by
  refine runCommand_of_ok h ?_ h
  unfold endEncodeCommand
  rw [getState_bind, if_neg (by simp [encActive, hm])]
  rfl

/-- A PUT outside `Encoding` mode, whatever its serialiser (rules R73 to R76, R194). -/
theorem runCommand_put_off {s : State} (h : s.resetIn = []) (hm : s.mode ≠ .encoding) (put : Proc Unit) :
    runCommand (putCommand put) s = .next (answered s (raiseResult .notActive)) :=
  runCommand_of_ok h (putCommand_off hm) h

/-- A zero byte joins a group as its low byte (rules R72, R78). -/
theorem pushByte_zero (g : BitVec 24) : pushByte g 0 = g * 256 := BitVec.add_zero _

theorem lastSymbols_one (g : BitVec 24) : lastSymbols g 1 = paddedGroup (g * 65536) 2 := by
  rw [lastSymbols, if_pos rfl, groupSymbols_eq_paddedGroup, pushByte_zero, pushByte_zero, BitVec.mul_assoc]
  rfl

theorem lastSymbols_two (g : BitVec 24) : lastSymbols g 2 = paddedGroup (g * 256) 1 := by
  rw [lastSymbols, if_neg (by decide), if_pos rfl, groupSymbols_eq_paddedGroup, pushByte_zero]
  rfl

/-- The end of a session with nothing pending is only the close (rule R78). -/
theorem encodeEnded_of_whole {s : State} (hc : s.byteCount = 0) :
    encodeEnded s = { s with mode := .idle, txtOut := sinkDetached s.txtOut } := by
  have hnone : lastSymbols s.bitBuffer s.byteCount = [] := by rw [hc]; rfl
  rw [encodeEnded, hnone, emitted_nil, if_pos hc, ← hc]

theorem lastSymbols_length (g : BitVec 24) {c : BitVec 2} (hc : c = 1 ∨ c = 2) : (lastSymbols g c).length = 4 := by
  rcases hc with rfl | rfl <;> rfl

/-- The end of a session with a group pending sends its four symbols, then closes (rule R78). -/
theorem encodeEnded_of_partial {s : State} (hc : s.byteCount = 1 ∨ s.byteCount = 2) :
    encodeEnded s =
      { s with
        mode := .idle
        bitBuffer := 0
        byteCount := 0
        column := s.column + 4
        txtOut :=
          { s.txtOut with
            attached := false
            events := s.txtOut.events ++ byteEvents (wrapLines s.params.newline s.column.toNat
              (lastSymbols s.bitBuffer s.byteCount)) ++ [.closed] } } := by
  have hpending : s.byteCount ≠ 0 := by rcases hc with hc | hc <;> rw [hc] <;> decide
  rw [encodeEnded, if_neg hpending, emitted, lastSymbols_length _ hc]
  rfl

/-! ### The text of a session -/

/-- The four low bytes of an integer are those of its low 32 bits (rule R35). -/
theorem natByte_mod (v : Nat) {k : Nat} (hk : k < 4) : natByte (v % 2 ^ 32) k = natByte v k := by
  apply BitVec.eq_of_toNat_eq
  simp only [natByte, BitVec.toNat_ofNat]
  interval_cases k <;> omega

theorem le32_mod (v : Nat) : le32 (v % 2 ^ 32) = le32 v := by
  simp (disch := decide) only [le32, natByte_mod]

/-- A long integer put without padding is its eight bytes, least significant first (rule R76). -/
theorem putState64_eq (s : State) (v : BitVec 64) :
    putState64 s v 0 = putBytes s (le32 v.toNat ++ le32 (v.toNat / 2 ^ 32)) := by
  have hlow : (lowHalf (w := 32) v).toNat = v.toNat % 2 ^ 32 := by
    simp [lowHalf, BitVec.extractLsb'_toNat]
  have hhigh : (highHalf (w := 32) v).toNat = v.toNat / 2 ^ 32 % 2 ^ 32 := by
    simp [highHalf, BitVec.extractLsb'_toNat, Nat.shiftRight_eq_div_pow]
  rw [putState64, putState32_eq, putState32_eq, ← putBytes_append, hlow, hhigh, le32_mod, le32_mod]

/-- The responses given have no effect on what bytes put do. -/
theorem putBytes_responses (s : State) (bytes : List Byte) (l : List Response) :
    putBytes { s with rspOut := l } bytes = { putBytes s bytes with rspOut := l } := by
  induction bytes generalizing s with
  | nil => rfl
  | cons b bytes ih => rw [putBytes_cons, putBytes_cons, putState_responses, ih]

/-- A PUT with padding count 0 in `Encoding` mode puts its bytes (rules R73 to R76). -/
theorem exec_put {i : Instr} {bytes : List Byte} {s : State} (hi : putBytesOf i = some bytes) (h : s.resetIn = [])
    (hm : s.mode = .encoding) : exec i s = .next (answered (putBytes s bytes) okResult) := by
  have hput : ∀ {put : Proc Unit} {t : State}, put.run s = .ok () t → t = putBytes s bytes →
      runCommand (putCommand put) s = .next (answered (putBytes s bytes) okResult) := by
    rintro put t hrun rfl
    exact runCommand_of_ok h (putCommand_run hm hrun) ((putBytes_resetIn s bytes).trans h)
  unfold putBytesOf at hi
  split at hi
  case h_1 v => cases hi; exact hput (putByte_run h hm v 0) rfl
  case h_2 v => cases hi; exact hput (putInt16_run h hm v 0) (putState16_eq s v)
  case h_3 v => cases hi; exact hput (putInt32_run h hm v 0) (putState32_eq s v)
  case h_4 v => cases hi; exact hput (putInt64_run h hm v 0) (putState64_eq s v)
  case h_5 => cases hi

/-- PUTs with padding count 0 in `Encoding` mode put their bytes one after another, and answer (rules R73 to R76). -/
theorem runCommands_puts {puts : List Instr} {bytes : List (List Byte)} {s : State}
    (hputs : puts.mapM putBytesOf = some bytes) (h : s.resetIn = []) (hm : s.mode = .encoding) :
    ∃ l, runCommands puts s = some { putBytes s bytes.flatten with rspOut := l } := by
  induction puts generalizing s bytes with
  | nil =>
    cases hputs
    exact ⟨s.rspOut, rfl⟩
  | cons i puts ih =>
    rw [List.mapM_cons] at hputs
    obtain ⟨first, hi, hputs⟩ := Option.bind_eq_some_iff.mp hputs
    obtain ⟨others, hothers, hbytes⟩ := Option.bind_eq_some_iff.mp hputs
    cases hbytes
    obtain ⟨l, hl⟩ := ih (s := answered (putBytes s first) okResult) hothers
      ((putBytes_resetIn s first).trans h) ((putBytes_mode s first).trans hm)
    refine ⟨l, ?_⟩
    rw [runCommands_cons (exec_put hi h hm), hl, answered, putBytes_responses, List.flatten_cons, putBytes_append]

theorem encodeEnded_responses (s : State) (l : List Response) :
    encodeEnded { s with rspOut := l } = { encodeEnded s with rspOut := l } := rfl

/-- END_ENCODE after bytes put with nothing pending before them: their whole text has been sent (rule R79). -/
theorem exec_endEncode_putBytes {s : State} (h : s.resetIn = []) (hm : s.mode = .encoding) (hempty : Empty s)
    (bytes : List Byte) (l : List Response) :
    exec .endEncode { putBytes s bytes with rspOut := l } = .next (answered
      { emitted s (radixSymbols bytes) with
        txtOut := sinkDetached (emitted s (radixSymbols bytes)).txtOut
        mode := .idle
        rspOut := l } okResult) := by
  have hsteady : s.byteCount ≠ 3 := by rw [hempty.1]; decide
  refine (exec_endEncode (s := { putBytes s bytes with rspOut := l }) ((putBytes_resetIn s bytes).trans h)
    ((putBytes_mode s bytes).trans hm) (putBytes_byteCount hsteady bytes)).trans ?_
  rw [encodeEnded_responses, encodeEnded_putBytes hempty]

theorem radixSymbols_length (bytes : List Byte) : (radixSymbols bytes).length = 4 * ((bytes.length + 2) / 3) := by
  induction bytes using radixSymbols.induct with
  | case1 => rfl
  | case2 a => simp [radixSymbols, groupText, groupFields]
  | case3 a b => simp [radixSymbols, groupText, groupFields]
  | case4 a b c more ih =>
    rw [radixSymbols, List.length_append, ih, show (groupText a b c).length = 4 from rfl]
    simp only [List.length_cons]
    omega

/-- A line break for every 64th symbol of a line (rule R71). -/
theorem wrapLines_length (newline : Byte) (symbols : List Byte) (column : Nat) (h : column < 64) :
    (wrapLines newline column symbols).length = symbols.length + (column + symbols.length) / 64 := by
  induction symbols generalizing column with
  | nil => rw [wrapLines_nil, List.length_nil]; omega
  | cons x symbols ih =>
    rw [wrapLines_cons]
    split
    · rw [List.length_cons, List.length_cons, List.length_cons, ih 0 (by omega)]
      omega
    · rw [List.length_cons, List.length_cons, ih (column + 1) (by omega)]
      omega

theorem radixText_length (newline : Byte) (bytes : List Byte) :
    (radixText newline bytes).length = 4 * ((bytes.length + 2) / 3) + (bytes.length + 2) / 3 / 16 := by
  rw [radixText, wrapLines_length newline _ 0 (by omega), radixSymbols_length]
  omega

/-! ### Reading a text back -/

/-- BEGIN_DECODE, granted (rule R90). -/
theorem exec_beginDecode_granted {s : State} {text : List Byte} (h : s.resetIn = [])
    (htext : resource s.txtIn = some text) :
    exec .beginDecode s = .next (answered (decodeBegun s) okResult) := by
  have hrun := beginCommand_run (beginDecode_run h)
  rw [show nextAnswer s.txtIn.opens = some text from htext] at hrun
  exact runCommand_of_ok h hrun h

/-- A session that has just begun still has all the bytes of its text to give (rules R90, R97). -/
theorem upcoming_decodeBegun {s : State} {text : List Byte} (htext : resource s.txtIn = some text) :
    upcoming (decodeBegun s) = textBytes s.params.skip text := by
  rw [decodeBegun_granted htext]
  rfl

/-- GETs that take as many bytes as a byte string has, from a session that still has that string to give first, answer
its bytes in order (rules R97 to R100). -/
theorem runCommands_gets {gets : List Instr} {widths : List Nat} {s : State} {bytes : List Byte}
    (hgets : gets.mapM getWidthOf = some widths) (h : s.resetIn = []) (hm : s.mode = .decoding)
    (hbytes : bytes <+: upcoming s) (hsum : widths.sum = bytes.length) :
    ∃ t, runCommands gets s = some t ∧ t.rspOut = s.rspOut ++ getResponses gets bytes := by
  induction gets generalizing s widths bytes with
  | nil => exact ⟨s, rfl, (List.append_nil _).symm⟩
  | cons i gets ih =>
    rw [List.mapM_cons] at hgets
    obtain ⟨n, hi, hgets⟩ := Option.bind_eq_some_iff.mp hgets
    obtain ⟨others, hothers, hwidths⟩ := Option.bind_eq_some_iff.mp hgets
    cases hwidths
    rw [List.sum_cons] at hsum
    have hn : n ≤ bytes.length := by omega
    obtain ⟨g, c, rest, hexec, hup, -⟩ := exec_get_ok hi h hm (hn.trans hbytes.length_le)
    obtain ⟨after, hafter⟩ := hbytes
    rw [← hafter, List.take_append_of_le_length hn] at hexec
    rw [← hafter, List.drop_append_of_le_length hn] at hup
    obtain ⟨t, hrun, hrsp⟩ := ih (bytes := bytes.drop n) (s := answered (served s g c rest) _) hothers h hm
      ⟨after, hup.symm⟩ (by rw [List.length_drop]; omega)
    refine ⟨t, (runCommands_cons hexec gets).trans hrun, ?_⟩
    rw [hrsp, answered_rspOut, served_mode, hm, List.append_assoc, getResponses, hi]
    rfl

/-! ### ENCRYPT before it writes -/

/-- `PT_IN` refused: only the answers to come change (rule R31). -/
theorem openPlain_refused_run {s : State} (h : s.resetIn = []) (hopen : resource s.ptIn = none) :
    (openSource .ptIn).run s = .ok false { s with ptIn := { s.ptIn with opens := restAnswers s.ptIn.opens } } := by
  have hanswer : nextAnswer s.ptIn.opens = none := hopen
  rw [openSource_run h, sourceOf_ptIn, withSource_ptIn, sourceAttached_refused _ hanswer, hanswer]
  rfl

/-- Giving up closes `PT_IN` (rule R141). -/
theorem encryptGiveUp_run {s : State} (h : s.resetIn = []) (st : Status) :
    (encryptGiveUp st).run s = .ok (raiseResult st) { s with ptIn := sourceDetached s.ptIn } := by
  unfold encryptGiveUp
  rw [bind_of_ok (closeSource_run h .ptIn)]
  rfl

/-- ENCRYPT with a modulus in range goes on to open `PT_IN` (rules R141, R145). -/
theorem exec_encrypt_of_modulus {s t : State} {n e : Word} {r : Result} (h : s.resetIn = []) (hn0 : n ≠ 0)
    (hn : n.toNat ≤ 2 ^ 32) (hrun : (encryptOpen n.toNat e.toNat).run s = .ok r t) (ht : t.resetIn = []) :
    exec (.encrypt n e) s = .next (answered t r) := by
  have hpos : n.toNat ≠ 0 := fun hz => hn0 (BitVec.eq_of_toNat_eq hz)
  have hrange : modulusRefused n.toNat = false := by
    simp [modulusRefused, maxModulus]
    omega
  refine runCommand_of_ok h ?_ ht
  rw [encryptBody, hrange, if_neg Bool.false_ne_true, hrun]

/-- ENCRYPT where `PT_IN` is refused (rule R141). -/
theorem encryptOpen_refused_run {s : State} (h : s.resetIn = []) (hopen : resource s.ptIn = none) (n e : Nat) :
    (encryptOpen n e).run s =
      .ok (raiseResult .openFail) { s with ptIn := { s.ptIn with opens := restAnswers s.ptIn.opens } } := by
  rw [encryptOpen, bind_of_ok (openPlain_refused_run h hopen)]
  rfl

/-- ENCRYPT once `PT_IN` is open goes by the length of its resource (rule R141). -/
theorem encryptOpen_granted_run {s : State} {data : List Byte} (h : s.resetIn = [])
    (hdata : resource s.ptIn = some data) (n e : Nat) :
    (encryptOpen n e).run s =
      (if lengthLimit ≤ data.length then encryptGiveUp .lengthRange else encryptBegin n e data.length).run
        (plainOpened s data) := by
  rw [encryptOpen, bind_of_ok (openPlain_run h hdata)]
  rfl

/-- ENCRYPT of a plaintext whose length the header cannot say (rule R141). -/
theorem encryptOpen_long_run {s : State} {data : List Byte} (h : s.resetIn = [])
    (hdata : resource s.ptIn = some data) (hlong : lengthLimit ≤ data.length) (n e : Nat) :
    (encryptOpen n e).run s =
      .ok (raiseResult .lengthRange) { s with ptIn := sourceDetached (plainOpened s data).ptIn } := by
  rw [encryptOpen_granted_run h hdata, if_pos hlong, encryptGiveUp_run (s := plainOpened s data) h]
  rfl

/-- ENCRYPT where `TXT_OUT` is refused (rules R70, R141). -/
theorem encryptOpen_textRefused_run {s : State} {data : List Byte} (h : s.resetIn = [])
    (hdata : resource s.ptIn = some data) (hshort : data.length < lengthLimit) (hopen : grants s.txtOut = false)
    (n e : Nat) :
    (encryptOpen n e).run s =
      .ok (raiseResult .openFail) { encodeBegun s with ptIn := sourceDetached (plainOpened s data).ptIn } := by
  have hanswer : nextAnswer (plainOpened s data).txtOut.opens = false := hopen
  rw [encryptOpen_granted_run h hdata, if_neg (Nat.not_le.mpr hshort), encryptBegin,
    bind_of_ok (beginEncode_run (s := plainOpened s data) h), hanswer, if_neg Bool.false_ne_true,
    encryptGiveUp_run (s := encodeBegun (plainOpened s data)) h]
  rfl

/-! ### The obligations -/

/-- Settles O22: the state `BeginEncode()` leaves, granted and refused. -/
theorem beginEncodeObligation : Obligations.BeginEncode := by
  refine ⟨decodeOfEncode .beginEncode rfl, fun s h => ⟨fun hopen => ?_, fun hopen => ?_⟩⟩
  · rw [exec_beginEncode h, hopen, encodeBegun_granted hopen]
    rfl
  · rw [exec_beginEncode h, hopen, encodeBegun_refused hopen]
    rfl

/-- Settles O25: the mode is checked before anything is done. -/
theorem encoderCommandsNeedEncoding : Obligations.EncoderCommandsNeedEncoding := fun _ p h hm =>
  ⟨fun v => runCommand_put_off h hm (putByte v p), fun v => runCommand_put_off h hm (putInt16 v p),
    fun v => runCommand_put_off h hm (putInt32 v p), fun v => runCommand_put_off h hm (putInt64 v p),
    exec_endEncode_off h hm⟩

/-- Settles O26: with nothing pending only the close, else the padded group and the close. -/
theorem endEncodeObligation : Obligations.EndEncode := by
  intro s h hm
  refine ⟨fun hc => ?_, ?_⟩
  · rw [exec_endEncode h hm (by rw [hc]; decide), encodeEnded_of_whole hc]
    rfl
  · intro group pad hgroup
    have hc : s.byteCount = 1 ∨ s.byteCount = 2 := hgroup.imp And.left And.left
    have hlast : lastSymbols s.bitBuffer s.byteCount = paddedGroup group pad := by
      rcases hgroup with ⟨hc, rfl, rfl⟩ | ⟨hc, rfl, rfl⟩
      · rw [hc, lastSymbols_one]
      · rw [hc, lastSymbols_two]
    have hsteady : s.byteCount ≠ 3 := by rcases hc with hc | hc <;> rw [hc] <;> decide
    rw [exec_endEncode h hm hsteady, encodeEnded_of_partial hc, hlast]
    rfl

/-- Settles O27: the PUTs leave their bytes put, and the end of the session sends their whole text. -/
theorem encodedTextIsRadix64 : Obligations.EncodedTextIsRadix64 := by
  refine ⟨fun s puts bytes h hopen hputs => ?_, fun newline bytes =>
    ⟨radixSymbols_length bytes, radixText_length newline bytes⟩⟩
  have hbegin := exec_beginEncode h
  rw [hopen] at hbegin
  have hmode : (encodeBegun s).mode = .encoding := by rw [encodeBegun_granted hopen]
  obtain ⟨l, hl⟩ := runCommands_puts (s := answered (encodeBegun s) okResult) hputs h hmode
  have hend := exec_endEncode_putBytes (s := answered (encodeBegun s) okResult) h hmode ⟨rfl, rfl⟩ bytes.flatten l
  have hrun : runCommands (.beginEncode :: (puts ++ [.endEncode])) s = runCommands [] _ :=
    (runCommands_cons hbegin _).trans ((runCommands_append hl _).trans (runCommands_cons hend []))
  refine ⟨_, hrun, rfl, rfl, ?_⟩
  calc (emitted (answered (encodeBegun s) okResult) (radixSymbols bytes.flatten)).txtOut.events ++ [.closed]
      = (encodeBegun s).txtOut.events ++ byteEvents (radixText s.params.newline bytes.flatten) ++ [.closed] := rfl
    _ = _ := by rw [encodeBegun_granted hopen, List.append_assoc, List.append_assoc]; rfl

/-- Settles O34: the text holds the bytes first, and the GETs take just them. -/
theorem codecRoundTrip : Obligations.CodecRoundTrip := by
  intro s bytes gets widths h hparams htext hgets hsum
  have hskip : s.params.skipOk = true := by
    simp only [Params.wellFormed, Bool.and_eq_true] at hparams
    obtain ⟨⟨⟨-, hskip⟩, -⟩, -⟩ := hparams
    exact hskip
  have hup : upcoming (decodeBegun s) = zeroFilled bytes := by
    rw [upcoming_decodeBegun htext, textBytes, textScan_radixText hskip]
  have hmode : (decodeBegun s).mode = .decoding := by rw [decodeBegun_granted htext]
  obtain ⟨t, hrun, hrsp⟩ := runCommands_gets (s := answered (decodeBegun s) okResult) hgets h hmode
    ⟨_, hup.symm⟩ hsum
  refine ⟨t, (runCommands_cons (exec_beginDecode_granted h htext) gets).trans hrun, ?_⟩
  rw [hrsp, answered_rspOut, hmode, List.append_assoc]
  rfl

/-- Settles O46, clause by clause: the run of ENCRYPT up to the open or the length that ends it. -/
theorem encryptOpenFailures : Obligations.EncryptOpenFailures := by
  intro s n e h hn0 hn
  refine ⟨fun hopen => ?_, fun data hdata hlong => ?_, fun data hdata hshort hopen => ?_⟩
  · exact exec_encrypt_of_modulus h hn0 hn (encryptOpen_refused_run h hopen _ _) h
  · exact exec_encrypt_of_modulus h hn0 hn (encryptOpen_long_run h hdata hlong _ _) h
  · rw [exec_encrypt_of_modulus h hn0 hn (encryptOpen_textRefused_run h hdata hshort hopen _ _) h,
      encodeBegun_refused hopen]
    rfl

end Sys2Proof.Machine
end

section
/-! SUPPORT. The statements of the decoder: what a session's commands leave, how GETs fail, where DECRYPT stops. -/

namespace Sys2Proof.Machine

/-! ### Beginning and ending a session -/

/-- BEGIN_DECODE, refused (rule R90). -/
theorem exec_beginDecode_refused {s : State} (h : s.resetIn = []) (hopen : resource s.txtIn = none) :
    exec .beginDecode s = .next (answered (decodeBegun s) (raiseResult .openFail)) := by
  have hrun := beginCommand_run (beginDecode_run h)
  rw [show nextAnswer s.txtIn.opens = none from hopen] at hrun
  exact runCommand_of_ok h hrun h

/-- END_DECODE in `Decoding` mode (rule R101). -/
theorem exec_endDecode {s : State} (h : s.resetIn = []) (hm : s.mode = .decoding) :
    exec .endDecode s =
      .next (answered { s with txtIn := sourceDetached s.txtIn, mode := .idle } okResult) := by
  refine runCommand_of_ok h ?_ h
  unfold endDecodeCommand
  rw [getState_bind, if_pos (by simp [decActive, hm]), bind_of_ok (endDecode_run h)]
  rfl

/-- END_DECODE outside `Decoding` mode (rule R101). -/
theorem exec_endDecode_off {s : State} (h : s.resetIn = []) (hm : s.mode ≠ .decoding) :
    exec .endDecode s = .next (answered s (raiseResult .notActive)) := by
  refine runCommand_of_ok h ?_ h
  unfold endDecodeCommand
  rw [getState_bind, if_neg (by simp [decActive, hm])]
  rfl

/-! ### GETs that fail -/

/-- A GET whose read fails answers the read's status, with a free value in `R0` (rules R97 to R100). -/
theorem runCommand_get_error {w : Nat} {get : Proc (Except Status (BitVec w))} {s t : State} {st : Status}
    (h : s.resetIn = []) (hrun : get.run s = .ok (.error st) t) (ht : t.resetIn = []) :
    runCommand (getCommand get) s = .next (answered { t with freeCount := t.freeCount + 1 }
      { status := st, r0 := Config.freeResult t.freeCount }) :=
  runCommand_of_ok h (getCommand_error_run hrun) ht

/-- A GET outside `Decoding` mode (rules R97 to R100, R194). -/
theorem exec_get_off {i : Instr} {n : Nat} {s : State} (hi : getWidthOf i = some n) (h : s.resetIn = [])
    (hm : s.mode ≠ .decoding) :
    exec i s = .next (answered { s with freeCount := s.freeCount + 1 }
      { status := .notActive, r0 := Config.freeResult s.freeCount }) := by
  obtain ⟨w, get, -, -, -, hoff, hexec⟩ := exec_of_getWidth hi
  exact (hexec s).trans (runCommand_get_error h (hoff s hm) h)

/-- A GET that needs more bytes than the session still has to give has filled in every group there was (rules R96 to
R100). -/
theorem exec_get_beyond {i : Instr} {n : Nat} {s : State} (hi : getWidthOf i = some n) (h : s.resetIn = [])
    (hm : s.mode = .decoding) (hn : (upcoming s).length < n) :
    exec i s = .next (answered
      { served s (lastGroup s.bitBuffer (textBytes s.params.skip s.txtIn.rest)) 0
          (textScan s.params.skip [] s.txtIn.rest).2.2 with freeCount := s.freeCount + 1 }
      { status := textEnd s.params.skip s.txtIn.rest, r0 := Config.freeResult s.freeCount }) := by
  obtain ⟨w, get, -, -, hreads, -, hexec⟩ := exec_of_getWidth hi
  exact (hexec s).trans (runCommand_get_error h ((hreads s h hm).2 hn) h)

/-- A session with no byte to give has none in its text (rule R162). -/
theorem textBytes_of_upcoming_nil {s : State} (h : upcoming s = []) : textBytes s.params.skip s.txtIn.rest = [] :=
  (List.append_eq_nil_iff.mp h).2

/-! ### DECRYPT before it reads -/

/-- A modulus in range is not refused (rule R145). -/
theorem modulusRefused_of_range {n : Nat} (hn0 : n ≠ 0) (hn : n ≤ 2 ^ 32) : modulusRefused n = false :=
  decide_eq_false (not_or.mpr ⟨hn0, Nat.not_lt.mpr hn⟩)

/-- DECRYPT with a modulus in range goes on to open `TXT_IN` (rules R145, R146). -/
theorem exec_decrypt_of_modulus {s t : State} {n d : Word} {r : Result} (h : s.resetIn = []) (hn0 : n ≠ 0)
    (hn : n.toNat ≤ 2 ^ 32) (hrun : (decryptOpen n.toNat d.toNat).run s = .ok r t) (ht : t.resetIn = []) :
    exec (.decrypt n d) s = .next (answered t r) := by
  refine runCommand_of_ok h ?_ ht
  rw [decryptBody, modulusRefused_of_range (BitVec.toNat_ne_iff_ne.mpr hn0) hn, if_neg Bool.false_ne_true, hrun]

/-- DECRYPT where `TXT_IN` is refused (rules R90, R146). -/
theorem decryptOpen_refused_run {s : State} (h : s.resetIn = []) (hopen : resource s.txtIn = none) (n d : Nat) :
    (decryptOpen n d).run s = .ok (raiseResult .openFail) (decodeBegun s) := by
  have hanswer : nextAnswer s.txtIn.opens = none := hopen
  rw [decryptOpen, bind_of_ok (beginDecode_run h), hanswer]
  rfl

/-- `PT_OUT` refused: only the answers to come change (rule R31). -/
theorem openPlainOut_refused_run {s : State} (h : s.resetIn = []) (hopen : grants s.ptOut = false) :
    (openSink .ptOut).run s =
      .ok false { s with ptOut := { s.ptOut with opens := restAnswers s.ptOut.opens } } := by
  have hanswer : nextAnswer s.ptOut.opens = false := hopen
  rw [openSink_run h, sinkOf_ptOut, withSink_ptOut, sinkAttached_refused _ hanswer, hanswer]

/-- Giving up ends the decode session (rule R146). -/
theorem decryptGiveUp_run {s : State} (h : s.resetIn = []) :
    decryptGiveUp.run s =
      .ok (raiseResult .openFail) { s with txtIn := sourceDetached s.txtIn, mode := .idle } := by
  unfold decryptGiveUp
  rw [bind_of_ok (endDecode_run h)]
  rfl

/-- DECRYPT where `PT_OUT` is refused (rules R90, R146). -/
theorem decryptOpen_plainRefused_run {s : State} {text : List Byte} (h : s.resetIn = [])
    (htext : resource s.txtIn = some text) (hopen : grants s.ptOut = false) (n d : Nat) :
    (decryptOpen n d).run s =
      .ok (raiseResult .openFail)
        { decodeBegun s with
          mode := .idle
          txtIn := sourceDetached (decodeBegun s).txtIn
          ptOut := { s.ptOut with opens := restAnswers s.ptOut.opens } } := by
  have hanswer : nextAnswer s.txtIn.opens = some text := htext
  rw [decryptOpen, bind_of_ok (beginDecode_run h), hanswer, Option.isSome_some, if_pos rfl, decryptOpened,
    bind_of_ok (openPlainOut_refused_run (s := decodeBegun s) h hopen), if_neg Bool.false_ne_true,
    decryptGiveUp_run (by exact h)]
  rfl

/-! ### The obligations -/

/-- Settles O28: the state `BeginDecode()` leaves, granted and refused. -/
theorem beginDecodeObligation : Obligations.BeginDecode := by
  refine ⟨decodeOfEncode .beginDecode rfl, fun s h => ⟨fun text htext => ?_, fun hopen => ?_⟩⟩
  · rw [exec_beginDecode_granted h htext, decodeBegun_granted htext]
    rfl
  · rw [exec_beginDecode_refused h hopen, decodeBegun_refused hopen]
    rfl

/-- Settles O30: a read beyond the stream has filled in every group of the text; one of a single byte fails only where
there is none. -/
theorem getBeyondTextFails : Obligations.GetBeyondTextFails := by
  intro s i n h hm hi hn
  refine ⟨exec_get_beyond hi h hm hn, fun hnone => by rw [hnone]; rfl, ?_⟩
  rintro rfl
  obtain rfl : 1 = n := Option.some.inj hi
  exact textBytes_of_upcoming_nil (List.eq_nil_of_length_eq_zero (Nat.lt_one_iff.mp hn))

/-- Settles O48, by the run of DECRYPT's body over a stream that ends before its last block, or within its header. -/
theorem decryptAborts : Obligations.DecryptAborts := by
  intro s n d text h hn0 hn htext hopen
  have hpos : n.toNat ≠ 0 := BitVec.toNat_ne_iff_ne.mpr hn0
  refine ⟨fun len ciphers extra hlen hciphers hblocks hextra hstream => ?_, fun hshort => ?_⟩
  · exact runCommand_of_ok h
      (decryptBody_short_run h hpos hn htext hopen hlen hciphers hblocks hextra hstream) h
  · exact runCommand_of_ok h (decryptBody_headless_run h hpos hn htext hopen hshort) h

/-- Settles O49, clause by clause: the run of DECRYPT up to the open that is refused. -/
theorem decryptOpenFailures : Obligations.DecryptOpenFailures := by
  intro s n d h hn0 hn
  refine ⟨fun hopen => ?_, fun text htext hopen => ?_⟩
  · rw [exec_decrypt_of_modulus h hn0 hn (decryptOpen_refused_run h hopen _ _) h, decodeBegun_refused hopen]
    rfl
  · rw [exec_decrypt_of_modulus h hn0 hn (decryptOpen_plainRefused_run h htext hopen _ _) h,
      decodeBegun_granted htext]
    rfl

/-- Settles O32: the read checks the mode before anything else. -/
theorem getsNeedDecoding : Obligations.GetsNeedDecoding := fun _ _ _ h hm hi => exec_get_off hi h hm

/-- Settles O33: the mode decides between the close and no effect. -/
theorem endDecodeObligation : Obligations.EndDecode :=
  ⟨decodeOfEncode .endDecode rfl, fun _ h => ⟨exec_endDecode h, exec_endDecode_off h⟩⟩

end Sys2Proof.Machine
end

section
/-! SUPPORT. The statements of the number theory: what IS_PRIME, GCD, MOD_INVERSE and MOD_EXP answer in every state, and
that a key's two exponents take each other back. -/

namespace Sys2Proof.Machine

/-! ### Results that fit their field -/

/-- A number that fits `R0` is answered exactly (rule R110). -/
theorem numberResult_exact {v : Nat} (hv : v < 2 ^ 64) :
    ∃ w : Word, w.toNat = v ∧ numberResult v = { status := .ok, r0 := w } :=
  ⟨BitVec.ofNat 64 v, by rw [BitVec.toNat_ofNat, Nat.mod_eq_of_lt hv], rfl⟩

/-- An operand that is not zero is not the number 0. -/
theorem toNat_ne_zero {w : Word} (h : w ≠ 0) : w.toNat ≠ 0 := BitVec.toNat_ne_iff_ne.mpr h

/-- The absolute value of a signed operand is at most 2^63 (rule R113). -/
theorem natAbs_toInt_le (a : Word) : a.toInt.natAbs ≤ 2 ^ 63 := by
  have hlo := BitVec.le_toInt a
  have hhi := BitVec.toInt_lt (x := a)
  omega

/-- The `Gcd` of two signed operands fits `R0` (rule R113). -/
theorem gcd_toInt_lt (a b : Word) : gcd a.toInt b.toInt < 2 ^ 64 := by
  rw [gcd_eq, Int.gcd_eq_natAbs_gcd_natAbs]
  have ha := natAbs_toInt_le a
  have hb := natAbs_toInt_le b
  rcases Nat.eq_zero_or_pos a.toInt.natAbs with h0 | hpos
  · rw [h0, Nat.gcd_zero_left]
    omega
  · have hle := Nat.gcd_le_left b.toInt.natAbs hpos
    omega

/-- The power with exponent 0 is 1, whatever the modulus (rule R116). -/
theorem powMod_zero (b m : Nat) : powMod b 0 m = 1 := rfl

/-- The power with another exponent is reduced (rule R116). -/
theorem powMod_of_ne_zero {e : Nat} (he : e ≠ 0) (b m : Nat) : powMod b e m = b ^ e % m := if_neg he

/-- `ModExp` with a modulus of a word fits `R0` (rule R116). -/
theorem powMod_toNat_lt (b e : Nat) {m : Word} (hm : m ≠ 0) : powMod b e m.toNat < 2 ^ 64 := by
  rcases eq_or_ne e 0 with rfl | he
  · rw [powMod_zero]
    decide
  · rw [powMod_of_ne_zero he]
    exact (Nat.mod_lt _ (Nat.pos_of_ne_zero (toNat_ne_zero hm))).trans m.isLt

/-! ### What the commands answer -/

/-- IS_PRIME only answers (rule R111). -/
theorem exec_isPrime {s : State} (h : s.resetIn = []) (n : Word) :
    exec (.isPrime n) s = .next (answered s (numberResult (isPrime n.toNat).toNat)) := runCommand_pure h _

/-- GCD only answers (rule R113). -/
theorem exec_gcd {s : State} (h : s.resetIn = []) (a b : Word) :
    exec (.gcd a b) s = .next (answered s (numberResult (gcd a.toInt b.toInt))) := runCommand_pure h _

/-- MOD_INVERSE only answers (rule R114). -/
theorem exec_modInverse {s : State} (h : s.resetIn = []) (a n : Word) :
    exec (.modInverse a n) s = .next (answered s (modInverseResult a.toNat n.toNat)) := runCommand_pure h _

/-- MOD_EXP only answers (rule R116). -/
theorem exec_modExp {s : State} (h : s.resetIn = []) (b e m : Word) :
    exec (.modExp b e m) s = .next (answered s (modExpResult b.toNat e.toNat m.toNat)) := runCommand_pure h _

/-- MOD_INVERSE refuses operands that are not coprime (rule R114). -/
theorem modInverseResult_not_coprime {a n : Nat} (hn : n ≠ 0) (hg : Nat.gcd a n ≠ 1) :
    modInverseResult a n = raiseResult .noInverse := by
  rw [modInverseResult, if_neg hn, if_pos (by rwa [gcd_natCast])]

/-- MOD_INVERSE answers an inverse of coprime operands (rule R114). -/
theorem modInverseResult_coprime {a n : Nat} (hn : n ≠ 0) (hg : Nat.gcd a n = 1) :
    ∃ t, modInverseResult a n = numberResult t ∧ t < n ∧ a * t % n = 1 % n := by
  obtain ⟨t, hrun, ht, hinv⟩ := modInverse_spec (Nat.one_le_iff_ne_zero.mpr hn) hg
  refine ⟨t, ?_, ht, hinv⟩
  rw [modInverseResult, if_neg hn, if_neg (by rw [gcd_natCast]; exact not_not_intro hg), hrun]

/-- MOD_EXP with a modulus answers the power exactly (rule R116). -/
theorem exec_modExp_power {s : State} (h : s.resetIn = []) (b e : Word) {m : Word} (hm : m ≠ 0) :
    ∃ v : Word, v.toNat = powMod b.toNat e.toNat m.toNat ∧
      exec (.modExp b e m) s = .next (answered s { status := .ok, r0 := v }) := by
  obtain ⟨v, hv, hresult⟩ := numberResult_exact (powMod_toNat_lt b.toNat e.toNat hm)
  refine ⟨v, hv, ?_⟩
  rw [exec_modExp h, modExpResult, if_neg (toNat_ne_zero hm), modExp_eq, hresult]

/-! ### Exponents that take each other back -/

/-- Fermat: modulo a prime `p`, a positive exponent that is 1 modulo `p - 1` changes no value (rule R149). -/
theorem pow_modEq_self {p k : Nat} (hp : p.Prime) (hk : 1 ≤ k) (h : p - 1 ∣ k - 1) (x : Nat) : x ^ k ≡ x [MOD p] := by
  have hpow := Int.ModEq.pow_eq_pow hp h hk one_pos (x : Int)
  rw [pow_one] at hpow
  exact_mod_cast hpow

/-- Modulo a product of two primes, an exponent that is 1 modulo `(p - 1) * (q - 1)` changes no value below the product
(rule R149). -/
theorem pow_mod_mul_primes {p q k x : Nat} (hp : p.Prime) (hq : q.Prime) (hpq : p ≠ q)
    (hk : k % ((p - 1) * (q - 1)) = 1) (hx : x < p * q) : x ^ k % (p * q) = x := by
  have hpos : 1 ≤ k := Nat.one_le_iff_ne_zero.mpr (by rintro rfl; simp at hk)
  have hdvd : (p - 1) * (q - 1) ∣ k - 1 := by
    have hsub := Nat.dvd_sub_mod (n := (p - 1) * (q - 1)) k
    rwa [hk] at hsub
  have hmodp := pow_modEq_self hp hpos (dvd_of_mul_right_dvd hdvd) x
  have hmodq := pow_modEq_self hq hpos (dvd_of_mul_left_dvd hdvd) x
  have hmod := (Nat.modEq_and_modEq_iff_modEq_mul ((Nat.coprime_primes hp hq).mpr hpq)).mp ⟨hmodp, hmodq⟩
  exact Nat.mod_eq_of_modEq hmod hx

/-- `ModExp` with `d` takes back `ModExp` with `e` (rule R149). -/
theorem powMod_powMod {p q e d x : Nat} (hp : p.Prime) (hq : q.Prime) (hpq : p ≠ q)
    (hed : e * d % ((p - 1) * (q - 1)) = 1) (hx : x < p * q) :
    powMod (powMod x e (p * q)) d (p * q) = x := by
  have he : e ≠ 0 := by rintro rfl; simp at hed
  have hd : d ≠ 0 := by rintro rfl; simp at hed
  rw [powMod_of_ne_zero he, powMod_of_ne_zero hd, ← Nat.pow_mod, ← pow_mul]
  exact pow_mod_mul_primes hp hq hpq hed hx

/-! ### The obligations -/

/-- Settles O35: `IsPrime` decides primality. -/
theorem isPrimeIsPrimality : Obligations.IsPrimeIsPrimality := by
  refine ⟨fun n => decodeOfEncode (.isPrime n) rfl, fun s n h => ⟨fun hprime => ?_, fun hnot => ?_⟩⟩
  · rw [exec_isPrime h, (isPrime_iff _).mpr hprime]
    rfl
  · rw [exec_isPrime h, isPrime_eq_false hnot]
    rfl

/-- Settles O36: `Gcd` is the divisor, and it fits the field. -/
theorem gcdOfAbsoluteValues : Obligations.GcdOfAbsoluteValues := by
  refine ⟨fun a b => decodeOfEncode (.gcd a b) rfl, fun s a b h => ?_⟩
  obtain ⟨v, hv, hresult⟩ := numberResult_exact (gcd_toInt_lt a b)
  refine ⟨v, ?_, ?_⟩
  · rw [hv, gcd_eq, Int.gcd_eq_natAbs_gcd_natAbs]
  · rw [exec_gcd h, hresult]

/-- Settles O37, case by case; the inverse is the only one because `a` cancels modulo `n`. -/
theorem modInverseIsTheInverse : Obligations.ModInverseIsTheInverse := by
  refine ⟨fun a n => decodeOfEncode (.modInverse a n) rfl, fun s a n h => ⟨?_, fun hn hg => ?_, fun hn hg => ?_⟩⟩
  · rintro rfl
    exact exec_modInverse h a 0
  · rw [exec_modInverse h, modInverseResult_not_coprime (toNat_ne_zero hn) hg]
    rfl
  · obtain ⟨v, hanswer, hlt, hinv⟩ := modInverseResult_coprime (toNat_ne_zero hn) hg
    obtain ⟨t, rfl, hresult⟩ := numberResult_exact (hlt.trans n.isLt)
    refine ⟨t, ?_, hlt, hinv, fun u hu hinv' => inverse_unique hg hu hlt hinv' hinv⟩
    rw [exec_modInverse h, hanswer, hresult]

/-- Settles O38: the answer is the closed form of `ModExp`, which tells exponent 0 from the others. -/
theorem modExpIsThePower : Obligations.ModExpIsThePower := by
  refine ⟨fun b e m => decodeOfEncode (.modExp b e m) rfl, fun s b e m h => ⟨?_, fun hm he => ?_, fun hm he => ?_⟩⟩
  · rintro rfl
    exact exec_modExp h b e 0
  · subst he
    obtain ⟨v, hv, hexec⟩ := exec_modExp_power h b 0 hm
    have hone : v = 1 := BitVec.eq_of_toNat_eq (hv.trans (powMod_zero _ _))
    rw [hexec, hone]
  · obtain ⟨v, hv, hexec⟩ := exec_modExp_power h b e hm
    exact ⟨v, hv.trans (powMod_of_ne_zero (toNat_ne_zero he) _ _), hexec⟩

/-- Settles O51: both commands answer the closed form, and on it Fermat's theorem, modulo `p` and modulo `q`, gives the
value back. -/
theorem modExpInvertsModExp : Obligations.ModExpInvertsModExp := by
  intro s n e d plain p q h hp hq hpq hn hed hplain
  have hn0 : n ≠ 0 := by
    rintro rfl
    exact Nat.not_lt_zero _ hplain
  obtain ⟨cipher, hcipher, hexec⟩ := exec_modExp_power h plain e hn0
  obtain ⟨back, hback, hexec'⟩ := exec_modExp_power h cipher d hn0
  have hsame : back = plain := BitVec.eq_of_toNat_eq (by
    rw [hback, hcipher, hn, powMod_powMod hp hq hpq hed (hn ▸ hplain)])
  exact ⟨cipher, hexec, hsame ▸ hexec'⟩

end Sys2Proof.Machine
end

section
/-! SUPPORT. The statements of KEYGEN: the key it answers where the draws hold one, and the wait where they hold none. -/

namespace Sys2Proof.Machine

/-- The totient of two primes is positive (rule R133). -/
theorem keyTotient_pos {p q : Nat} (hp : p.Prime) (hq : q.Prime) : 0 < keyTotient p q :=
  Nat.mul_pos (Nat.sub_pos_of_lt hp.one_lt) (Nat.sub_pos_of_lt hq.one_lt)

/-- The key of two primes and an exponent coprime to their totient: `d` is the inverse of `e` below it (rules R130, R133). -/
theorem keyResult_of_coprime {p q e : Nat} (hp : p.Prime) (hq : q.Prime) (he : Nat.gcd e (keyTotient p q) = 1) :
    ∃ d, d < keyTotient p q ∧ d * e % keyTotient p q = 1 % keyTotient p q ∧
      keyResult p q e =
        { status := .ok, r0 := BitVec.ofNat 64 (p * q), r1 := BitVec.ofNat 64 e, r2 := BitVec.ofNat 64 d } := by
  obtain ⟨d, hrun, hlt, hinverse⟩ := modInverse_spec (keyTotient_pos hp hq) he
  refine ⟨d, hlt, (Nat.mul_comm d e).symm ▸ hinverse, ?_⟩
  rw [keyResult, hrun, Option.getD_some, keyModulus]

/-- KEYGEN over draws that hold a key answers its result and leaves the draws after it (rules R130, R132). -/
theorem exec_keygen_key {s : State} {xs ys zs left : List Nat} {p q e : Nat} (h : s.resetIn = [])
    (hk : s.keygen = none) (hkey : KeyDraws s.rnd xs p ys q zs e left) :
    exec .keygen s = .next (answered { s with rnd := left } (keyResult p q e)) := by
  rw [exec_keygen h, search_key hkey, keygenLeft, ← hk]

/-- A KEYGEN in progress with no draw to take leaves everything as it is (rules R44, R135). -/
theorem step_keygen_without_draws {s : State} {phase : KeygenPhase} (h : s.resetIn = [])
    (hk : s.keygen = some phase) (hr : s.rnd = []) : step s = .next s := by
  rw [step_keygen h hk, hr, keygenSearch, keygenLeft, ← hr, ← hk]

/-! ### The obligations -/

/-- Settles O39: the search ends at the key of the draws (`search_key`), whose `d` is the inverse of `e`
(`keyResult_of_coprime`). -/
theorem keygenAnswersTheKey : Obligations.KeygenAnswersTheKey := by
  intro s xs p ys q zs e left h hk hkey
  obtain ⟨d, hlt, hinverse, hresult⟩ := keyResult_of_coprime hkey.primeP hkey.primeQ hkey.coprimeE
  exact ⟨d, hlt, hinverse, hresult ▸ exec_keygen_key h hk hkey⟩

/-- Settles O40: a search that finds no key takes every draw and waits (`search_waits`), and over no draws it stays in its
phase. -/
theorem keygenWaitsForDraws : Obligations.KeygenWaitsForDraws := by
  refine ⟨fun s h hnone => ?_, fun s phase h hk hr => step_keygen_without_draws h hk hr⟩
  obtain ⟨phase, hsearch⟩ := search_waits hnone
  exact ⟨phase, by rw [exec_keygen h, hsearch, keygenLeft]⟩

end Sys2Proof.Machine
end

section
/-! SUPPORT. The statements of the pipeline: a modulus it refuses, what ENCRYPT writes where both opens are granted, and what
DECRYPT takes from a text that ENCRYPT wrote. -/

namespace Sys2Proof.Machine

/-! ### The modulus -/

/-- The modulus 0 and every modulus above 2^32 are refused (rule R145). -/
theorem modulusRefused_of_out_of_range {n : Word} (h : n = 0 ∨ n.toNat > 2 ^ 32) : modulusRefused n.toNat = true :=
  decide_eq_true (h.imp_left (congrArg BitVec.toNat))

/-- ENCRYPT only answers where it refuses the modulus (rule R145). -/
theorem exec_encrypt_refused {s : State} {n : Word} (h : s.resetIn = []) (hn : modulusRefused n.toNat = true) (e : Word) :
    exec (.encrypt n e) s = .next (answered s (raiseResult .operandRange)) := by
  refine runCommand_of_ok h ?_ h
  rw [encryptBody, if_pos hn]
  rfl

/-- DECRYPT only answers where it refuses the modulus (rule R145). -/
theorem exec_decrypt_refused {s : State} {n : Word} (h : s.resetIn = []) (hn : modulusRefused n.toNat = true) (d : Word) :
    exec (.decrypt n d) s = .next (answered s (raiseResult .operandRange)) := by
  refine runCommand_of_ok h ?_ h
  rw [decryptBody, if_pos hn]
  rfl

/-! ### Blocks -/

theorem blockValues_length (data : List Byte) : (blockValues data).length = blockCount data.length := by
  induction data using blockValues.induct with
  | case1 => rfl
  | case2 a => simp [blockValues, blockCount]
  | case3 a b => simp [blockValues, blockCount]
  | case4 a b c more ih =>
    rw [blockValues, List.length_cons, ih]
    simp only [blockCount, List.length_cons]
    omega

/-- A byte of an integer is known by its value (rule R35). -/
theorem natByte_eq {v k : Nat} {b : Byte} (h : v / 256 ^ k % 256 = b.toNat) : natByte v k = b :=
  BitVec.eq_of_toNat_eq ((BitVec.toNat_ofNat _ 8).trans h)

/-- The bytes of a block value are the block's (rules R142, R147). -/
theorem plainBytes_blockValue (a b c : Byte) : plainBytes (blockValue a b c) = [a, b, c] := by
  have ha := a.isLt
  have hb := b.isLt
  have hc := c.isLt
  have h0 : natByte (blockValue a b c) 0 = a := natByte_eq (by unfold blockValue; omega)
  have h1 : natByte (blockValue a b c) 1 = b := natByte_eq (by unfold blockValue; omega)
  have h2 : natByte (blockValue a b c) 2 = c := natByte_eq (by unfold blockValue; omega)
  rw [plainBytes, h0, h1, h2]

/-- The bytes of a plaintext's block values, cut to its length, are the plaintext (rules R142, R147). -/
theorem take_plainBytes_blockValues (data : List Byte) :
    ((blockValues data).flatMap plainBytes).take data.length = data := by
  induction data using blockValues.induct with
  | case1 => rfl
  | case2 a => rw [blockValues, List.flatMap_singleton, plainBytes_blockValue]; rfl
  | case3 a b => rw [blockValues, List.flatMap_singleton, plainBytes_blockValue]; rfl
  | case4 a b c more ih =>
    rw [blockValues, List.flatMap_cons, plainBytes_blockValue]
    simp only [List.cons_append, List.nil_append, List.length_cons, List.take_succ_cons, ih]

/-- DECRYPT's blocks of ENCRYPT's blocks are the bytes of the values ENCRYPT read (rule R149). -/
theorem plainOf_powMod {p q e d : Nat} {values : List Nat} (hp : p.Prime) (hq : q.Prime) (hpq : p ≠ q)
    (hed : e * d % ((p - 1) * (q - 1)) = 1) (hvalues : ∀ v ∈ values, v < p * q) :
    plainOf (p * q) d (values.map fun v => powMod v e (p * q)) = values.flatMap plainBytes := by
  rw [plainOf, List.flatMap_map]
  exact List.flatMap_congr fun v hv => by rw [powMod_powMod hp hq hpq hed (hvalues v hv)]

/-! ### ENCRYPT -/

section encrypt
variable {s : State} {n : Word} {data : List Byte} (h : s.resetIn = []) (hn0 : n ≠ 0) (hn : n.toNat ≤ 2 ^ 32)
  (hdata : resource s.ptIn = some data) (hlen : data.length < 2 ^ 32) (hopen : grants s.txtOut = true)
include h hn0 hn hdata hlen hopen

/-- ENCRYPT with both opens granted (rules R141, R143). -/
theorem exec_encrypt (e : Word) {st : Status} {ciphers : List Nat}
    (hblocks : cipherBlocks s.params.strictBlockCheck n.toNat e.toNat (blockValues data) = (st, ciphers)) :
    exec (.encrypt n e) s = .next (answered (encryptedState s (cipherStream data.length ciphers))
      { status := st, r0 := BitVec.ofNat 64 ciphers.length, r1 := BitVec.ofNat 64 data.length }) := by
  have hrun := encryptBody_run (e := e.toNat) h (toNat_ne_zero hn0) hn hdata hlen hopen
  rw [hblocks] at hrun
  exact runCommand_of_ok h hrun h

/-- ENCRYPT where no block is refused (rules R141, R142). -/
theorem exec_encrypt_whole (e : Word)
    (hcheck : s.params.strictBlockCheck = false ∨ ∀ v ∈ blockValues data, v < n.toNat) :
    exec (.encrypt n e) s = .next (answered
      (encryptedState s (cipherStream data.length ((blockValues data).map fun v => powMod v e.toNat n.toNat)))
      { status := .ok, r0 := BitVec.ofNat 64 (blockCount data.length), r1 := BitVec.ofNat 64 data.length }) := by
  rw [exec_encrypt h hn0 hn hdata hlen hopen e (cipherBlocks_ok hcheck), List.length_map, blockValues_length]

/-- ENCRYPT where a block is refused (rule R143). -/
theorem exec_encrypt_blockRange (e : Word) {before after : List Nat} {v : Nat}
    (hstrict : s.params.strictBlockCheck = true) (hvalues : blockValues data = before ++ v :: after)
    (hbefore : ∀ u ∈ before, u < n.toNat) (hv : n.toNat ≤ v) :
    exec (.encrypt n e) s = .next (answered
      (encryptedState s (cipherStream data.length (before.map fun u => powMod u e.toNat n.toNat)))
      { status := .blockRange, r0 := BitVec.ofNat 64 before.length, r1 := BitVec.ofNat 64 data.length }) := by
  have hblocks := cipherBlocks_refused (e := e.toNat) (more := after) hbefore hv
  rw [← hstrict, ← hvalues] at hblocks
  rw [exec_encrypt h hn0 hn hdata hlen hopen e hblocks, List.length_map]

end encrypt

/-! ### DECRYPT of an encrypted text -/

/-- What is skipped has no symbol value, and the line break is skipped (rule R93). -/
theorem skipOk_of_wellFormed {p : Params} (h : p.wellFormed = true) : p.skipOk = true := by
  simp only [Params.wellFormed, Bool.and_eq_true] at h
  obtain ⟨⟨⟨-, hskip⟩, -⟩, -⟩ := h
  exact hskip

theorem textBytes_radixText {p : Params} (h : p.wellFormed = true) (bytes : List Byte) :
    textBytes p.skip (radixText p.newline bytes) = zeroFilled bytes := by
  rw [textBytes, textScan_radixText (skipOk_of_wellFormed h)]

/-- DECRYPT of the text of a header and all its blocks (rules R140, R146, R147). -/
theorem exec_decrypt_cipherText {s : State} {n : Word} {len : Nat} {ciphers : List Nat} (h : s.resetIn = [])
    (hparams : s.params.wellFormed = true) (hn0 : n ≠ 0) (hn : n.toNat ≤ 2 ^ 32)
    (htext : resource s.txtIn = some (radixText s.params.newline (cipherStream len ciphers)))
    (hopen : grants s.ptOut = true) (hlen : len < 2 ^ 32) (hciphers : ∀ c ∈ ciphers, c < 2 ^ 32)
    (hblocks : ciphers.length = blockCount len) (d : Word) :
    ∃ g c, exec (.decrypt n d) s = .next (answered
      (decryptedState s ((plainOf n.toNat d.toNat ciphers).take len) g c)
      { status := .ok, r0 := BitVec.ofNat 64 len, r1 := BitVec.ofNat 64 len }) := by
  obtain ⟨c, -, hrun⟩ := decryptBody_run (d := d.toNat) h (toNat_ne_zero hn0) hn htext hopen hlen hciphers hblocks
    (textBytes_radixText hparams _)
  exact ⟨_, c, runCommand_of_ok h hrun h⟩

/-- The text of a header of length 0 (rule R150). -/
theorem radixText_empty (newline : Byte) :
    radixText newline (cipherStream 0 []) = [0x41, 0x41, 0x41, 0x41, 0x41, 0x41, 0x3D, 0x3D] := by
  have hsymbols : radixSymbols (cipherStream 0 []) = [0x41, 0x41, 0x41, 0x41, 0x41, 0x41, 0x3D, 0x3D] := by decide
  rw [radixText, hsymbols]
  rfl

/-! ### The obligations -/

/-- Settles O44: no block is refused (`exec_encrypt_whole`). -/
theorem encryptWritesCipherText : Obligations.EncryptWritesCipherText := by
  rintro s n e data raw h hn0 hn hdata hlen hopen hcheck rfl
  exact exec_encrypt_whole h hn0 hn hdata hlen hopen e hcheck

/-- Settles O45: the first value not below the modulus ends the blocks (`exec_encrypt_blockRange`). -/
theorem encryptStopsAtLargeBlock : Obligations.EncryptStopsAtLargeBlock := by
  rintro s n e data raw before v after h hn0 hn hdata hlen hopen hstrict hvalues hbefore hv rfl
  exact exec_encrypt_blockRange h hn0 hn hdata hlen hopen e hstrict hvalues hbefore hv

/-- Settles O50: the empty plaintext has no block, so its text is that of a header of length 0 (`radixText_empty`), which
DECRYPT reads before it runs its loop zero times. -/
theorem emptyInput : Obligations.EmptyInput := by
  intro s n k h hparams hn0 hn
  refine ⟨fun hdata hopen => ?_, fun htext hopen => ?_⟩
  · refine ⟨_, exec_encrypt_whole h hn0 hn hdata (by decide) hopen k (.inr fun v hv => nomatch hv), ?_⟩
    rw [← radixText_empty s.params.newline]
    rfl
  · rw [← radixText_empty s.params.newline] at htext
    obtain ⟨g, c, hexec⟩ := exec_decrypt_cipherText h hparams hn0 hn htext hopen (by decide)
      (fun v hv => nomatch hv) rfl k
    exact ⟨_, hexec, rfl⟩

/-- Settles O52: the text ENCRYPT writes has the header and all its blocks, and on each block the power with `d` takes back
the power with `e` (`plainOf_powMod`). -/
theorem pipelineRoundTrip : Obligations.PipelineRoundTrip := by
  intro s n e d p q data h hparams hp hq hpq hnpq hn hed hlen hvalues hdata hopen
  have hn0 : n ≠ 0 := BitVec.toNat_ne_iff_ne.mp (by rw [hnpq]; exact Nat.mul_ne_zero hp.ne_zero hq.ne_zero)
  refine ⟨_, _, _, exec_encrypt_whole h hn0 hn hdata hlen hopen e (.inr hvalues), answered_rspOut _ _,
    responseStatus_responseWord _ _, rfl, fun u hu huparams htext huopen => ?_⟩
  rw [← huparams] at htext hparams
  have hciphers : ∀ c ∈ (blockValues data).map fun v => powMod v e.toNat n.toNat, c < 2 ^ 32 := by
    simp only [List.mem_map, forall_exists_index, and_imp, forall_apply_eq_imp_iff₂]
    exact fun v _ => powMod_lt (toNat_ne_zero hn0) hn
  obtain ⟨g, c, hexec⟩ := exec_decrypt_cipherText hu hparams hn0 hn htext huopen hlen hciphers
    (by rw [List.length_map, blockValues_length]) d
  have hplain : (plainOf n.toNat d.toNat ((blockValues data).map fun v => powMod v e.toNat n.toNat)).take data.length
      = data := by
    rw [hnpq] at hvalues ⊢
    rw [plainOf_powMod hp hq hpq hed hvalues, take_plainBytes_blockValues]
  rw [hplain] at hexec
  exact ⟨_, _, hexec, answered_rspOut _ _, responseStatus_responseWord _ _, rfl⟩

/-- Settles O43: a refused modulus leaves only the answer. -/
theorem modulusOutOfRangeRefused : Obligations.ModulusOutOfRangeRefused := fun _ _ k h hn =>
  ⟨exec_encrypt_refused h (modulusRefused_of_out_of_range hn) k,
    exec_decrypt_refused h (modulusRefused_of_out_of_range hn) k⟩

end Sys2Proof.Machine
end

section
/-! SUPPORT. The statement of STATUS: it only answers, with the word of the mode. -/

namespace Sys2Proof.Machine

/-- STATUS only answers (rule R160). -/
theorem exec_status {s : State} (h : s.resetIn = []) : exec .status s = .next (answered s (statusResult s)) :=
  runCommand_pure h _

/-- Settles O21: STATUS only answers (`exec_status`), and in each mode its word is `ACTIVE` before the code of the mode. -/
theorem statusReports : Obligations.StatusReports := by
  refine ⟨decodeOfEncode .status rfl, fun s h => ?_⟩
  rw [exec_status h, statusResult, statusWord, active]
  cases s.mode with
  | idle => rfl
  | encoding => rfl
  | decoding => rfl

end Sys2Proof.Machine
end

section
/-! SUPPORT. The statements of the exceptions: every step and every command has a next state, the codes of the statuses, and
the step of a block with nothing to do. -/

namespace Sys2Proof.Machine

/-- Every command has a next state: its procedure ends, or reset cuts it short (rules R165, R206). -/
theorem exec_next (i : Instr) (s : State) : ∃ t, exec i s = .next t := by
  rw [exec_eq_settle]
  exact settle_next _ s

/-- Every step has a next state: it is a reset where one is due, else it runs one procedure (rules R190, R206). -/
theorem step_next (s : State) : ∃ t, step s = .next t := by
  by_cases h : s.resetIn.head? = some 0
  · exact ⟨_, step_of_due h⟩
  · rw [step_eq_settle h]
    exact settle_next _ _

/-- Where no reset is coming, waiting changes nothing (rule R176). -/
theorem settle_unit {s : State} (h : s.resetIn = []) : settle unit s = .next s := by
  rw [settle, unit_run h]

/-! ### The obligations -/

/-- Settles O11: a step is a reset or the run of a procedure, a command is the run of one, and every run ends in a next
state (`settle_next`). -/
theorem everyStepAnswers : Obligations.EveryStepAnswers := ⟨step_next, exec_next⟩

/-- Settles O7: the table entry by entry, and the range of the codes (`statusCode_range`). -/
theorem statusCodesOfTheTable : Obligations.StatusCodesOfTheTable :=
  ⟨rfl, rfl, rfl, rfl, rfl, rfl, rfl, rfl, rfl, rfl, rfl,
    fun st => (statusCode_range st).imp_right (congrArg BitVec.toNat)⟩

/-- Settles O10: the step is one of waiting (`step_of_waiting`). -/
theorem waitingHoldsState : Obligations.WaitingHoldsState := by
  intro s h hk hc
  rw [step_of_waiting (by simp [h]) hk hc, settle_unit h]

end Sys2Proof.Machine
end
